-- ==== Sys2Proof/Word.lean ====
section
/-! DEFINITION. The word types of the machine (00_scope.md R6, R7): every value is unsigned. -/

namespace Sys2Proof

/-- A general register, a timer, a byte of memory: 8 bits (R20, R60). -/
abbrev Byte := BitVec 8

/-- An opcode word, the index register, the program counter, a stack slot: 16 bits (R11, R22, R23, R25). -/
abbrev Word := BitVec 16

/-- A register index, a key index, a 4-bit immediate (R93). -/
abbrev Nibble := BitVec 4

/-- The 12-bit address field `NNN` (R93). -/
abbrev Addr12 := BitVec 12

end Sys2Proof
end

