-- ==== Sys2Proof/Machine/Flags.lean ====
section
/-! DEFINITION. The flag computations (41_register_arith.md R146–R150, R152). The only other flag is the collision of the
blit (Display.lean, R177). -/

namespace Sys2Proof.Machine

/-- The carry out of bit 7 of the exact sum (R146). -/
def carryOut (x y : Byte) : Bool := decide (x.toNat + y.toNat > 255)

/-- NOT borrow of `x - y`: 1 when `x ≥ y` (R147, R149, D5). -/
def notBorrow (x y : Byte) : Bool := decide (x.toNat ≥ y.toNat)

/-- The bit a right shift by one shifts out (R148). -/
def shiftedOutRight (s : Byte) : Bool := s.getLsbD 0

/-- The bit a left shift by one shifts out (R150). -/
def shiftedOutLeft (s : Byte) : Bool := s.getLsbD 7

end Sys2Proof.Machine
end

