-- ==== Sys2Proof/Config.lean ====
section
/-! DEFINITION. The parameters of 00_scope.md R5 and the configuration record of 10_state.md R44–R46 as plain data, and the
one free value of the machine. The default VALUES of the parameters stand in Machine/Parameters.lean. -/

namespace Sys2Proof

/-- The three modes, chosen at initialization and fixed for the session (R2). -/
inductive Mode where
  | chip8
  | schip
  | xochip
  deriving DecidableEq, Repr

/-- The six quirk flags (R46). -/
structure QuirkSet where
  /-- 8XY6 and 8XYE shift VY into VX; when false they shift VX in place. -/
  shiftVy : Bool
  /-- FX55 and FX65 leave I = I + X + 1; when false I is unchanged. -/
  memInc : Bool
  /-- BNNN adds VX with X = NNN[11:8]; when false it adds V0. -/
  jumpVx : Bool
  /-- 8XY1, 8XY2 and 8XY3 set VF to 0 after the result. -/
  vfReset : Bool
  /-- Sprites clip at the screen edge; when false they wrap. -/
  clip : Bool
  /-- DXYN ends with the vblank stall. -/
  dispWait : Bool
  deriving DecidableEq, Repr

/-- The configuration of a session (R45), with the parameters of R5 it is made from. No instruction changes it (R44). The
fields `mem_size`, `planes`, `hires_ok`, `ext_schip` and `ext_xo` of R45 are functions of `mode`
(Machine/Parameters.lean). -/
structure Config where
  /-- `MODE`. -/
  mode : Mode
  /-- `QUIRKS(MODE)`. -/
  quirks : QuirkSet
  /-- `P_EXTRAS`: the opcodes the source does not name are accepted (R106). -/
  extras : Bool
  /-- `P_CLIP_START_WRAP`: under clip the start coordinate is wrapped first (R176). -/
  clipStartWrap : Bool
  /-- `P_STACK_DEPTH`, in 12..16 (R25); the lower bound is in `Config.Ok`. -/
  stackDepth : Fin 17
  /-- `P_RPL_COUNT(MODE)`: how many RPL slots are reachable (R40). -/
  rplCount : Fin 17
  /-- `FONT_BASE`. -/
  fontBase : Word
  /-- `FONT`: 16 glyphs of 5 bytes, top row first (R68). -/
  font : Vector (Vector Byte 5) 16
  /-- `BIG_FONT_BASE`, read only under `extras` (R229). -/
  bigFontBase : Word
  /-- `BIG_FONT`: 16 glyphs of 10 bytes, loaded only under `extras` (R229, R294). -/
  bigFont : Vector (Vector Byte 10) 16
  /-- `RPL_INIT` (R40). -/
  rplInit : Vector Byte 16
  /-- `AUDIO_PATTERN_INIT` (R28). -/
  audioInit : Vector Byte 16
  deriving DecidableEq, Repr

/-- `RND`, the free 8-bit input of CXNN (R162, D35): the draw number `n` of the run. It has no body, so nothing is provable
of its values; a claim holds for every draw (log 3). -/
opaque Config.rnd : Nat → Byte

end Sys2Proof
end

