-- ==== Sys2Proof/Machine/Parameters.lean ====
section
/-! DEFINITION. The values of the parameters: what a mode fixes (R45), the default tables of R5, R46 and R68, the
configuration of a session that takes every default, and when a configuration is legal. -/

namespace Sys2Proof

/-- `MEM_SIZE` (R45, R60). -/
def Config.memSize (c : Config) : Nat :=
  match c.mode with
  | .chip8 => 4096
  | .schip => 4096
  | .xochip => 65536

/-- The number of bitmap planes (R45, R31). -/
def Config.planes (c : Config) : Nat :=
  match c.mode with
  | .chip8 => 1
  | .schip => 1
  | .xochip => 2

/-- High resolution exists (R45, R30). -/
def Config.hiresOk (c : Config) : Bool :=
  match c.mode with
  | .chip8 => false
  | .schip => true
  | .xochip => true

/-- The SuperChip opcodes are accepted (R45, R105). -/
def Config.extSchip (c : Config) : Bool :=
  match c.mode with
  | .chip8 => false
  | .schip => true
  | .xochip => true

/-- The XO-Chip opcodes are accepted (R45, R105). -/
def Config.extXo (c : Config) : Bool :=
  match c.mode with
  | .chip8 => false
  | .schip => false
  | .xochip => true

/-- The default `QUIRKS` table (R46). -/
def Mode.defaultQuirks : Mode → QuirkSet
  | .chip8 =>
    { shiftVy := true, memInc := true, jumpVx := false, vfReset := true, clip := true, dispWait := true }
  | .schip =>
    { shiftVy := false, memInc := false, jumpVx := true, vfReset := false, clip := true, dispWait := false }
  | .xochip =>
    { shiftVy := true, memInc := true, jumpVx := false, vfReset := false, clip := false, dispWait := false }

/-- The default `P_RPL_COUNT` (R40, R45). -/
def Mode.defaultRplCount : Mode → Fin 17
  | .chip8 => 0
  | .schip => 8
  | .xochip => 16

/-- The default `FONT` (R68). -/
def defaultFont : Vector (Vector Byte 5) 16 :=
  #v[#v[0xF0, 0x90, 0x90, 0x90, 0xF0], #v[0x20, 0x60, 0x20, 0x20, 0x70],
     #v[0xF0, 0x10, 0xF0, 0x80, 0xF0], #v[0xF0, 0x10, 0xF0, 0x10, 0xF0],
     #v[0x90, 0x90, 0xF0, 0x10, 0x10], #v[0xF0, 0x80, 0xF0, 0x10, 0xF0],
     #v[0xF0, 0x80, 0xF0, 0x90, 0xF0], #v[0xF0, 0x10, 0x20, 0x40, 0x40],
     #v[0xF0, 0x90, 0xF0, 0x90, 0xF0], #v[0xF0, 0x90, 0xF0, 0x10, 0xF0],
     #v[0xF0, 0x90, 0xF0, 0x90, 0x90], #v[0xE0, 0x90, 0xE0, 0x90, 0xE0],
     #v[0xF0, 0x80, 0x80, 0x80, 0xF0], #v[0xE0, 0x90, 0x90, 0x90, 0xE0],
     #v[0xF0, 0x80, 0xF0, 0x80, 0xF0], #v[0xF0, 0x80, 0xF0, 0x80, 0x80]]

/-- The session of mode `m` with every parameter at its default (R5), `P_EXTRAS` apart. `BIG_FONT_BASE` and `BIG_FONT` have
no default in the spec (D44): DESIGN CHOICE, log 2. -/
def Config.standard (m : Mode) (extras : Bool) : Config where
  mode := m
  quirks := m.defaultQuirks
  extras := extras
  clipStartWrap := false
  stackDepth := 16
  rplCount := m.defaultRplCount
  fontBase := 0x050
  font := defaultFont
  bigFontBase := 0x0A0
  bigFont := Vector.replicate 16 (Vector.replicate 10 0)
  rplInit := Vector.replicate 16 0
  audioInit := Vector.replicate 16 0

/-- The configuration `State.reset` starts from. The host chooses `MODE`, which has no default: DESIGN CHOICE `XOCHIP`, the
mode whose opcode set holds the other two (log 1). -/
def Config.default : Config := Config.standard .xochip false

/-- The configuration that accepts every row of the opcode table: XOCHIP with `P_EXTRAS`. -/
def Config.full : Config := Config.standard .xochip true

/-- The legal parameter values: `P_STACK_DEPTH` is 12..16 (R5), and a font region lies below 0x200 (R294). -/
abbrev Config.Ok (c : Config) : Prop :=
  12 ≤ c.stackDepth.val ∧ c.fontBase.toNat + 80 ≤ 0x200 ∧
    (c.extras = true → c.bigFontBase.toNat + 160 ≤ 0x200)

end Sys2Proof
end

