-- ==== Sys2Proof/Syntax.lean ====
section
/-! DEFINITION. The instructions, one constructor per row of spec/opcode_table.json (30_encoding.md R97–R103), each with its
operand fields. -/

namespace Sys2Proof

/-- The decoded instruction, a closed tagged variant (R107). -/
inductive Instr where
  /-- 00E0 CLS. -/
  | cls
  /-- 00EE RET. -/
  | ret
  /-- 00CN SCD N. -/
  | scd (n : Nibble)
  /-- 00DN SCU N. -/
  | scu (n : Nibble)
  /-- 00FB SCR. -/
  | scr
  /-- 00FC SCL. -/
  | scl
  /-- 00FD EXIT. -/
  | exit
  /-- 00FE LOW. -/
  | low
  /-- 00FF HIGH. -/
  | high
  /-- 1NNN JP NNN. -/
  | jp (nnn : Addr12)
  /-- 2NNN CALL NNN. -/
  | call (nnn : Addr12)
  /-- 3XNN SE VX, NN. -/
  | seImm (x : Nibble) (nn : Byte)
  /-- 4XNN SNE VX, NN. -/
  | sneImm (x : Nibble) (nn : Byte)
  /-- 5XY0 SE VX, VY. -/
  | seReg (x y : Nibble)
  /-- 5XY2 SAVE VX - VY. -/
  | saveRange (x y : Nibble)
  /-- 5XY3 LOAD VX - VY. -/
  | loadRange (x y : Nibble)
  /-- 6XNN LD VX, NN. -/
  | ldImm (x : Nibble) (nn : Byte)
  /-- 7XNN ADD VX, NN. -/
  | addImm (x : Nibble) (nn : Byte)
  /-- 8XY0 LD VX, VY. -/
  | ldReg (x y : Nibble)
  /-- 8XY1 OR VX, VY. -/
  | orReg (x y : Nibble)
  /-- 8XY2 AND VX, VY. -/
  | andReg (x y : Nibble)
  /-- 8XY3 XOR VX, VY. -/
  | xorReg (x y : Nibble)
  /-- 8XY4 ADD VX, VY. -/
  | addReg (x y : Nibble)
  /-- 8XY5 SUB VX, VY. -/
  | subReg (x y : Nibble)
  /-- 8XY6 SHR VX, VY. -/
  | shr (x y : Nibble)
  /-- 8XY7 SUBN VX, VY. -/
  | subnReg (x y : Nibble)
  /-- 8XYE SHL VX, VY. -/
  | shl (x y : Nibble)
  /-- 9XY0 SNE VX, VY. -/
  | sneReg (x y : Nibble)
  /-- ANNN LD I, NNN. -/
  | ldI (nnn : Addr12)
  /-- BNNN JP V0, NNN. -/
  | jpOffset (nnn : Addr12)
  /-- CXNN RND VX, NN. -/
  | rnd (x : Nibble) (nn : Byte)
  /-- DXYN DRW VX, VY, N. -/
  | drw (x y n : Nibble)
  /-- EX9E SKP VX. -/
  | skp (x : Nibble)
  /-- EXA1 SKNP VX. -/
  | sknp (x : Nibble)
  /-- F000 NNNN LD I, long NNNN. -/
  | ldILong (nnnn : Word)
  /-- FN01 PLANE N. The row is accepted only for N ≤ 3 (R103), so the operand has 2 bits. -/
  | plane (n : BitVec 2)
  /-- F002 AUDIO. -/
  | audio
  /-- FX07 LD VX, DT. -/
  | ldVxDt (x : Nibble)
  /-- FX0A LD VX, K. -/
  | ldVxK (x : Nibble)
  /-- FX15 LD DT, VX. -/
  | ldDtVx (x : Nibble)
  /-- FX18 LD ST, VX. -/
  | ldStVx (x : Nibble)
  /-- FX1E ADD I, VX. -/
  | addI (x : Nibble)
  /-- FX29 LD F, VX. -/
  | ldF (x : Nibble)
  /-- FX30 LD HF, VX. -/
  | ldHf (x : Nibble)
  /-- FX33 LD B, VX. -/
  | ldB (x : Nibble)
  /-- FX3A PITCH VX. -/
  | pitch (x : Nibble)
  /-- FX55 LD [I], VX. -/
  | storeRegs (x : Nibble)
  /-- FX65 LD VX, [I]. -/
  | loadRegs (x : Nibble)
  /-- FX75 LD R, VX. -/
  | saveRpl (x : Nibble)
  /-- FX85 LD VX, R. -/
  | loadRpl (x : Nibble)
  deriving DecidableEq, Repr

end Sys2Proof
end

