-- ==== Sys2Proof/Machine/Gates.lean ====
section
/-! DEFINITION. The gates of the opcode table: the mode, extras and operand conditions of 30_encoding.md R97–R106, all
decode-time conditions (R108). Operand widths are in the types of Syntax.lean. -/

namespace Sys2Proof

/-- The gate of the row `i` stands open in configuration `c` (R105, R106; the conditions of R97, R99 and R103). A word whose
row is gated off is illegal (R104). -/
def Instr.accepted (c : Config) : Instr → Bool
  | .cls => true
  | .ret => true
  | .scd _ => c.extSchip
  | .scu _ => c.extXo && c.extras
  | .scr => c.extXo || (c.extSchip && c.extras)
  | .scl => c.extXo || (c.extSchip && c.extras)
  | .exit => c.extSchip && c.extras
  | .low => c.extSchip
  | .high => c.extSchip
  | .jp _ => true
  | .call _ => true
  | .seImm _ _ => true
  | .sneImm _ _ => true
  | .seReg _ _ => true
  | .saveRange _ _ => c.extXo
  | .loadRange _ _ => c.extXo
  | .ldImm _ _ => true
  | .addImm _ _ => true
  | .ldReg _ _ => true
  | .orReg _ _ => true
  | .andReg _ _ => true
  | .xorReg _ _ => true
  | .addReg _ _ => true
  | .subReg _ _ => true
  | .shr _ _ => true
  | .subnReg _ _ => true
  | .shl _ _ => true
  | .sneReg _ _ => true
  | .ldI _ => true
  | .jpOffset _ => true
  | .rnd _ _ => true
  | .drw _ _ _ => true
  | .skp _ => true
  | .sknp _ => true
  | .ldILong _ => c.extXo
  | .plane _ => c.extXo
  | .audio => c.extXo
  | .ldVxDt _ => true
  | .ldVxK _ => true
  | .ldDtVx _ => true
  | .ldStVx _ => true
  | .addI _ => true
  | .ldF _ => true
  | .ldHf _ => c.extSchip && c.extras
  | .ldB _ => true
  | .pitch _ => c.extXo
  | .storeRegs _ => true
  | .loadRegs _ => true
  | .saveRpl x => c.extSchip && decide (x.toNat < c.rplCount.val)
  | .loadRpl x => c.extSchip && decide (x.toNat < c.rplCount.val)

end Sys2Proof
end

