-- ==== Sys2Proof/WellFormed.lean ====
section
/-! DEFINITION. Which instruction terms are well-formed. Operand widths are in the types of Syntax.lean, so the only checks
left are the gates of a configuration (Machine/Gates.lean). -/

namespace Sys2Proof

/-- `i` is an instruction of the machine configured by `c`: some word is decoded as `i` there (R104, R107). -/
abbrev Instr.WellFormed (c : Config) (i : Instr) : Prop := i.accepted c = true

end Sys2Proof
end

