-- ==== Sys2Proof/Decode.lean ====
section
/-! DEFINITION. Decoding (30_encoding.md R90–R109): one dispatch table on the opcode word, then the gate of the
configuration; and the encoder, written from the same rows. -/

namespace Sys2Proof

/-- `F` = op[15:12], the dispatch key (R93). -/
def fieldF (op : Word) : Nibble := op.extractLsb' 12 4
/-- `X` = op[11:8] (R93). -/
def fieldX (op : Word) : Nibble := op.extractLsb' 8 4
/-- `Y` = op[7:4] (R93). -/
def fieldY (op : Word) : Nibble := op.extractLsb' 4 4
/-- `N` = op[3:0] (R93). -/
def fieldN (op : Word) : Nibble := op.extractLsb' 0 4
/-- `NN` = op[7:0] (R93). -/
def fieldNN (op : Word) : Byte := op.extractLsb' 0 8
/-- `NNN` = op[11:0] (R93). -/
def fieldNNN (op : Word) : Addr12 := op.extractLsb' 0 12

/-- Family 0, on the whole word; `00CN` and `00DN` on its upper 12 bits (R97). -/
def decodeFamily0 (op : Word) : Option Instr :=
  match op.extractLsb' 4 12 with
  | 0x00C#12 => some (.scd (fieldN op))
  | 0x00D#12 => some (.scu (fieldN op))
  | 0x00E#12 =>
    match fieldN op with
    | 0x0#4 => some .cls
    | 0xE#4 => some .ret
    | _ => none
  | 0x00F#12 =>
    match fieldN op with
    | 0xB#4 => some .scr
    | 0xC#4 => some .scl
    | 0xD#4 => some .exit
    | 0xE#4 => some .low
    | 0xF#4 => some .high
    | _ => none
  | _ => none

/-- Family 5, on N (R99). -/
def decodeFamily5 (op : Word) : Option Instr :=
  match fieldN op with
  | 0x0#4 => some (.seReg (fieldX op) (fieldY op))
  | 0x2#4 => some (.saveRange (fieldX op) (fieldY op))
  | 0x3#4 => some (.loadRange (fieldX op) (fieldY op))
  | _ => none

/-- Family 8, on N (R100); the other seven values are illegal (R151). -/
def decodeFamily8 (op : Word) : Option Instr :=
  match fieldN op with
  | 0x0#4 => some (.ldReg (fieldX op) (fieldY op))
  | 0x1#4 => some (.orReg (fieldX op) (fieldY op))
  | 0x2#4 => some (.andReg (fieldX op) (fieldY op))
  | 0x3#4 => some (.xorReg (fieldX op) (fieldY op))
  | 0x4#4 => some (.addReg (fieldX op) (fieldY op))
  | 0x5#4 => some (.subReg (fieldX op) (fieldY op))
  | 0x6#4 => some (.shr (fieldX op) (fieldY op))
  | 0x7#4 => some (.subnReg (fieldX op) (fieldY op))
  | 0xE#4 => some (.shl (fieldX op) (fieldY op))
  | _ => none

/-- Family 9, on N (R101). -/
def decodeFamily9 (op : Word) : Option Instr :=
  match fieldN op with
  | 0x0#4 => some (.sneReg (fieldX op) (fieldY op))
  | _ => none

/-- Family E, on NN (R102). -/
def decodeFamilyE (op : Word) : Option Instr :=
  match fieldNN op with
  | 0x9E#8 => some (.skp (fieldX op))
  | 0xA1#8 => some (.sknp (fieldX op))
  | _ => none

/-- `FN01`, accepted only for N ≤ 3 (R103, R240). -/
def decodePlane (op : Word) : Option Instr :=
  if (fieldX op).toNat ≤ 3 then some (.plane ((fieldX op).extractLsb' 0 2)) else none

/-- Family F, on NN, and for `F000 NNNN` and `F002` also on X = 0 (R103). `operand` is the second word, used by
`F000 NNNN` alone. -/
def decodeFamilyF (op operand : Word) : Option Instr :=
  match fieldNN op with
  | 0x00#8 => if fieldX op = 0 then some (.ldILong operand) else none
  | 0x01#8 => decodePlane op
  | 0x02#8 => if fieldX op = 0 then some .audio else none
  | 0x07#8 => some (.ldVxDt (fieldX op))
  | 0x0A#8 => some (.ldVxK (fieldX op))
  | 0x15#8 => some (.ldDtVx (fieldX op))
  | 0x18#8 => some (.ldStVx (fieldX op))
  | 0x1E#8 => some (.addI (fieldX op))
  | 0x29#8 => some (.ldF (fieldX op))
  | 0x30#8 => some (.ldHf (fieldX op))
  | 0x33#8 => some (.ldB (fieldX op))
  | 0x3A#8 => some (.pitch (fieldX op))
  | 0x55#8 => some (.storeRegs (fieldX op))
  | 0x65#8 => some (.loadRegs (fieldX op))
  | 0x75#8 => some (.saveRpl (fieldX op))
  | 0x85#8 => some (.loadRpl (fieldX op))
  | _ => none

/-- The one dispatch table of all three modes, on the family nibble (R97–R103, R105), before the gates. -/
def decodeRow (op operand : Word) : Option Instr :=
  match fieldF op with
  | 0x0#4 => decodeFamily0 op
  | 0x1#4 => some (.jp (fieldNNN op))
  | 0x2#4 => some (.call (fieldNNN op))
  | 0x3#4 => some (.seImm (fieldX op) (fieldNN op))
  | 0x4#4 => some (.sneImm (fieldX op) (fieldNN op))
  | 0x5#4 => decodeFamily5 op
  | 0x6#4 => some (.ldImm (fieldX op) (fieldNN op))
  | 0x7#4 => some (.addImm (fieldX op) (fieldNN op))
  | 0x8#4 => decodeFamily8 op
  | 0x9#4 => decodeFamily9 op
  | 0xA#4 => some (.ldI (fieldNNN op))
  | 0xB#4 => some (.jpOffset (fieldNNN op))
  | 0xC#4 => some (.rnd (fieldX op) (fieldNN op))
  | 0xD#4 => some (.drw (fieldX op) (fieldY op) (fieldN op))
  | 0xE#4 => decodeFamilyE op
  | _ => decodeFamilyF op operand

/-- `Decode(op, CFG)`: the row whose pattern the word has, if the configuration accepts it; `none` is InvalidOpcode (R104,
R107). It reads no register and no memory (R108). -/
def decodeWords (c : Config) (op operand : Word) : Option Instr :=
  match decodeRow op operand with
  | some i => if i.accepted c then some i else none
  | none => none

/-- The first word tells the length: 4 bytes for 0xF000 in XOCHIP, else 2 (R92). -/
def isLong (c : Config) (op : Word) : Bool := c.extXo && op == 0xF000

/-- Two bytes as a word, the byte at the lower address in bits 15:8 (R63, R91). -/
def wordOf (hi lo : Byte) : Word := hi ++ lo

/-- What the decoder answers on a byte sequence. -/
inductive DecodeResult where
  /-- An instruction and the bytes after it. -/
  | ok (i : Instr) (rest : List Byte)
  /-- The sequence ends inside the instruction. -/
  | truncated
  /-- No row accepts the word (R104). -/
  | invalidOpcode (op : Word)
  deriving DecidableEq, Repr

/-- Decoding from a byte sequence, total on any bytes. -/
def decode (c : Config) : List Byte → DecodeResult
  | b0 :: b1 :: rest =>
    let op := wordOf b0 b1
    if isLong c op then
      match rest with
      | b2 :: b3 :: rest' =>
        match decodeWords c op (wordOf b2 b3) with
        | some i => .ok i rest'
        | none => .invalidOpcode op
      | _ => .truncated
    else
      match decodeWords c op 0 with
      | some i => .ok i rest
      | none => .invalidOpcode op
  | _ => .truncated

/-- The first word of an instruction, from the encoding column of R97–R103. -/
def Instr.opcode : Instr → Word
  | .cls => 0x00E0
  | .ret => 0x00EE
  | .scd n => 0x00C#12 ++ n
  | .scu n => 0x00D#12 ++ n
  | .scr => 0x00FB
  | .scl => 0x00FC
  | .exit => 0x00FD
  | .low => 0x00FE
  | .high => 0x00FF
  | .jp nnn => 0x1#4 ++ nnn
  | .call nnn => 0x2#4 ++ nnn
  | .seImm x nn => 0x3#4 ++ x ++ nn
  | .sneImm x nn => 0x4#4 ++ x ++ nn
  | .seReg x y => 0x5#4 ++ x ++ y ++ 0x0#4
  | .saveRange x y => 0x5#4 ++ x ++ y ++ 0x2#4
  | .loadRange x y => 0x5#4 ++ x ++ y ++ 0x3#4
  | .ldImm x nn => 0x6#4 ++ x ++ nn
  | .addImm x nn => 0x7#4 ++ x ++ nn
  | .ldReg x y => 0x8#4 ++ x ++ y ++ 0x0#4
  | .orReg x y => 0x8#4 ++ x ++ y ++ 0x1#4
  | .andReg x y => 0x8#4 ++ x ++ y ++ 0x2#4
  | .xorReg x y => 0x8#4 ++ x ++ y ++ 0x3#4
  | .addReg x y => 0x8#4 ++ x ++ y ++ 0x4#4
  | .subReg x y => 0x8#4 ++ x ++ y ++ 0x5#4
  | .shr x y => 0x8#4 ++ x ++ y ++ 0x6#4
  | .subnReg x y => 0x8#4 ++ x ++ y ++ 0x7#4
  | .shl x y => 0x8#4 ++ x ++ y ++ 0xE#4
  | .sneReg x y => 0x9#4 ++ x ++ y ++ 0x0#4
  | .ldI nnn => 0xA#4 ++ nnn
  | .jpOffset nnn => 0xB#4 ++ nnn
  | .rnd x nn => 0xC#4 ++ x ++ nn
  | .drw x y n => 0xD#4 ++ x ++ y ++ n
  | .skp x => 0xE#4 ++ x ++ 0x9E#8
  | .sknp x => 0xE#4 ++ x ++ 0xA1#8
  | .ldILong _ => 0xF000
  | .plane n => 0xF#4 ++ (n.setWidth 4) ++ 0x01#8
  | .audio => 0xF002
  | .ldVxDt x => 0xF#4 ++ x ++ 0x07#8
  | .ldVxK x => 0xF#4 ++ x ++ 0x0A#8
  | .ldDtVx x => 0xF#4 ++ x ++ 0x15#8
  | .ldStVx x => 0xF#4 ++ x ++ 0x18#8
  | .addI x => 0xF#4 ++ x ++ 0x1E#8
  | .ldF x => 0xF#4 ++ x ++ 0x29#8
  | .ldHf x => 0xF#4 ++ x ++ 0x30#8
  | .ldB x => 0xF#4 ++ x ++ 0x33#8
  | .pitch x => 0xF#4 ++ x ++ 0x3A#8
  | .storeRegs x => 0xF#4 ++ x ++ 0x55#8
  | .loadRegs x => 0xF#4 ++ x ++ 0x65#8
  | .saveRpl x => 0xF#4 ++ x ++ 0x75#8
  | .loadRpl x => 0xF#4 ++ x ++ 0x85#8

/-- The second word, which `F000 NNNN` alone has (R92). -/
def Instr.operandWord : Instr → Option Word
  | .ldILong nnnn => some nnnn
  | _ => none

/-- A word as two bytes, high byte first (R63). -/
def bytesOf (w : Word) : List Byte := [w.extractLsb' 8 8, w.extractLsb' 0 8]

/-- The bytes of an instruction, in the order they lie in memory. -/
def Instr.encode (i : Instr) : List Byte :=
  match i.operandWord with
  | some w => bytesOf i.opcode ++ bytesOf w
  | none => bytesOf i.opcode

/-- The length in bytes (R90, R92). -/
def Instr.length (i : Instr) : Nat :=
  match i.operandWord with
  | some _ => 4
  | none => 2

/-- An instruction given as a number the way the opcode table numbers its bits (first word in bits 15:0, second in 31:16),
as the four bytes it takes at ascending addresses. Bits from `nbits` up are 0. -/
def bytesOfTableWord (nbits w : Nat) : List Byte :=
  bytesOf (BitVec.ofNat 16 (w % 2 ^ nbits)) ++ bytesOf (BitVec.ofNat 16 (w % 2 ^ nbits / 2 ^ 16))

/-- What the decoder reads from an instruction given by number, in the configuration that accepts every row of the table
(log 10). -/
def decodeTableWord (nbits w : Nat) : Option Instr :=
  match decode Config.full (bytesOfTableWord nbits w) with
  | .ok i _ => some i
  | .truncated => none
  | .invalidOpcode _ => none

end Sys2Proof
end

