-- ==== Sys2Proof/Machine/State.lean ====
section
/-! DEFINITION. The state of the machine (10_state.md R20–R47, 20_memory.md R60), the reasons a step of the model can stop,
and the state after reset (70_reset_and_hazards.md R290). -/

namespace Sys2Proof.Machine

/-- `RES` (R30). -/
inductive Resolution where
  /-- 64 × 32. -/
  | low
  /-- 128 × 64. -/
  | high
  deriving DecidableEq, Repr

/-- A bitmap plane: 64 rows of 128 pixels, the pixel of column `x` in bit `x` of its row, set = lit (R31). -/
abbrev Plane := Vector (BitVec 128) 64

/-- The name of a plane: plane 1 is `FB[0]`, plane 2 is `FB[1]` (R33). -/
inductive PlaneId where
  | plane1
  | plane2
  deriving DecidableEq, Repr

/-- `FB`, storage for both planes; CHIP8 and SCHIP use plane 1 alone (R31, R35). -/
structure FrameBuffer where
  plane1 : Plane
  plane2 : Plane
  deriving DecidableEq, Repr

/-- `STATUS` (R38). -/
inductive Status where
  /-- Code 0: the next step fetches. -/
  | run
  /-- Code 1: the display-wait stall. -/
  | vblankWait
  /-- Code 2: the blocking key wait. -/
  | keyWait
  /-- Code 3: a halt condition is in force. -/
  | halted
  deriving DecidableEq, Repr

/-- `HALT_REASON`, the codes 0 to 6 of R261. -/
inductive HaltReason where
  /-- Code 0: not halted. -/
  | none
  /-- Code 1. -/
  | invalidOpcode
  /-- Code 2. -/
  | addressOutOfRange
  /-- Code 3. -/
  | stackOverflow
  /-- Code 4. -/
  | stackUnderflow
  /-- Code 5: at load time only, no step raises it (R272). -/
  | romTooLarge
  /-- Code 6. -/
  | exit
  deriving DecidableEq, Repr

/-- `HALT_INFO` (R39, R261). -/
inductive HaltInfo where
  /-- An address, a length, or 0 where nothing is recorded. -/
  | value (n : Nat)
  /-- The invalid word and its address. -/
  | opcode (op a : Word)
  deriving DecidableEq, Repr

/-- Main memory (R60): (address, byte) pairs, addresses rising, no entry equal to what an unlisted address reads as
(`Memory.unlisted`, `Memory.wf` in Ops.lean). -/
abbrev Memory := List Host.Cell

/-- The whole state of the machine. -/
structure State where
  /-- `CFG`, the configuration of the session (R44, R45). -/
  cfg : Config
  /-- `V[0..15]` (R20); index 15 is VF (R21). -/
  v : Vector Byte 16
  /-- `I` (R22). -/
  i : Word
  /-- `PC` (R23). -/
  pc : Word
  /-- `SP`, the number of entries on the stack (R24). -/
  sp : Byte
  /-- `STACK`; the first `cfg.stackDepth` slots exist (R25). -/
  stack : Vector Word 16
  /-- `DT` (R26). -/
  dt : Byte
  /-- `ST` (R27). -/
  st : Byte
  /-- `AUDIO[0..15]` (R28). -/
  audio : Vector Byte 16
  /-- `PITCH` (R29). -/
  pitch : Byte
  /-- `RES` (R30). -/
  res : Resolution
  /-- `FB` (R31). -/
  fb : FrameBuffer
  /-- `PLANE_MASK` (R33): bit 0 selects plane 1, bit 1 plane 2. -/
  planeMask : BitVec 2
  /-- `KEY[0..15]` (R36). -/
  key : Vector Bool 16
  /-- `KW_X` (R37). -/
  kwX : Nibble
  /-- `KW_ARMED` (R37). -/
  kwArmed : BitVec 16
  /-- `KW_LATCH` (R37); `none` is the spec's own "none". -/
  kwLatch : Option Nibble
  /-- `STATUS` (R38). -/
  status : Status
  /-- `HALT_REASON` (R39). -/
  haltReason : HaltReason
  /-- `HALT_INFO` (R39). -/
  haltInfo : HaltInfo
  /-- `FAULT_LOG`, oldest first (R39). -/
  faultLog : List (HaltReason × HaltInfo)
  /-- `RPL[0..15]` (R40); the first `cfg.rplCount` are reachable. -/
  rpl : Vector Byte 16
  /-- `MEM` (R60). -/
  mem : Memory
  /-- The model's own field: how many draws CXNN has taken, so that the next is `Config.rnd rndCount` (R162; log 3). -/
  rndCount : Nat
  deriving DecidableEq, Repr

/-- The reasons for which a step of the MODEL stops. The machine's own faults are halts, which are next states
(60_exceptions.md R262). -/
inductive Fault where
  /-- Raised by CALL and RET when SP is above P_STACK_DEPTH, so that the slot they would use does not exist. No run reaches
  such a state (R24). Safe: the model stops (log 5). -/
  | noSuchStackSlot (sp : Byte)
  deriving DecidableEq, Repr

/-- The reasons for which the model refuses an instruction. -/
inductive Refusal where
  /-- Raised by `exec` for an instruction with no meaning yet. Safe: the model stops. No arm raises it now. -/
  | notModelled (mnemonic : String)
  deriving DecidableEq, Repr

/-- What a step answers. -/
abbrev Result := Host.Outcome State Fault Refusal

/-- An unset plane. -/
def Plane.blank : Plane := Vector.replicate 64 0

/-- The state after reset (R290), for the session of `Config.default` (log 1). Nothing is listed in memory, so every byte
reads as its reset content: the font and zeros (R294, R295; log 4). `rndCount` is the model's own (log 3). -/
def State.reset : State where
  cfg := Config.default
  v := Vector.replicate 16 0x00
  i := 0x0000
  pc := 0x0200
  sp := 0
  stack := Vector.replicate 16 0x0000
  dt := 0
  st := 0
  audio := Config.default.audioInit
  pitch := 64
  res := .low
  fb := { plane1 := Plane.blank, plane2 := Plane.blank }
  planeMask := 1
  key := Vector.replicate 16 false
  kwX := 0
  kwArmed := 0
  kwLatch := none
  status := .run
  haltReason := .none
  haltInfo := .value 0
  faultLog := []
  rpl := Config.default.rplInit
  mem := []
  rndCount := 0

end Sys2Proof.Machine
end

