-- ==== Sys2Proof/Machine/Ops.lean ====
section
/-! DEFINITION. The named operations over memory, registers, the call stack and the program counter, and halt entry with the
return from it (20_memory.md, 10_state.md R20–R25, 40_control_flow.md R121, 60_exceptions.md R261–R270). -/

namespace Sys2Proof.Machine

/-! ### Memory -/

/-- What a byte reads as that nothing has written: the default font at 0x050..0x09F (R68, R294) and 0x00 elsewhere (R295);
log 4. -/
def Memory.unlisted (a : Nat) : Byte :=
  if h : 0x050 ≤ a ∧ a < 0x0A0 then
    (defaultFont[(a - 0x050) / 5]'(by omega))[(a - 0x050) % 5]'(by omega)
  else 0x00

/-- `MEM[a]`, the byte at address `a` (R60). -/
def Memory.read : Memory → Nat → Byte
  | [], a => Memory.unlisted a
  | (k, b) :: m, a => if k = a then b else Memory.read m a

/-- Lists the pair `(a, b)` before the first higher address. -/
def Memory.insert (a : Nat) (b : Byte) : Memory → Memory
  | [] => [(a, b)]
  | (k, c) :: m => if a < k then (a, b) :: (k, c) :: m else (k, c) :: Memory.insert a b m

/-- `MEM[a] <- b` (R60). An entry equal to what an unlisted address reads as is not listed. -/
def Memory.write (m : Memory) (a : Nat) (b : Byte) : Memory :=
  let rest := m.filter fun cell => cell.1 ≠ a
  if b = Memory.unlisted a then rest else Memory.insert a b rest

/-- Stores at ascending addresses, in order (R64, R166). -/
def Memory.writeBytes : Memory → Nat → List Byte → Memory
  | m, _, [] => m
  | m, a, b :: bs => Memory.writeBytes (m.write a b) (a + 1) bs

/-- The bytes at `a`, `a + 1`, …, `a + n - 1` (R166). -/
def Memory.readBytes (m : Memory) : Nat → Nat → List Byte
  | _, 0 => []
  | a, n + 1 => m.read a :: Memory.readBytes m (a + 1) n

/-- The bytes of `bs` concatenated, the first most significant (the order of `MemRead`, R8, R63). -/
def bigEndian (bs : List Byte) : Nat := bs.foldl (fun acc b => acc * 256 + b.toNat) 0

/-- The word at `a` and `a + 1`, big-endian (R63). -/
def Memory.readWord (m : Memory) (a : Nat) : Word := wordOf (m.read a) (m.read (a + 1))

/-- The canonical form: addresses strictly rising, and no entry equal to what an unlisted address reads as. -/
abbrev Memory.wf (m : Memory) : Prop :=
  m.Pairwise (fun p q => p.1 < q.1) ∧ ∀ p ∈ m, p.2 ≠ Memory.unlisted p.1

/-- The bounds check of an access to the `n` bytes from `base` up (R61, R163): the first of them that is not below
`memSize`, if any. Addresses are exact and never wrap. -/
def firstOutOfRange (memSize base n : Nat) : Option Nat :=
  if n = 0 then none
  else if base + n ≤ memSize then none
  else some (max base memSize)

/-! ### Halt entry and the return from a halt -/

/-- Halt entry (R262): the only writes are STATUS, HALT_REASON, HALT_INFO and FAULT_LOG. PC stays where the fetch left it
(R263). -/
def State.raise (reason : HaltReason) (info : HaltInfo) (s : State) : State :=
  { s with
    status := .halted
    haltReason := reason
    haltInfo := info
    faultLog := s.faultLog ++ [(reason, info)] }

/-- `resume()`, the return from a halt (R270): only InvalidOpcode can be resumed, and FAULT_LOG is kept. -/
def State.resume (s : State) : State :=
  if s.status = .halted ∧ s.haltReason = .invalidOpcode then
    { s with status := .run, haltReason := .none, haltInfo := .value 0 }
  else s

/-- Every address an instruction accesses is checked before it writes anything (R66, D11): `t` if the `n` bytes from `base`
up are all in memory, else the halt AddressOutOfRange at the first that is not (R264). -/
def State.guardRange (base n : Nat) (s t : State) : State :=
  match firstOutOfRange s.cfg.memSize base n with
  | some bad => s.raise .addressOutOfRange (.value bad)
  | none => t

/-! ### Registers -/

/-- `V[x]` (R20). -/
def State.getV (s : State) (x : Nibble) : Byte := s.v[x.toNat]'x.isLt

/-- `V[x] <- b` (R20). -/
def State.setV (s : State) (x : Nibble) (b : Byte) : State := { s with v := s.v.set x.toNat b x.isLt }

/-- `V[F] <- 1` or `0` (R21). -/
def State.setFlag (s : State) (f : Bool) : State := s.setV 0xF (if f then 1 else 0)

/-- A result and then the flag, written last (R21, D6). -/
def State.setResultAndFlag (s : State) (x : Nibble) (r : Byte) (f : Bool) : State := (s.setV x r).setFlag f

/-- A result of a logic operation, and then VF ← 0 under `vf_reset` (R143–R145). -/
def State.setLogicResult (s : State) (x : Nibble) (r : Byte) : State :=
  if s.cfg.quirks.vfReset then (s.setV x r).setV 0xF 0 else s.setV x r

/-! ### Program counter and call stack -/

/-- The address `a` of the instruction that executes: PC already holds `a + 2` (R23, R95). -/
def State.instrAddr (s : State) : Word := s.pc - 2

/-- `SKIP()` (R121): 4 bytes over an F000 NNNN in XOCHIP, else 2. The look-ahead cannot fault. -/
def State.skip (s : State) : State :=
  if s.cfg.extXo && decide (s.pc.toNat + 1 < s.cfg.memSize) && s.mem.readWord s.pc.toNat == 0xF000 then
    { s with pc := s.pc + 4 }
  else
    { s with pc := s.pc + 2 }

/-- A conditional skip (R121): when the condition fails PC stays `a + 2`. -/
def State.skipIf (cond : Bool) (s : State) : State := if cond then s.skip else s

/-- Push the return address and transfer (R25, R125), or StackOverflow with nothing pushed (R265). -/
def State.callTo (target : Word) (s : State) : Result :=
  if s.sp.toNat = s.cfg.stackDepth.val then
    .next (s.raise .stackOverflow (.value s.instrAddr.toNat))
  else if h : s.sp.toNat < s.cfg.stackDepth.val then
    .next { s with
      stack := s.stack.set s.sp.toNat s.pc (by have := s.cfg.stackDepth.isLt; omega)
      sp := s.sp + 1
      pc := target }
  else .fault (.noSuchStackSlot s.sp)

/-- Pop the return address into PC (R25, R123), or StackUnderflow (R266). -/
def State.returnToCaller (s : State) : Result :=
  if h0 : s.sp.toNat = 0 then
    .next (s.raise .stackUnderflow (.value s.instrAddr.toNat))
  else if h : s.sp.toNat ≤ s.cfg.stackDepth.val then
    .next { s with
      pc := s.stack[s.sp.toNat - 1]'(by have := s.cfg.stackDepth.isLt; omega)
      sp := s.sp - 1 }
  else .fault (.noSuchStackSlot s.sp)

end Sys2Proof.Machine
end

