-- ==== Sys2Proof/Machine/Operands.lean ====
section
/-! DEFINITION. The operand forms (30_encoding.md R96, 42_memory_ops.md R166): addresses and indices an instruction makes
from its fields and registers, and the register ranges it moves. -/

namespace Sys2Proof.Machine

/-- `zext_16(NNN)` (R96). -/
def addr16 (nnn : Addr12) : Word := nnn.setWidth 16

/-- `zext_16` of a register, for the sums with I and PC (R7, R152). -/
def byte16 (b : Byte) : Word := b.setWidth 16

/-- `VX AND 0x0F` as an index, of a key or of a glyph (R195, R209). -/
def lowNibble (b : Byte) : Nibble := b.setWidth 4

/-- `is_pressed(k)` (R198). -/
def State.isPressed (s : State) (k : Nibble) : Bool := s.key[k.toNat]'k.isLt

/-- The value a shift shifts (R148, R150). -/
def State.shiftSource (s : State) (x y : Nibble) : Byte := if s.cfg.quirks.shiftVy then s.getV y else s.getV x

/-- The offset register of BNNN: VX with X = NNN[11:8] under `jump_vx`, else V0 (R161). -/
def State.jumpOffset (s : State) (nnn : Addr12) : Byte :=
  if s.cfg.quirks.jumpVx then s.getV (nnn.extractLsb' 8 4) else s.getV 0

/-- The address of the digit glyph of VX (R209). -/
def State.glyphAddr (s : State) (x : Nibble) : Word :=
  BitVec.ofNat 16 (s.cfg.fontBase.toNat + 5 * (lowNibble (s.getV x)).toNat)

/-- The address of the large digit glyph of VX (R229). -/
def State.bigGlyphAddr (s : State) (x : Nibble) : Word :=
  BitVec.ofNat 16 (s.cfg.bigFontBase.toNat + 10 * (lowNibble (s.getV x)).toNat)

/-- The three decimal digits of `b`, most significant first (R210). -/
def bcdDigits (b : Byte) : List Byte :=
  [BitVec.ofNat 8 (b.toNat / 100), BitVec.ofNat 8 (b.toNat / 10 % 10), BitVec.ofNat 8 (b.toNat % 10)]

/-- V0 to VX, in order (R164). -/
def State.regsUpTo (s : State) (x : Nibble) : List Byte :=
  (List.range (x.toNat + 1)).map fun k => s.getV (BitVec.ofNat 4 k)

/-- `abs(X - Y) + 1`, the number of registers from VX to VY (R246). -/
def rangeLength (x y : Nibble) : Nat := (if x ≤ y then y.toNat - x.toNat else x.toNat - y.toNat) + 1

/-- The `k`-th register from VX towards VY, ascending or descending (R246). -/
def rangeReg (x y : Nibble) (k : Nat) : Nibble :=
  if x ≤ y then BitVec.ofNat 4 (x.toNat + k) else BitVec.ofNat 4 (x.toNat - k)

/-- VX to VY, in that order (R246). -/
def State.regsBetween (s : State) (x y : Nibble) : List Byte :=
  (List.range (rangeLength x y)).map fun k => s.getV (rangeReg x y k)

/-- Where register `r` stands in the sequence VX to VY, if it is in it (R247). -/
def rangeOffset (x y : Nibble) (r : Nat) : Option Nat :=
  if x.toNat ≤ r ∧ r ≤ y.toNat then some (r - x.toNat)
  else if y.toNat ≤ r ∧ r ≤ x.toNat then some (x.toNat - r)
  else none

/-- The registers after V0 to VX are loaded from memory at `base` up (R165). -/
def State.loadUpTo (s : State) (base : Nat) (x : Nibble) : Vector Byte 16 :=
  Vector.ofFn fun r => if r.val ≤ x.toNat then s.mem.read (base + r.val) else s.v[r]

/-- The registers after VX to VY are loaded, in that order, from memory at `base` up (R247). -/
def State.loadBetween (s : State) (base : Nat) (x y : Nibble) : Vector Byte 16 :=
  Vector.ofFn fun r =>
    match rangeOffset x y r.val with
    | some k => s.mem.read (base + k)
    | none => s.v[r]

/-- `I <- u16(I + X + 1)` under `mem_inc` (R164, R165, D7). -/
def State.incIndex (s : State) (x : Nibble) : State :=
  if s.cfg.quirks.memInc then { s with i := s.i + x.setWidth 16 + 1 } else s

end Sys2Proof.Machine
end

