-- ==== Sys2Proof/Machine/Arith.lean ====
section
/-! DEFINITION. The meanings of the register load and arithmetic family (41_register_arith.md R140–R152). Operands are read before anything is written; a flag is written after the result (D6). -/

namespace Sys2Proof.Machine

/-- LD VX, NN (R140). -/
def execLdImm (x : Nibble) (nn : Byte) (s : State) : Result := .next (s.setV x nn)

/-- ADD VX, NN (R141): mod 256, no flag. -/
def execAddImm (x : Nibble) (nn : Byte) (s : State) : Result := .next (s.setV x (s.getV x + nn))

/-- LD VX, VY (R142). -/
def execLdReg (x y : Nibble) (s : State) : Result := .next (s.setV x (s.getV y))

/-- OR VX, VY (R143). -/
def execOrReg (x y : Nibble) (s : State) : Result := .next (s.setLogicResult x (s.getV x ||| s.getV y))

/-- AND VX, VY (R144). -/
def execAndReg (x y : Nibble) (s : State) : Result := .next (s.setLogicResult x (s.getV x &&& s.getV y))

/-- XOR VX, VY (R145). -/
def execXorReg (x y : Nibble) (s : State) : Result := .next (s.setLogicResult x (s.getV x ^^^ s.getV y))

/-- ADD VX, VY (R146): VF ← carry. -/
def execAddReg (x y : Nibble) (s : State) : Result :=
  .next (s.setResultAndFlag x (s.getV x + s.getV y) (carryOut (s.getV x) (s.getV y)))

/-- SUB VX, VY (R147): VF ← NOT borrow. -/
def execSubReg (x y : Nibble) (s : State) : Result :=
  .next (s.setResultAndFlag x (s.getV x - s.getV y) (notBorrow (s.getV x) (s.getV y)))

/-- SHR VX, VY (R148): VF ← the bit shifted out. -/
def execShr (x y : Nibble) (s : State) : Result :=
  .next (s.setResultAndFlag x (s.shiftSource x y >>> 1) (shiftedOutRight (s.shiftSource x y)))

/-- SUBN VX, VY (R149): VF ← NOT borrow. -/
def execSubnReg (x y : Nibble) (s : State) : Result :=
  .next (s.setResultAndFlag x (s.getV y - s.getV x) (notBorrow (s.getV y) (s.getV x)))

/-- SHL VX, VY (R150): VF ← the bit shifted out. -/
def execShl (x y : Nibble) (s : State) : Result :=
  .next (s.setResultAndFlag x (s.shiftSource x y <<< 1) (shiftedOutLeft (s.shiftSource x y)))

end Sys2Proof.Machine
end

