-- ==== Sys2Proof/Machine/Display.lean ====
section
/-! DEFINITION. The display compositor (43_draw.md R175–R190, 10_state.md R30–R35): pixels, clear, scroll, resolution and the
sprite blit. -/

namespace Sys2Proof.Machine

/-- `W(RES)` (R30). -/
def Resolution.width : Resolution → Nat
  | .low => 64
  | .high => 128

/-- `H(RES)` (R30). -/
def Resolution.height : Resolution → Nat
  | .low => 32
  | .high => 64

/-! ### Pixels -/

/-- The pixel of row `y`, column `x`; what is outside the storage is unset (R31). -/
def Plane.pixel (pl : Plane) (y x : Nat) : Bool := if h : y < 64 then pl[y].getLsbD x else false

/-- One pixel inverted; nothing outside the storage. -/
def Plane.toggle (pl : Plane) (y x : Nat) : Plane :=
  if h : y < 64 then pl.set y (pl[y] ^^^ BitVec.twoPow 128 x) else pl

/-- Plane `p` of the framebuffer. -/
def FrameBuffer.plane (fb : FrameBuffer) : PlaneId → Plane
  | .plane1 => fb.plane1
  | .plane2 => fb.plane2

/-- The framebuffer with plane `p` replaced. -/
def FrameBuffer.setPlane (fb : FrameBuffer) (p : PlaneId) (pl : Plane) : FrameBuffer :=
  match p with
  | .plane1 => { fb with plane1 := pl }
  | .plane2 => { fb with plane2 := pl }

/-- `FB[p][y][x]` (R31). -/
def FrameBuffer.pixel (fb : FrameBuffer) (p : PlaneId) (y x : Nat) : Bool := (fb.plane p).pixel y x

/-- `FB[p][y][x] <- not FB[p][y][x]` (R176). -/
def FrameBuffer.toggle (fb : FrameBuffer) (p : PlaneId) (y x : Nat) : FrameBuffer :=
  fb.setPlane p ((fb.plane p).toggle y x)

/-- Every pixel of every plane unset (R187). -/
def FrameBuffer.blank : FrameBuffer := { plane1 := Plane.blank, plane2 := Plane.blank }

/-- The selected planes, ascending (R35): those the mode has and PLANE_MASK selects. -/
def State.selectedPlanes (s : State) : List PlaneId :=
  (if s.planeMask.getLsbD 0 then [.plane1] else []) ++
    (if decide (1 < s.cfg.planes) && s.planeMask.getLsbD 1 then [.plane2] else [])

/-! ### Clear, scroll, resolution -/

/-- The columns 0 to `w - 1` of a row. -/
def columns (w : Nat) : BitVec 128 := BitVec.ofNat 128 (2 ^ w - 1)

/-- Columns below `w` from `new`, the others from `old`. -/
def mergeColumns (w : Nat) (new old : BitVec 128) : BitVec 128 := (new &&& columns w) ||| (old &&& ~~~columns w)

/-- Row `y` of a plane, unset outside the storage. -/
def Plane.row (pl : Plane) (y : Nat) : BitVec 128 := if h : y < 64 then pl[y] else 0

/-- Every pixel of the active region `w × h` unset (R120). -/
def Plane.clear (w h : Nat) (pl : Plane) : Plane :=
  Vector.ofFn fun y => if y.val < h then mergeColumns w 0 pl[y] else pl[y]

/-- The direction of a scroll (R189). -/
inductive Direction where
  | down
  | up
  | right
  | left
  deriving DecidableEq, Repr

/-- The row that row `y` of the active region `w × h` becomes when it is scrolled by `n` (R189): a pixel takes the pixel `n`
away against the direction, and is unset where that lies outside the region. -/
def Plane.scrolledRow (w h : Nat) (dir : Direction) (n : Nat) (pl : Plane) (y : Nat) : BitVec 128 :=
  match dir with
  | .down => if n ≤ y then pl.row (y - n) else 0
  | .up => if y + n < h then pl.row (y + n) else 0
  | .right => pl.row y <<< n
  | .left => (pl.row y &&& columns w) >>> n

/-- `scroll(dir, n)` on one plane (R189). -/
def Plane.scroll (w h : Nat) (dir : Direction) (n : Nat) (pl : Plane) : Plane :=
  Vector.ofFn fun y => if y.val < h then mergeColumns w (pl.scrolledRow w h dir n y.val) pl[y] else pl[y]

/-- A change of each plane of a list. -/
def FrameBuffer.mapPlanes (f : Plane → Plane) : List PlaneId → FrameBuffer → FrameBuffer
  | [], fb => fb
  | p :: ps, fb => FrameBuffer.mapPlanes f ps (fb.setPlane p (f (fb.plane p)))

/-- Clear the selected planes (R120). -/
def State.clearScreen (s : State) : State :=
  { s with fb := s.fb.mapPlanes (Plane.clear s.res.width s.res.height) s.selectedPlanes }

/-- `scroll(dir, n)` on the selected planes (R189). -/
def State.scroll (dir : Direction) (n : Nat) (s : State) : State :=
  { s with fb := s.fb.mapPlanes (Plane.scroll s.res.width s.res.height dir n) s.selectedPlanes }

/-- `set_resolution(r)` (R187): every plane is cleared, whatever PLANE_MASK holds. -/
def State.setResolution (r : Resolution) (s : State) : State := { s with res := r, fb := FrameBuffer.blank }

/-! ### The blit -/

/-- The width and height of a sprite (R179): 8 × N, and for N = 0 16 × 16 where SuperChip is, no rows in CHIP8. -/
def spriteSize (c : Config) (n : Nibble) : Nat × Nat :=
  if n = 0 then (if c.extSchip then (16, 16) else (8, 0)) else (8, n.toNat)

/-- Bytes per sprite row: 1 or 2 (R176). -/
def bytesPerRow (c : Config) (n : Nibble) : Nat := (spriteSize c n).1 / 8

/-- Bytes per plane (R176, R180). -/
def spriteBytes (c : Config) (n : Nibble) : Nat := (spriteSize c n).2 * bytesPerRow c n

/-- The start coordinate as the blit uses it: reduced to the screen first only under clip with `P_CLIP_START_WRAP`
(R176, D16). -/
def startCoord (c : Config) (size v : Nat) : Nat := if c.quirks.clip && c.clipStartWrap then v % size else v

/-- Where a sprite bit lands on one axis (R176): beyond the edge it is dropped under clip and wraps otherwise. -/
def landing (c : Config) (size pos : Nat) : Option Nat :=
  if c.quirks.clip then (if pos < size then some pos else none) else some (pos % size)

/-- A pixel of the framebuffer. -/
structure PixelRef where
  plane : PlaneId
  y : Nat
  x : Nat
  deriving DecidableEq, Repr

/-- The pixel that a sprite bit at column `px`, row `py` of the unbounded screen lands on. -/
def landingPixel (c : Config) (r : Resolution) (p : PlaneId) (px py : Nat) : Option PixelRef :=
  match landing c r.width px, landing c r.height py with
  | some x, some y => some { plane := p, y := y, x := x }
  | _, _ => none

/-- The pixels one sprite row toggles on plane `p`, left to right (R176): `base` is the address of the row, bit `w - 1` of
the row is its leftmost pixel, and a 0 bit leaves its pixel unchanged. -/
def State.rowPixels (s : State) (x0 y0 : Nat) (n : Nibble) (p : PlaneId) (base r : Nat) : List PixelRef :=
  (List.range (spriteSize s.cfg n).1).filterMap fun c =>
    if (bigEndian (s.mem.readBytes base (bytesPerRow s.cfg n))).testBit ((spriteSize s.cfg n).1 - 1 - c) then
      landingPixel s.cfg s.res p (x0 + c) (y0 + r)
    else none

/-- The pixels a sprite block at `base` toggles on plane `p`, row by row (R176). -/
def State.blockPixels (s : State) (x0 y0 : Nat) (n : Nibble) (p : PlaneId) (base : Nat) : List PixelRef :=
  (List.range (spriteSize s.cfg n).2).flatMap fun r =>
    s.rowPixels x0 y0 n p (base + r * bytesPerRow s.cfg n) r

/-- The pixels the blocks of a list of planes toggle, the first block at `base` (R180). -/
def State.planesPixels (s : State) (x0 y0 : Nat) (n : Nibble) : List PlaneId → Nat → List PixelRef
  | [], _ => []
  | p :: ps, base =>
    s.blockPixels x0 y0 n p base ++ State.planesPixels s x0 y0 n ps (base + spriteBytes s.cfg n)

/-- The pixels `DRAW(X, Y, N)` toggles, in the order of R176. -/
def State.spritePixels (s : State) (x y n : Nibble) : List PixelRef :=
  s.planesPixels (startCoord s.cfg s.res.width (s.getV x).toNat)
    (startCoord s.cfg s.res.height (s.getV y).toNat) n s.selectedPlanes s.i.toNat

/-- Toggle each pixel of a list in turn; `hit` becomes true when one that was lit turns off (R176). -/
def FrameBuffer.toggleAll : List PixelRef → FrameBuffer → Bool → FrameBuffer × Bool
  | [], fb, hit => (fb, hit)
  | q :: qs, fb, hit =>
    FrameBuffer.toggleAll qs (fb.toggle q.plane q.y q.x) (hit || fb.pixel q.plane q.y q.x)

/-- The number of bytes a draw reads (R181). -/
def State.spriteTotal (s : State) (n : Nibble) : Nat := s.selectedPlanes.length * spriteBytes s.cfg n

/-- The display wait a draw ends with under `disp_wait` (R178). -/
def State.displayWait (s : State) : State :=
  if s.cfg.quirks.dispWait then { s with status := .vblankWait } else s

/-- The blit, then VF ← collision, then the display wait (R175–R178), once the sprite bytes are in memory. -/
def State.blit (s : State) (x y n : Nibble) : State :=
  let drawn := FrameBuffer.toggleAll (s.spritePixels x y n) s.fb false
  (({ s with fb := drawn.1 } : State).setFlag drawn.2).displayWait

/-- `FB` restricted to the active region, with RES: the read-only snapshot of the host renderer (R34, R190), one list of
rows per plane the mode has. -/
def State.snapshot (s : State) : Resolution × List (List (List Bool)) :=
  let rows (p : PlaneId) := (List.range s.res.height).map fun y =>
    (List.range s.res.width).map fun x => s.fb.pixel p y x
  (s.res, if s.cfg.planes = 1 then [rows .plane1] else [rows .plane1, rows .plane2])

end Sys2Proof.Machine
end

