-- ==== Sys2Proof/Machine/Control.lean ====
section
/-! DEFINITION. The meanings of the control-flow family (40_control_flow.md R120–R129). On entry PC holds the address after the word. -/

namespace Sys2Proof.Machine

/-- CLS (R120): clears the selected planes; VF and RES are unchanged. -/
def execCls (s : State) : Result := .next s.clearScreen

/-- RET (R123). -/
def execRet (s : State) : Result := s.returnToCaller

/-- JP NNN (R124). -/
def execJp (nnn : Addr12) (s : State) : Result := .next { s with pc := addr16 nnn }

/-- CALL NNN (R125). -/
def execCall (nnn : Addr12) (s : State) : Result := s.callTo (addr16 nnn)

/-- SE VX, NN (R126). -/
def execSeImm (x : Nibble) (nn : Byte) (s : State) : Result := .next (s.skipIf (s.getV x == nn))

/-- SNE VX, NN (R127). -/
def execSneImm (x : Nibble) (nn : Byte) (s : State) : Result := .next (s.skipIf (s.getV x != nn))

/-- SE VX, VY (R128). -/
def execSeReg (x y : Nibble) (s : State) : Result := .next (s.skipIf (s.getV x == s.getV y))

/-- SNE VX, VY (R129). -/
def execSneReg (x y : Nibble) (s : State) : Result := .next (s.skipIf (s.getV x != s.getV y))

end Sys2Proof.Machine
end

