-- ==== Sys2Proof/Machine/Draw.lean ====
section
/-! DEFINITION. The meaning of the draw opcode (43_draw.md R175–R182). -/

namespace Sys2Proof.Machine

/-- DRW VX, VY, N (R175): the sprite bytes are checked before any pixel or VF changes (R181). -/
def execDrw (x y n : Nibble) (s : State) : Result :=
  .next (s.guardRange s.i.toNat (s.spriteTotal n) (s.blit x y n))

end Sys2Proof.Machine
end

