-- ==== Sys2Proof/Machine/Keypad.lean ====
section
/-! DEFINITION. The meanings of the keypad family, and the step taken during the key wait (44_keypad.md R195–R204). -/

namespace Sys2Proof.Machine

/-- SKP VX (R196). -/
def execSkp (x : Nibble) (s : State) : Result := .next (s.skipIf (s.isPressed (lowNibble (s.getV x))))

/-- SKNP VX (R197). -/
def execSknp (x : Nibble) (s : State) : Result := .next (s.skipIf (!s.isPressed (lowNibble (s.getV x))))

/-- LD VX, K (R202): the wait begins, with PC back at the FX0A address. -/
def execLdVxK (x : Nibble) (s : State) : Result :=
  .next { s with kwX := x, kwArmed := 0, kwLatch := none, pc := s.instrAddr, status := .keyWait }

/-- `step()` while STATUS = KEY_WAIT (R200): with a latched key the wait completes, without one nothing changes. -/
def State.keyWaitStep (s : State) : State :=
  match s.kwLatch with
  | some k =>
    { s.setV s.kwX (k.setWidth 8) with
      pc := s.pc + 2
      kwLatch := none
      kwArmed := 0
      status := .run }
  | none => s

end Sys2Proof.Machine
end

