-- ==== Sys2Proof/Machine/MemoryOps.lean ====
section
/-! DEFINITION. The meanings of the memory-operation family (42_memory_ops.md R160–R166). -/

namespace Sys2Proof.Machine

/-- LD I, NNN (R160). -/
def execLdI (nnn : Addr12) (s : State) : Result := .next { s with i := addr16 nnn }

/-- JP V0, NNN, or JP VX, XNN under `jump_vx` (R161): the sum is taken mod 2^16, not masked to 12 bits. -/
def execJpOffset (nnn : Addr12) (s : State) : Result :=
  .next { s with pc := addr16 nnn + byte16 (s.jumpOffset nnn) }

/-- RND VX, NN (R162): each execution takes a fresh draw. -/
def execRnd (x : Nibble) (nn : Byte) (s : State) : Result :=
  .next (({ s with rndCount := s.rndCount + 1 } : State).setV x (Config.rnd s.rndCount &&& nn))

/-- LD [I], VX (R163, R164). -/
def execStoreRegs (x : Nibble) (s : State) : Result :=
  .next (s.guardRange s.i.toNat (x.toNat + 1)
    (({ s with mem := s.mem.writeBytes s.i.toNat (s.regsUpTo x) } : State).incIndex x))

/-- LD VX, [I] (R163, R165). -/
def execLoadRegs (x : Nibble) (s : State) : Result :=
  .next (s.guardRange s.i.toNat (x.toNat + 1)
    (({ s with v := s.loadUpTo s.i.toNat x } : State).incIndex x))

end Sys2Proof.Machine
end

