-- ==== Sys2Proof/Machine/SuperChip.lean ====
section
/-! DEFINITION. The meanings of the SuperChip additions (46_superchip.md R220–R230). Their gates stand in decoding. -/

namespace Sys2Proof.Machine

/-- SCD N (R221). -/
def execScd (n : Nibble) (s : State) : Result := .next (s.scroll .down n.toNat)

/-- LOW (R222). -/
def execLow (s : State) : Result := .next (s.setResolution .low)

/-- HIGH (R223). -/
def execHigh (s : State) : Result := .next (s.setResolution .high)

/-- LD R, VX (R224): V0 to VX into the snapshot. -/
def execSaveRpl (x : Nibble) (s : State) : Result :=
  .next { s with rpl := Vector.ofFn fun k => if k.val ≤ x.toNat then s.v[k] else s.rpl[k] }

/-- LD VX, R (R225): V0 to VX from the snapshot. -/
def execLoadRpl (x : Nibble) (s : State) : Result :=
  .next { s with v := Vector.ofFn fun k => if k.val ≤ x.toNat then s.rpl[k] else s.v[k] }

/-- LD HF, VX (R229). -/
def execLdHf (x : Nibble) (s : State) : Result := .next { s with i := s.bigGlyphAddr x }

/-- EXIT (R230): the one halt that is not a fault. -/
def execExit (s : State) : Result := .next (s.raise .exit (.value s.instrAddr.toNat))

end Sys2Proof.Machine
end

