-- ==== Sys2Proof/Machine/Timer.lean ====
section
/-! DEFINITION. The meanings of the timer, index-add, glyph and BCD family (45_timer_index_bcd.md R205–R210). -/

namespace Sys2Proof.Machine

/-- LD VX, DT (R205). -/
def execLdVxDt (x : Nibble) (s : State) : Result := .next (s.setV x s.dt)

/-- LD DT, VX (R206). -/
def execLdDtVx (x : Nibble) (s : State) : Result := .next { s with dt := s.getV x }

/-- LD ST, VX (R207). -/
def execLdStVx (x : Nibble) (s : State) : Result := .next { s with st := s.getV x }

/-- ADD I, VX (R208): mod 2^16, VF is not written. -/
def execAddI (x : Nibble) (s : State) : Result := .next { s with i := s.i + byte16 (s.getV x) }

/-- LD F, VX (R209). -/
def execLdF (x : Nibble) (s : State) : Result := .next { s with i := s.glyphAddr x }

/-- LD B, VX (R210): the three digits at I, I + 1, I + 2; I is unchanged. -/
def execLdB (x : Nibble) (s : State) : Result :=
  .next (s.guardRange s.i.toNat 3 { s with mem := s.mem.writeBytes s.i.toNat (bcdDigits (s.getV x)) })

end Sys2Proof.Machine
end

