-- ==== Sys2Proof/Machine/XoChip.lean ====
section
/-! DEFINITION. The meanings of the XO-Chip additions (47_xochip.md R240–R248). Their gates stand in decoding. -/

namespace Sys2Proof.Machine

/-- PLANE N (R240). -/
def execPlane (n : BitVec 2) (s : State) : Result := .next { s with planeMask := n }

/-- SCR (R241). -/
def execScr (s : State) : Result := .next (s.scroll .right 4)

/-- SCL (R242). -/
def execScl (s : State) : Result := .next (s.scroll .left 4)

/-- LD I, long NNNN (R243): the fetch has read the second word and moved PC past it (Fetch.lean). -/
def execLdILong (nnnn : Word) (s : State) : Result := .next { s with i := nnnn }

/-- AUDIO (R244): 16 bytes from I; I is unchanged. -/
def execAudio (s : State) : Result :=
  .next (s.guardRange s.i.toNat 16
    { s with audio := Vector.ofFn fun k => s.mem.read (s.i.toNat + k.val) })

/-- PITCH VX (R245). -/
def execPitch (x : Nibble) (s : State) : Result := .next { s with pitch := s.getV x }

/-- SAVE VX - VY (R246): VX first, ascending or descending; I is unchanged. -/
def execSaveRange (x y : Nibble) (s : State) : Result :=
  .next (s.guardRange s.i.toNat (rangeLength x y)
    { s with mem := s.mem.writeBytes s.i.toNat (s.regsBetween x y) })

/-- LOAD VX - VY (R247): VX first, ascending or descending; I is unchanged. -/
def execLoadRange (x y : Nibble) (s : State) : Result :=
  .next (s.guardRange s.i.toNat (rangeLength x y) { s with v := s.loadBetween s.i.toNat x y })

/-- SCU N (R248). -/
def execScu (n : Nibble) (s : State) : Result := .next (s.scroll .up n.toNat)

end Sys2Proof.Machine
end

