-- ==== Sys2Proof/Machine/Fetch.lean ====
section
/-! DEFINITION. Fetch and decode, the part of `step()` before the instruction executes (30_encoding.md R95, 20_memory.md
R62), and the loading of one instruction where the next fetch finds it. -/

namespace Sys2Proof.Machine

/-- What the fetch answers. -/
inductive Fetched where
  /-- The fetch or the decoding raised a halt. -/
  | halt (s : State)
  /-- The decoded instruction, and the state it executes in, with PC past its words. -/
  | run (i : Instr) (s : State)
  deriving DecidableEq, Repr

/-- Decode the words of the instruction at `a`; none means InvalidOpcode (R95, R104). `s` already has PC past the word. -/
def State.dispatch (a op operand : Word) (s : State) : Fetched :=
  match decodeWords s.cfg op operand with
  | some i => .run i s
  | none => .halt (s.raise .invalidOpcode (.opcode op a))

/-- Fetch, PC advance and decode (R95), in the order of R268: the opcode bytes, the decoding, the second word. -/
def State.fetch (s : State) : Fetched :=
  let a := s.pc
  match firstOutOfRange s.cfg.memSize a.toNat 2 with
  | some bad => .halt (s.raise .addressOutOfRange (.value bad))
  | none =>
    let op := s.mem.readWord a.toNat
    let s2 := { s with pc := a + 2 }
    if isLong s.cfg op then
      match firstOutOfRange s.cfg.memSize (a.toNat + 2) 2 with
      | some bad => .halt (s2.raise .addressOutOfRange (.value bad))
      | none => State.dispatch a op (s.mem.readWord (a.toNat + 2)) { s with pc := a + 4 }
    else State.dispatch a op 0 s2

/-- A configuration in which the instruction given by number is accepted: `c` itself if it is one, else the one that accepts
every row. The host chooses MODE and P_EXTRAS at initialization (R5, R293); log 10. -/
def configFor (c : Config) (nbits w : Nat) : Config :=
  match decodeTableWord nbits w with
  | some i => if i.accepted c then c else Config.full
  | none => c

/-- The bytes stored from `a` up, those below `memSize` alone. -/
def Memory.place (memSize : Nat) : Memory → Nat → List Byte → Memory
  | m, _, [] => m
  | m, a, b :: bs => Memory.place memSize (if a < memSize then m.write a b else m) (a + 1) bs

/-- The instruction given by number stored at PC, in a running session whose configuration accepts it. -/
def State.placeInstr (s : State) (nbits w : Nat) : State :=
  { s with
    cfg := configFor s.cfg nbits w
    status := .run
    mem := s.mem.place (configFor s.cfg nbits w).memSize s.pc.toNat (bytesOfTableWord nbits w) }

end Sys2Proof.Machine
end

