-- ==== Sys2Proof/Machine/HostEvents.lean ====
section
/-! DEFINITION. What the host does to the core between steps (00_scope.md R9, R10; 70_reset_and_hazards.md R290–R298): the
start of a session, the ROM load, and the events `tick`, `refresh`, `set_key_state` and `resume` (the last is in Ops.lean). -/

namespace Sys2Proof.Machine

/-- Memory at the start of a session (R294, R295): zero but for the font, and the large font under `P_EXTRAS`, which is written
second (log 14). -/
def initialMemory (c : Config) : Memory :=
  let zeroed := Memory.writeBytes [] 0x050 (List.replicate 80 0x00)
  let small := zeroed.writeBytes c.fontBase.toNat (c.font.toList.flatMap Vector.toList)
  if c.extras then small.writeBytes c.bigFontBase.toNat (c.bigFont.toList.flatMap Vector.toList) else small

/-- The state at the start of a session of configuration `c`, at initialization and after an explicit reset (R290, R291). -/
def State.initial (c : Config) : State where
  cfg := c
  v := Vector.replicate 16 0x00
  i := 0x0000
  pc := 0x0200
  sp := 0
  stack := Vector.replicate 16 0x0000
  dt := 0
  st := 0
  audio := c.audioInit
  pitch := 64
  res := .low
  fb := FrameBuffer.blank
  planeMask := 1
  key := Vector.replicate 16 false
  kwX := 0
  kwArmed := 0
  kwLatch := none
  status := .run
  haltReason := .none
  haltInfo := .value 0
  faultLog := []
  rpl := c.rplInit
  mem := initialMemory c
  rndCount := 0

/-- What `load_program` answers (R292). -/
inductive LoadResult where
  /-- The ROM lies at 0x200. -/
  | loaded (s : State)
  /-- RomTooLarge with the ROM's length: the session never begins (R272). -/
  | romTooLarge (length : Nat)
  deriving DecidableEq, Repr

/-- `load_program(bytes)` (R292), before the first step. -/
def State.loadProgram (rom : List Byte) (s : State) : LoadResult :=
  if rom.length > s.cfg.memSize - 0x200 then .romTooLarge rom.length
  else .loaded { s with mem := s.mem.writeBytes 0x200 rom }

/-- One timer after a tick (R216): it never goes below 0. -/
def decTimer (t : Byte) : Byte := if t = 0 then 0 else t - 1

/-- `tick()` (R216), in every STATUS. -/
def State.tick (s : State) : State := { s with dt := decTimer s.dt, st := decTimer s.st }

/-- `sound_active`, `is_sound_active()` (R27, R217). -/
def State.soundActive (s : State) : Bool := decide (0 < s.st.toNat)

/-- `refresh()`, the display refresh boundary (R298). -/
def State.refresh (s : State) : State := if s.status = .vblankWait then { s with status := .run } else s

/-- The key-wait state after an event of key `k` (R203): a press during the wait arms the key, the release of an armed key
latches it, and nothing more happens once a key is latched. -/
def State.noteKey (k : Nibble) (pressed : Bool) (s : State) : State :=
  if s.status = .keyWait ∧ s.kwLatch = none then
    if pressed then { s with kwArmed := s.kwArmed ||| BitVec.twoPow 16 k.toNat }
    else if s.kwArmed.getLsbD k.toNat then { s with kwLatch := some k }
    else s
  else s

/-- `set_key_state(k, pressed)` (R203). A 4-bit index is all the host can send (D38). -/
def State.setKeyState (k : Nibble) (pressed : Bool) (s : State) : State :=
  State.noteKey k pressed { s with key := s.key.set k.toNat pressed k.isLt }

/-- A host event (R9, R296). -/
inductive HostEvent where
  | tick
  | refresh
  | setKeyState (k : Nibble) (pressed : Bool)
  | resume
  deriving DecidableEq, Repr

/-- The state after a host event, applied between two steps (R296). -/
def State.applyEvent (s : State) : HostEvent → State
  | .tick => s.tick
  | .refresh => s.refresh
  | .setKeyState k pressed => s.setKeyState k pressed
  | .resume => s.resume

/-- What `step()` returns to the host (R10). -/
inductive StepResult where
  /-- `Continue`: an instruction completed. -/
  | continued
  /-- `DisplayWait`. -/
  | displayWait
  /-- `KeyWait`. -/
  | keyWait
  /-- `Halt(reason)`. -/
  | halt (reason : HaltReason)
  deriving DecidableEq, Repr

/-- The result `step()` returns, read from the state it leaves (R10, R95, R178, R200, R202, R262, R271). -/
def State.stepResult (s : State) : StepResult :=
  match s.status with
  | .run => .continued
  | .vblankWait => .displayWait
  | .keyWait => .keyWait
  | .halted => .halt s.haltReason

end Sys2Proof.Machine
end

