-- ==== Sys2Proof/Machine/Step.lean ====
section
/-! DEFINITION. One `step()` (30_encoding.md R95; 43_draw.md R178; 44_keypad.md R200; 60_exceptions.md R271), the placing of
one instruction for the next fetch, and a run: steps and host events in any order (70_reset_and_hazards.md R296). -/

namespace Sys2Proof.Machine

/-- One `step()`. RUN fetches and executes; VBLANK_WAIT and HALTED change nothing; KEY_WAIT polls the latch. -/
def step (s : State) : Host.Outcome State Fault Refusal :=
  match s.status with
  | .run =>
    match s.fetch with
    | .halt t => .next t
    | .run i t => exec i t
  | .vblankWait => .next s
  | .keyWait => .next s.keyWaitStep
  | .halted => .next s

/-- `s` with the instruction of number `w` where the next step fetches (log 10). -/
def State.withFetchWord (s : State) (nbits w : Nat) : State := s.placeInstr nbits w

/-- An atomic transition of a run: a step, or a host event between two steps (R296). -/
inductive Transition where
  | step
  | event (e : HostEvent)
  deriving DecidableEq, Repr

/-- One transition. -/
def transition (s : State) : Transition → Result
  | .step => step s
  | .event e => .next (s.applyEvent e)

/-- A run: transitions in order, stopping where the model stops. -/
def runTransitions : List Transition → State → Result
  | [], s => .next s
  | t :: ts, s =>
    match transition s t with
    | .next s' => runTransitions ts s'
    | .fault r => .fault r
    | .refused r => .refused r

end Sys2Proof.Machine
end

