-- ==== Sys2Proof/Safety.lean ====
section
/-! DEFINITION. What counts as a legal state of the machine, which instructions can raise a halt, and what a claim about a run
without faults speaks of. -/

namespace Sys2Proof

/-- The instructions whose rule can raise a halt once they execute (R261): the stack check, the address check, and EXIT. -/
def Instr.CanHalt (i : Instr) : Prop :=
  i = .ret ∨ i = .exit ∨ i = .audio ∨ (∃ nnn, i = .call nnn) ∨
    (∃ x, i = .storeRegs x ∨ i = .loadRegs x ∨ i = .ldB x) ∨
    (∃ x y, i = .saveRange x y ∨ i = .loadRange x y) ∨ ∃ x y n, i = .drw x y n

end Sys2Proof

namespace Sys2Proof.Machine

/-- Every pixel outside the region `w × h` is unset (R31, R188). -/
abbrev Plane.Inside (w h : Nat) (pl : Plane) : Prop :=
  ∀ y : Fin 64, (h ≤ y.val → pl[y] = 0) ∧ pl[y] &&& ~~~columns w = 0

/-- The memory is in canonical form and lists no address outside the memory of the mode (R60). -/
abbrev State.MemInv (s : State) : Prop := s.mem.wf ∧ ∀ p ∈ s.mem, p.1 < s.cfg.memSize

/-- SP counts the entries of a stack of at most P_STACK_DEPTH (R24). -/
abbrev State.StackInv (s : State) : Prop := s.sp.toNat ≤ s.cfg.stackDepth.val

/-- RES, PLANE_MASK and FB as the mode allows: no high resolution in CHIP8 (R30), PLANE_MASK 1 and plane 2 unset where there
is one plane (R33, R35), and nothing lit outside the active region (R31, R188). -/
abbrev State.DisplayInv (s : State) : Prop :=
  (s.cfg.hiresOk = false → s.res = .low) ∧
  (s.cfg.planes = 1 → s.planeMask = 1 ∧ s.fb.plane2 = Plane.blank) ∧
  s.fb.plane1.Inside s.res.width s.res.height ∧ s.fb.plane2.Inside s.res.width s.res.height

/-- HALT_REASON and HALT_INFO are 0 exactly while the engine is not halted (R39), and the halt in force is the last entry of
FAULT_LOG (R262). -/
abbrev State.HaltInv (s : State) : Prop :=
  (s.status = .halted ↔ s.haltReason ≠ .none) ∧
  (s.status ≠ .halted → s.haltInfo = .value 0) ∧
  (s.status = .halted → s.faultLog.getLast? = some (s.haltReason, s.haltInfo))

/-- The waits: the key-wait state is clear outside KEY_WAIT, only an armed key is latched (R200, R202, R203), and the
display-wait stall is in force only under `disp_wait` (R178). -/
abbrev State.WaitInv (s : State) : Prop :=
  (s.status ≠ .keyWait → s.kwArmed = 0 ∧ s.kwLatch = none) ∧
  (∀ k, s.kwLatch = some k → s.kwArmed.getLsbD k.toNat = true) ∧
  (s.status = .vblankWait → s.cfg.quirks.dispWait = true)

/-- The audio state keeps its reset value outside XOCHIP, and the snapshot outside SCHIP and XOCHIP (R28, R40, U1). -/
abbrev State.GatedInv (s : State) : Prop :=
  (s.cfg.extXo = false → s.audio = s.cfg.audioInit ∧ s.pitch = 64) ∧
  (s.cfg.extSchip = false → s.rpl = s.cfg.rplInit)

/-- A legal state: the invariant that holds at the start of every session and that every step and every host event keeps. -/
abbrev State.Inv (s : State) : Prop :=
  s.cfg.Ok ∧ s.MemInv ∧ s.StackInv ∧ s.DisplayInv ∧ s.HaltInv ∧ s.WaitInv ∧ s.GatedInv

/-! ### The terms claims about the display use, written from 43_draw.md apart from the model's own blit -/

/-- PLANE_MASK selects plane `p`, and the mode has it (R35). -/
def State.selects (s : State) (p : PlaneId) : Bool :=
  match p with
  | .plane1 => s.planeMask.getLsbD 0
  | .plane2 => s.cfg.mode == .xochip && s.planeMask.getLsbD 1

/-- The width of a sprite in pixels (R179). -/
def spriteWidth (c : Config) (n : Nibble) : Nat := if n = 0 ∧ c.mode ≠ .chip8 then 16 else 8

/-- The height of a sprite in rows (R179): N rows, and for N = 0 16, or none in CHIP8. -/
def spriteHeight (c : Config) (n : Nibble) : Nat := if n = 0 ∧ c.mode ≠ .chip8 then 16 else n.toNat

/-- The number of bytes of sprite data per plane (R176, R179). -/
def spriteBlock (c : Config) (n : Nibble) : Nat := spriteHeight c n * (spriteWidth c n / 8)

/-- The number of bytes a draw reads, one block per selected plane (R180, R181). -/
def spriteData (s : State) (n : Nibble) : Nat :=
  ((if s.selects .plane1 then 1 else 0) + (if s.selects .plane2 then 1 else 0)) * spriteBlock s.cfg n

/-- Where the sprite data of plane `p` begins (R180): at I, but after plane 1's block where both planes are selected. -/
def spriteBase (s : State) (n : Nibble) (p : PlaneId) : Nat :=
  s.i.toNat + (if p = .plane2 ∧ s.selects .plane1 = true then spriteBlock s.cfg n else 0)

/-- The sprite has a 1 at row `r`, column `c` on plane `p` (R176): one or two bytes a row, left byte first, the leftmost
pixel in the top bit. -/
def spriteHas (s : State) (n : Nibble) (p : PlaneId) (r c : Nat) : Bool :=
  (s.mem.read (spriteBase s n p + r * (spriteWidth s.cfg n / 8) + c / 8)).getLsbD (7 - c % 8)

/-- What is `k` pixels past the start coordinate `v` on an axis of `size` pixels is the screen coordinate `pos` (R176). -/
abbrev LandsOn (c : Config) (size v k pos : Nat) : Prop :=
  if c.quirks.clip = true then (if c.clipStartWrap = true then v % size else v) + k = pos
  else (v + k) % size = pos

/-- A 1 bit of the sprite lands on the pixel of plane `p`, row `py`, column `px` of the active region (R176). -/
def SpriteCovers (s : State) (x y n : Nibble) (p : PlaneId) (py px : Nat) : Prop :=
  s.selects p = true ∧ py < s.res.height ∧ px < s.res.width ∧
    ∃ r < spriteHeight s.cfg n, ∃ c < spriteWidth s.cfg n, spriteHas s n p r c = true ∧
      LandsOn s.cfg s.res.height (s.getV y).toNat r py ∧ LandsOn s.cfg s.res.width (s.getV x).toNat c px

/-- The sprite bytes of a draw are all in memory, or it reads none (R181). -/
abbrev SpriteFits (s : State) (n : Nibble) : Prop :=
  spriteData s n = 0 ∨ s.i.toNat + spriteData s n ≤ s.cfg.memSize

/-- No halt has been taken in the session: the premise D30 asks of a claim that a run is free of faults. -/
abbrev State.NoFault (s : State) : Prop := s.faultLog = []

end Sys2Proof.Machine
end

