-- ==== Sys2Proof/Certificates/Slice0/Obligations.lean ====
section
/-! DEFINITION. The statements about the machine, from the numbered rules of spec/. Each says in its docstring which rule it
formalises. `exec` runs an instruction with PC already past its words (R95); `t = { s with f := t.f }` says that every
field of the state but `f` is unchanged. -/

open Sys2Proof Sys2Proof.Machine

/-! ### Encoding and decoding -/

/-- Decoding an encoded instruction of a configuration gives it back, with every operand at every value and whatever bytes
follow (R90–R107). -/
def Obligations.DecodeOfEncodeIsTheInstruction : Prop :=
  ∀ (c : Config) (i : Instr) (rest : List Byte), i.WellFormed c → decode c (i.encode ++ rest) = .ok i rest

/-- The other direction: the word of a decoded instruction is the instruction's own, its second word is the operand, and the
configuration accepts it, so no word has two meanings (R107). -/
def Obligations.DecodedWordIsTheInstructionsOpcode : Prop :=
  ∀ (c : Config) (op operand : Word) (i : Instr), decodeWords c op operand = some i →
    i.opcode = op ∧ i.WellFormed c ∧ i.operandWord = (if isLong c op then some operand else none)

/-- A word is illegal exactly when no instruction the configuration accepts has it as its opcode (R104, R107). -/
def Obligations.IllegalWordIsOneNoRowAccepts : Prop :=
  ∀ (c : Config) (op operand : Word),
    decodeWords c op operand = none ↔ ∀ i : Instr, i.WellFormed c → i.opcode ≠ op

/-- A gated row is decoded exactly where its gate stands open (R97, R99, R103, R105, R106): whatever the word, an instruction
of the row shows that the gate is open, and the words of the row, written out from the encoding tables, are read as the
instruction where the gate is open and as none elsewhere. -/
def Obligations.GatedInstructionsNeedTheirMode : Prop :=
  (∀ (c : Config) (op operand : Word) (i : Instr), decodeWords c op operand = some i →
    ((∃ n, i = .scd n) ∨ i = .low ∨ i = .high → c.mode ≠ .chip8) ∧
    (i = .exit ∨ (∃ x, i = .ldHf x) → c.mode ≠ .chip8 ∧ c.extras = true) ∧
    (∀ x, i = .saveRpl x ∨ i = .loadRpl x → c.mode ≠ .chip8 ∧ x.toNat < c.rplCount.val) ∧
    (i = .scr ∨ i = .scl → c.mode = .xochip ∨ (c.mode = .schip ∧ c.extras = true)) ∧
    ((∃ n, i = .scu n) → c.mode = .xochip ∧ c.extras = true) ∧
    ((∃ x y, i = .saveRange x y ∨ i = .loadRange x y) ∨ (∃ w, i = .ldILong w) ∨ (∃ n, i = .plane n) ∨ i = .audio ∨
      (∃ x, i = .pitch x) → c.mode = .xochip)) ∧
  ∀ (c : Config) (w : Word) (x y n : Nibble),
    decodeWords c (0x00C#12 ++ n) w = (if c.mode ≠ .chip8 then some (.scd n) else none) ∧
    decodeWords c 0x00FE w = (if c.mode ≠ .chip8 then some .low else none) ∧
    decodeWords c 0x00FF w = (if c.mode ≠ .chip8 then some .high else none) ∧
    decodeWords c 0x00FD w = (if c.mode ≠ .chip8 ∧ c.extras = true then some .exit else none) ∧
    decodeWords c (0xF#4 ++ x ++ 0x30#8) w = (if c.mode ≠ .chip8 ∧ c.extras = true then some (.ldHf x) else none) ∧
    decodeWords c (0xF#4 ++ x ++ 0x75#8) w =
      (if c.mode ≠ .chip8 ∧ x.toNat < c.rplCount.val then some (.saveRpl x) else none) ∧
    decodeWords c (0xF#4 ++ x ++ 0x85#8) w =
      (if c.mode ≠ .chip8 ∧ x.toNat < c.rplCount.val then some (.loadRpl x) else none) ∧
    decodeWords c 0x00FB w =
      (if c.mode = .xochip ∨ (c.mode = .schip ∧ c.extras = true) then some .scr else none) ∧
    decodeWords c 0x00FC w =
      (if c.mode = .xochip ∨ (c.mode = .schip ∧ c.extras = true) then some .scl else none) ∧
    decodeWords c (0x00D#12 ++ n) w = (if c.mode = .xochip ∧ c.extras = true then some (.scu n) else none) ∧
    decodeWords c (0x5#4 ++ x ++ y ++ 0x2#4) w = (if c.mode = .xochip then some (.saveRange x y) else none) ∧
    decodeWords c (0x5#4 ++ x ++ y ++ 0x3#4) w = (if c.mode = .xochip then some (.loadRange x y) else none) ∧
    decodeWords c 0xF000 w = (if c.mode = .xochip then some (.ldILong w) else none) ∧
    decodeWords c (0xF#4 ++ n ++ 0x01#8) w =
      (if c.mode = .xochip ∧ n.toNat ≤ 3 then some (.plane (BitVec.ofNat 2 n.toNat)) else none) ∧
    decodeWords c 0xF002 w = (if c.mode = .xochip then some .audio else none) ∧
    decodeWords c (0xF#4 ++ x ++ 0x3A#8) w = (if c.mode = .xochip then some (.pitch x) else none)

/-- A few words written out from the encoding tables decode to the instruction they stand for (R97–R103). -/
def Obligations.SampleWordsDecode : Prop :=
  decodeTableWord 16 0x00E0 = some .cls ∧
  decodeTableWord 16 0x00C7 = some (.scd 7) ∧
  decodeTableWord 16 0x1ABC = some (.jp 0xABC) ∧
  decodeTableWord 16 0x5422 = some (.saveRange 4 2) ∧
  decodeTableWord 16 0x812E = some (.shl 1 2) ∧
  decodeTableWord 16 0xD125 = some (.drw 1 2 5) ∧
  decodeTableWord 16 0xE5A1 = some (.sknp 5) ∧
  decodeTableWord 16 0xF301 = some (.plane 3) ∧
  decodeTableWord 16 0xF401 = none ∧
  decodeTableWord 32 0x1234F000 = some (.ldILong 0x1234)

/-! ### Fetch and step -/

/-- When the bytes at PC decode to an instruction, a running engine executes it with PC past its words (R95). -/
def Obligations.StepRunsTheDecodedInstruction : Prop :=
  ∀ (s : State) (i : Instr), s.status = .run → s.pc.toNat + i.length ≤ s.cfg.memSize →
    decode s.cfg (s.mem.readBytes s.pc.toNat i.length) = .ok i [] →
    step s = exec i { s with pc := s.pc + BitVec.ofNat 16 i.length }

/-- A fetch outside memory halts at its first failing address and executes nothing: of the opcode word with PC unchanged, of
the second word of F000 NNNN with PC past the first (R62, R243, R263). -/
def Obligations.FetchOutsideMemoryHalts : Prop :=
  ∀ s : State, s.status = .run →
    (s.cfg.memSize ≤ s.pc.toNat →
      step s = .next { s with status := .halted, haltReason := .addressOutOfRange, haltInfo := .value s.pc.toNat, faultLog := s.faultLog ++ [(.addressOutOfRange, .value s.pc.toNat)] }) ∧
    (s.pc.toNat < s.cfg.memSize → s.cfg.memSize ≤ s.pc.toNat + 1 →
      step s = .next { s with status := .halted, haltReason := .addressOutOfRange, haltInfo := .value (s.pc.toNat + 1), faultLog := s.faultLog ++ [(.addressOutOfRange, .value (s.pc.toNat + 1))] }) ∧
    (s.pc.toNat + 1 < s.cfg.memSize → s.cfg.mode = .xochip → s.mem.readWord s.pc.toNat = 0xF000 →
      s.cfg.memSize ≤ s.pc.toNat + 3 →
      ∃ bad, bad = max (s.pc.toNat + 2) s.cfg.memSize ∧
        step s = .next { s with pc := s.pc + 2, status := .halted, haltReason := .addressOutOfRange, haltInfo := .value bad, faultLog := s.faultLog ++ [(.addressOutOfRange, .value bad)] })

/-- A word no row of the configuration accepts halts the engine with InvalidOpcode, the word and its address, and PC past the
word (R104, R262, R263, R267). -/
def Obligations.UnacceptedWordHalts : Prop :=
  ∀ s : State, s.status = .run → s.pc.toNat + 1 < s.cfg.memSize →
    (∀ i : Instr, i.WellFormed s.cfg → i.opcode ≠ s.mem.readWord s.pc.toNat) →
    step s = .next { s with
      pc := s.pc + 2
      status := .halted
      haltReason := .invalidOpcode
      haltInfo := .opcode (s.mem.readWord s.pc.toNat) s.pc
      faultLog := s.faultLog ++ [(.invalidOpcode, .opcode (s.mem.readWord s.pc.toNat) s.pc)] }

/-- R151: the seven unused words of family 8 raise InvalidOpcode in every mode, with PC = a + 2. -/
def Obligations.UnusedFamily8WordsAreIllegal : Prop :=
  ∀ (s : State) (x y n : Nibble), n ∈ [0x8#4, 0x9#4, 0xA#4, 0xB#4, 0xC#4, 0xD#4, 0xF#4] →
    s.status = .run → s.pc.toNat + 1 < s.cfg.memSize → s.mem.readWord s.pc.toNat = 0x8#4 ++ x ++ y ++ n →
    step s = .next { s with
      pc := s.pc + 2
      status := .halted
      haltReason := .invalidOpcode
      haltInfo := .opcode (0x8#4 ++ x ++ y ++ n) s.pc
      faultLog := s.faultLog ++ [(.invalidOpcode, .opcode (0x8#4 ++ x ++ y ++ n) s.pc)] }

/-- While the display-wait stall or a halt is in force a step changes nothing, and returns DisplayWait or the halt's reason
(R178, R271). `refresh()` takes STATUS from VBLANK_WAIT to RUN and changes nothing else, and in every other STATUS it changes
nothing (R298). -/
def Obligations.StalledStepsChangeNothing : Prop :=
  ∀ s : State,
    (s.status = .vblankWait → step s = .next s ∧ s.stepResult = .displayWait) ∧
    (s.status = .halted → step s = .next s ∧ s.stepResult = .halt s.haltReason) ∧
    (s.status = .vblankWait → s.refresh = { s with status := .run }) ∧
    (s.status ≠ .vblankWait → s.refresh = s)

/-- R200: a step of the key wait ends it with the latched key, or changes nothing. -/
def Obligations.KeyWaitStepPollsTheLatch : Prop :=
  ∀ s : State, s.status = .keyWait →
    (∀ k, s.kwLatch = some k → ∃ t, step s = .next t ∧ t.stepResult = .continued ∧
      t = { s with v := t.v, pc := s.pc + 2, kwLatch := none, kwArmed := 0, status := .run } ∧
      ∀ r, (t.getV r).toNat = if r = s.kwX then k.toNat else (s.getV r).toNat) ∧
    (s.kwLatch = none → step s = .next s ∧ s.stepResult = .keyWait)

/-! ### Halts -/

/-- R269 and R263: the state at a halt is the state before the instruction, but for PC and the halt registers; PC is the
address of the instruction after a fetch fault and that address + 2 after every later one. -/
def Obligations.HaltsArePrecise : Prop :=
  ∀ s t : State, s.status = .run → step s = .next t → t.status = .halted →
    t.pc = (if s.pc.toNat + 1 < s.cfg.memSize then s.pc + 2 else s.pc) ∧
    t.haltReason ≠ .none ∧ t.haltReason ≠ .romTooLarge ∧
    t = { s with
      pc := t.pc
      status := .halted
      haltReason := t.haltReason
      haltInfo := t.haltInfo
      faultLog := s.faultLog ++ [(t.haltReason, t.haltInfo)] }

/-- FAULT_LOG only grows: a step that takes a halt appends that one halt, and nothing else changes the log, no host event
either (R39, R262, R268, R270). -/
def Obligations.FaultLogIsAppendOnly : Prop :=
  (∀ s t : State, step s = .next t →
    t.faultLog = s.faultLog ∨
    (s.status = .run ∧ t.status = .halted ∧ t.faultLog = s.faultLog ++ [(t.haltReason, t.haltInfo)])) ∧
  (∀ (s : State) (e : HostEvent), (s.applyEvent e).faultLog = s.faultLog)

/-- R270: `resume()` continues after InvalidOpcode, keeping FAULT_LOG, and changes nothing in every other state. -/
def Obligations.ResumeOnlyAfterInvalidOpcode : Prop :=
  ∀ s : State,
    (s.status = .halted → s.haltReason = .invalidOpcode →
      s.resume = { s with status := .run, haltReason := .none, haltInfo := .value 0 }) ∧
    (¬ (s.status = .halted ∧ s.haltReason = .invalidOpcode) → s.resume = s)

/-- Best-effort mode: an invalid opcode followed by `resume()` leaves the state as it was, but for PC, now at the word after
the invalid one, and the entry in FAULT_LOG (R262, R263, R270). -/
def Obligations.ResumedInvalidOpcodeIsSkipped : Prop :=
  ∀ s t : State, s.HaltInv → s.status = .run → step s = .next t → t.status = .halted →
    t.haltReason = .invalidOpcode →
    t.resume = { s with pc := s.pc + 2, faultLog := s.faultLog ++ [(.invalidOpcode, t.haltInfo)] }

/-! ### Register load and arithmetic -/

/-- R140, R141, R142: load immediate, add immediate mod 256 with no flag, register copy. -/
def Obligations.LoadsAndAddImmediate : Prop :=
  (∀ (x y : Nibble) (nn : Byte) (c : Config) (w : Word),
    decodeWords c (0x6#4 ++ x ++ nn) w = some (.ldImm x nn) ∧
    decodeWords c (0x7#4 ++ x ++ nn) w = some (.addImm x nn) ∧
    decodeWords c (0x8#4 ++ x ++ y ++ 0x0#4) w = some (.ldReg x y)) ∧
  ∀ (s : State) (x y : Nibble) (nn : Byte),
    (∃ t, exec (.ldImm x nn) s = .next t ∧ t = { s with v := t.v } ∧
      ∀ r, t.getV r = if r = x then nn else s.getV r) ∧
    (∃ t, exec (.addImm x nn) s = .next t ∧ t = { s with v := t.v } ∧
      ∀ r, (t.getV r).toNat = if r = x then ((s.getV x).toNat + nn.toNat) % 256 else (s.getV r).toNat) ∧
    (∃ t, exec (.ldReg x y) s = .next t ∧ t = { s with v := t.v } ∧
      ∀ r, t.getV r = if r = x then s.getV y else s.getV r)

/-- R143, R144, R145: the logic operations, bit by bit, and VF ← 0 written last under `vf_reset`. -/
def Obligations.LogicOperations : Prop :=
  (∀ (x y : Nibble) (c : Config) (w : Word),
    decodeWords c (0x8#4 ++ x ++ y ++ 0x1#4) w = some (.orReg x y) ∧
    decodeWords c (0x8#4 ++ x ++ y ++ 0x2#4) w = some (.andReg x y) ∧
    decodeWords c (0x8#4 ++ x ++ y ++ 0x3#4) w = some (.xorReg x y)) ∧
  ∀ (s : State) (x y : Nibble),
    (∃ t, exec (.orReg x y) s = .next t ∧ t = { s with v := t.v } ∧
      ∀ r b, (t.getV r).getLsbD b =
        if r = 0xF ∧ s.cfg.quirks.vfReset = true then false
        else if r = x then ((s.getV x).getLsbD b || (s.getV y).getLsbD b) else (s.getV r).getLsbD b) ∧
    (∃ t, exec (.andReg x y) s = .next t ∧ t = { s with v := t.v } ∧
      ∀ r b, (t.getV r).getLsbD b =
        if r = 0xF ∧ s.cfg.quirks.vfReset = true then false
        else if r = x then ((s.getV x).getLsbD b && (s.getV y).getLsbD b) else (s.getV r).getLsbD b) ∧
    (∃ t, exec (.xorReg x y) s = .next t ∧ t = { s with v := t.v } ∧
      ∀ r b, (t.getV r).getLsbD b =
        if r = 0xF ∧ s.cfg.quirks.vfReset = true then false
        else if r = x then ((s.getV x).getLsbD b ^^ (s.getV y).getLsbD b) else (s.getV r).getLsbD b)

/-- R146: the sum mod 256 in VX and the carry in VF, written last. -/
def Obligations.AddRegistersSetsCarry : Prop :=
  ∀ x y : Nibble,
    (∀ (c : Config) (w : Word), decodeWords c (0x8#4 ++ x ++ y ++ 0x4#4) w = some (.addReg x y)) ∧
    ∀ s : State, ∃ t, exec (.addReg x y) s = .next t ∧ t = { s with v := t.v } ∧
      ∀ r, (t.getV r).toNat =
        if r = 0xF then (if (s.getV x).toNat + (s.getV y).toNat > 255 then 1 else 0)
        else if r = x then ((s.getV x).toNat + (s.getV y).toNat) % 256
        else (s.getV r).toNat

/-- R147, R149: the differences mod 256 in VX and NOT borrow in VF, written last. -/
def Obligations.SubtractionsSetNotBorrow : Prop :=
  ∀ x y : Nibble,
    (∀ (c : Config) (w : Word), decodeWords c (0x8#4 ++ x ++ y ++ 0x5#4) w = some (.subReg x y) ∧
      decodeWords c (0x8#4 ++ x ++ y ++ 0x7#4) w = some (.subnReg x y)) ∧
    ∀ s : State,
      (∃ t, exec (.subReg x y) s = .next t ∧ t = { s with v := t.v } ∧
        ∀ r, (t.getV r).toNat =
          if r = 0xF then (if (s.getV x).toNat ≥ (s.getV y).toNat then 1 else 0)
          else if r = x then ((s.getV x).toNat + 256 - (s.getV y).toNat) % 256
          else (s.getV r).toNat) ∧
      (∃ t, exec (.subnReg x y) s = .next t ∧ t = { s with v := t.v } ∧
        ∀ r, (t.getV r).toNat =
          if r = 0xF then (if (s.getV y).toNat ≥ (s.getV x).toNat then 1 else 0)
          else if r = x then ((s.getV y).toNat + 256 - (s.getV x).toNat) % 256
          else (s.getV r).toNat)

/-- R148, R150: the shifts by one, of VY under `shift_vy` and of VX otherwise; the bit shifted out in VF, written last. -/
def Obligations.ShiftsMoveOneBitOut : Prop :=
  ∀ x y : Nibble,
    (∀ (c : Config) (w : Word), decodeWords c (0x8#4 ++ x ++ y ++ 0x6#4) w = some (.shr x y) ∧
      decodeWords c (0x8#4 ++ x ++ y ++ 0xE#4) w = some (.shl x y)) ∧
    ∀ (s : State) (src : Nat), src = (if s.cfg.quirks.shiftVy = true then (s.getV y).toNat else (s.getV x).toNat) →
      (∃ t, exec (.shr x y) s = .next t ∧ t = { s with v := t.v } ∧
        ∀ r, (t.getV r).toNat =
          if r = 0xF then src % 2 else if r = x then src / 2 else (s.getV r).toNat) ∧
      (∃ t, exec (.shl x y) s = .next t ∧ t = { s with v := t.v } ∧
        ∀ r, (t.getV r).toNat =
          if r = 0xF then src / 128 else if r = x then src * 2 % 256 else (s.getV r).toNat)

/-! ### Control flow -/

/-- R124, R161: the jumps; BNNN adds V0, or VX with X = NNN[11:8] under `jump_vx`, mod 2^16. -/
def Obligations.JumpsSetPc : Prop :=
  ∀ nnn : Addr12,
    (∀ (c : Config) (w : Word), decodeWords c (0x1#4 ++ nnn) w = some (.jp nnn) ∧
      decodeWords c (0xB#4 ++ nnn) w = some (.jpOffset nnn)) ∧
    ∀ s : State,
      (∃ t, exec (.jp nnn) s = .next t ∧ t = { s with pc := t.pc } ∧ t.pc.toNat = nnn.toNat) ∧
      (∃ t, exec (.jpOffset nnn) s = .next t ∧ t = { s with pc := t.pc } ∧
        t.pc.toNat =
          (nnn.toNat +
            (if s.cfg.quirks.jumpVx = true then (s.getV (BitVec.ofNat 4 (nnn.toNat / 256))).toNat
             else (s.getV 0).toNat)) % 65536)

/-- R125: a call pushes the address after it and jumps; with the stack full it halts with StackOverflow at its own address
and pushes nothing. -/
def Obligations.CallPushesTheReturnAddress : Prop :=
  ∀ nnn : Addr12,
    (∀ (c : Config) (w : Word), decodeWords c (0x2#4 ++ nnn) w = some (.call nnn)) ∧
    ∀ s : State,
      (s.sp.toNat < s.cfg.stackDepth.val → ∃ t, exec (.call nnn) s = .next t ∧
        t = { s with stack := t.stack, sp := t.sp, pc := t.pc } ∧
        t.pc.toNat = nnn.toNat ∧ t.sp.toNat = s.sp.toNat + 1 ∧
        ∀ k : Fin 16, t.stack[k] = if k.val = s.sp.toNat then s.pc else s.stack[k]) ∧
      (s.sp.toNat = s.cfg.stackDepth.val → exec (.call nnn) s = .next { s with
        status := .halted
        haltReason := .stackOverflow
        haltInfo := .value (s.pc - 2).toNat
        faultLog := s.faultLog ++ [(.stackOverflow, .value (s.pc - 2).toNat)] })

/-- R123: a return pops PC; with the stack empty it halts with StackUnderflow at its own address. -/
def Obligations.ReturnPopsTheStack : Prop :=
  (∀ (c : Config) (w : Word), decodeWords c 0x00EE w = some .ret) ∧
  ∀ s : State,
    (∀ k : Fin 16, s.sp.toNat = k.val + 1 → s.sp.toNat ≤ s.cfg.stackDepth.val →
      exec .ret s = .next { s with pc := s.stack[k], sp := s.sp - 1 }) ∧
    (s.sp.toNat = 0 → exec .ret s = .next { s with
      status := .halted
      haltReason := .stackUnderflow
      haltInfo := .value (s.pc - 2).toNat
      faultLog := s.faultLog ++ [(.stackUnderflow, .value (s.pc - 2).toNat)] })

/-- A return after a call comes back to the word after the call, with the stack pointer and every entry below it as before
(R123, R125). -/
def Obligations.ReturnUndoesCall : Prop :=
  ∀ (nnn : Addr12) (s : State), s.sp.toNat < s.cfg.stackDepth.val →
    ∃ t u, exec (.call nnn) s = .next t ∧ exec .ret t = .next u ∧
      u = { s with stack := u.stack } ∧ ∀ k : Fin 16, k.val ≠ s.sp.toNat → u.stack[k] = s.stack[k]

/-- THE MODEL'S CHOICE (log 5), for states outside R24: with SP above P_STACK_DEPTH the slot does not exist, and the model
stops by name. -/
def Obligations.NoStackSlotBeyondTheDepth : Prop :=
  ∀ (nnn : Addr12) (s : State), s.cfg.stackDepth.val < s.sp.toNat →
    exec (.call nnn) s = .fault (.noSuchStackSlot s.sp) ∧ exec .ret s = .fault (.noSuchStackSlot s.sp)

/-- R121, R126–R129, R196, R197: a skip whose condition holds steps over 4 bytes if the next word is F000 in XOCHIP, wholly
inside memory, and over 2 otherwise; one whose condition fails changes nothing. -/
def Obligations.SkipsStepOverOneInstruction : Prop :=
  (∀ (x y : Nibble) (nn : Byte) (c : Config) (w : Word),
    decodeWords c (0x3#4 ++ x ++ nn) w = some (.seImm x nn) ∧
    decodeWords c (0x4#4 ++ x ++ nn) w = some (.sneImm x nn) ∧
    decodeWords c (0x5#4 ++ x ++ y ++ 0x0#4) w = some (.seReg x y) ∧
    decodeWords c (0x9#4 ++ x ++ y ++ 0x0#4) w = some (.sneReg x y) ∧
    decodeWords c (0xE#4 ++ x ++ 0x9E#8) w = some (.skp x) ∧
    decodeWords c (0xE#4 ++ x ++ 0xA1#8) w = some (.sknp x)) ∧
  ∀ (s : State) (x y : Nibble) (nn : Byte) (dist : Nat),
    dist = (if s.cfg.mode = .xochip ∧ s.pc.toNat + 1 < s.cfg.memSize ∧
      s.mem.read s.pc.toNat = 0xF0 ∧ s.mem.read (s.pc.toNat + 1) = 0x00 then 4 else 2) →
    ∀ i cond, (i, cond) ∈
        [(Instr.seImm x nn, decide (s.getV x = nn)), (Instr.sneImm x nn, decide (s.getV x ≠ nn)),
         (Instr.seReg x y, decide (s.getV x = s.getV y)), (Instr.sneReg x y, decide (s.getV x ≠ s.getV y)),
         (Instr.skp x, s.key[(s.getV x).toNat % 16]'(Nat.mod_lt _ (by decide))),
         (Instr.sknp x, !s.key[(s.getV x).toNat % 16]'(Nat.mod_lt _ (by decide)))] →
      ∃ t, exec i s = .next t ∧ t = { s with pc := t.pc } ∧
        t.pc.toNat = if cond = true then (s.pc.toNat + dist) % 65536 else s.pc.toNat

/-! ### Memory operations -/

/-- R160, R208, R209, R229, R243: what the instructions that load or move I leave in it; nothing else changes. -/
def Obligations.IndexRegisterLoads : Prop :=
  ∀ (s : State) (x : Nibble) (nnn : Addr12) (nnnn : Word),
    ∀ i val, (i, val) ∈
        [(Instr.ldI nnn, nnn.toNat), (Instr.ldILong nnnn, nnnn.toNat),
         (Instr.addI x, (s.i.toNat + (s.getV x).toNat) % 65536),
         (Instr.ldF x, (s.cfg.fontBase.toNat + 5 * ((s.getV x).toNat % 16)) % 65536),
         (Instr.ldHf x, (s.cfg.bigFontBase.toNat + 10 * ((s.getV x).toNat % 16)) % 65536)] →
      ∃ t, exec i s = .next t ∧ t = { s with i := t.i } ∧ t.i.toNat = val

/-- R162: VX gets a fresh draw ANDed with NN, whatever the draw. The count of draws is the model's own (log 3). -/
def Obligations.RandomIsAMaskedFreshDraw : Prop :=
  ∀ (x : Nibble) (nn : Byte),
    (∀ (c : Config) (w : Word), decodeWords c (0xC#4 ++ x ++ nn) w = some (.rnd x nn)) ∧
    ∀ s : State, ∃ t, exec (.rnd x nn) s = .next t ∧ t = { s with v := t.v, rndCount := s.rndCount + 1 } ∧
      (∀ r, r ≠ x → t.getV r = s.getV r) ∧
      (∀ b, (t.getV x).getLsbD b = ((Config.rnd s.rndCount).getLsbD b && nn.getLsbD b)) ∧
      (nn = 0 → t.getV x = 0)

/-- R163, R164: V0 to VX at I up, every other byte of memory as before, and I moved by X + 1 under `mem_inc`; with a byte
outside memory the halt at the first such address, and nothing written. -/
def Obligations.StoreRegisterRange : Prop :=
  ∀ x : Nibble,
    (∀ (c : Config) (w : Word), decodeWords c (0xF#4 ++ x ++ 0x55#8) w = some (.storeRegs x)) ∧
    ∀ s : State,
      (s.i.toNat + x.toNat < s.cfg.memSize →
        ∃ t, exec (.storeRegs x) s = .next t ∧ t = { s with mem := t.mem, i := t.i } ∧
          (∀ r : Nibble, r.toNat ≤ x.toNat → t.mem.read (s.i.toNat + r.toNat) = s.getV r) ∧
          (∀ a, a < s.i.toNat ∨ s.i.toNat + x.toNat < a → t.mem.read a = s.mem.read a) ∧
          t.i.toNat = (if s.cfg.quirks.memInc = true then (s.i.toNat + x.toNat + 1) % 65536 else s.i.toNat)) ∧
      (s.cfg.memSize ≤ s.i.toNat + x.toNat → exec (.storeRegs x) s = .next { s with
        status := .halted
        haltReason := .addressOutOfRange
        haltInfo := .value (max s.i.toNat s.cfg.memSize)
        faultLog := s.faultLog ++ [(.addressOutOfRange, .value (max s.i.toNat s.cfg.memSize))] })

/-- R163, R165: V0 to VX from I up, the other registers as before, and I moved by X + 1 under `mem_inc`; with a byte outside
memory the halt at the first such address, and nothing loaded. -/
def Obligations.LoadRegisterRange : Prop :=
  ∀ x : Nibble,
    (∀ (c : Config) (w : Word), decodeWords c (0xF#4 ++ x ++ 0x65#8) w = some (.loadRegs x)) ∧
    ∀ s : State,
      (s.i.toNat + x.toNat < s.cfg.memSize →
        ∃ t, exec (.loadRegs x) s = .next t ∧ t = { s with v := t.v, i := t.i } ∧
          (∀ r, t.getV r = if r.toNat ≤ x.toNat then s.mem.read (s.i.toNat + r.toNat) else s.getV r) ∧
          t.i.toNat = (if s.cfg.quirks.memInc = true then (s.i.toNat + x.toNat + 1) % 65536 else s.i.toNat)) ∧
      (s.cfg.memSize ≤ s.i.toNat + x.toNat → exec (.loadRegs x) s = .next { s with
        status := .halted
        haltReason := .addressOutOfRange
        haltInfo := .value (max s.i.toNat s.cfg.memSize)
        faultLog := s.faultLog ++ [(.addressOutOfRange, .value (max s.i.toNat s.cfg.memSize))] })

/-- R210: the three decimal digits of VX at I, I + 1, I + 2, every other byte as before; with a byte outside memory the halt
at the first such address, and nothing written. -/
def Obligations.BcdDigitsOfRegister : Prop :=
  ∀ x : Nibble,
    (∀ (c : Config) (w : Word), decodeWords c (0xF#4 ++ x ++ 0x33#8) w = some (.ldB x)) ∧
    ∀ s : State,
      (s.i.toNat + 2 < s.cfg.memSize → ∃ t, exec (.ldB x) s = .next t ∧ t = { s with mem := t.mem } ∧
        100 * (t.mem.read s.i.toNat).toNat + 10 * (t.mem.read (s.i.toNat + 1)).toNat +
          (t.mem.read (s.i.toNat + 2)).toNat = (s.getV x).toNat ∧
        (t.mem.read (s.i.toNat + 1)).toNat ≤ 9 ∧ (t.mem.read (s.i.toNat + 2)).toNat ≤ 9 ∧
        ∀ a, a < s.i.toNat ∨ s.i.toNat + 2 < a → t.mem.read a = s.mem.read a) ∧
      (s.cfg.memSize ≤ s.i.toNat + 2 → exec (.ldB x) s = .next { s with
        status := .halted
        haltReason := .addressOutOfRange
        haltInfo := .value (max s.i.toNat s.cfg.memSize)
        faultLog := s.faultLog ++ [(.addressOutOfRange, .value (max s.i.toNat s.cfg.memSize))] })

/-- R246 in the bytes it writes: VX first, ascending or descending to VY, every other byte and I as before. -/
def Obligations.SaveRegisterRange : Prop :=
  ∀ (s : State) (x y : Nibble) (n : Nat), n = (if x.toNat ≤ y.toNat then y.toNat - x.toNat else x.toNat - y.toNat) →
    s.i.toNat + n < s.cfg.memSize →
    ∃ t, exec (.saveRange x y) s = .next t ∧ t = { s with mem := t.mem } ∧
      (∀ k ≤ n, t.mem.read (s.i.toNat + k) =
        s.getV (BitVec.ofNat 4 (if x.toNat ≤ y.toNat then x.toNat + k else x.toNat - k))) ∧
      (∀ a, a < s.i.toNat ∨ s.i.toNat + n < a → t.mem.read a = s.mem.read a)

/-- R247 in the registers it loads: VX first, ascending or descending to VY, every other register and I as before. -/
def Obligations.LoadRegisterSpan : Prop :=
  ∀ (s : State) (x y : Nibble) (n : Nat), n = (if x.toNat ≤ y.toNat then y.toNat - x.toNat else x.toNat - y.toNat) →
    s.i.toNat + n < s.cfg.memSize →
    ∃ t, exec (.loadRange x y) s = .next t ∧ t = { s with v := t.v } ∧
      (∀ k ≤ n, t.getV (BitVec.ofNat 4 (if x.toNat ≤ y.toNat then x.toNat + k else x.toNat - k)) =
        s.mem.read (s.i.toNat + k)) ∧
      (∀ r, r.toNat < min x.toNat y.toNat ∨ max x.toNat y.toNat < r.toNat → t.getV r = s.getV r)

/-- An access of a memory instruction that runs past the top of memory halts at the lowest failing address, with nothing
written (R61, R66, R163, R181, R244, R246, R247). -/
def Obligations.AccessPastMemoryHalts : Prop :=
  ∀ (s : State) (x y n : Nibble) (i : Instr) (len : Nat), (i, len) ∈
      [(Instr.storeRegs x, x.toNat + 1), (Instr.loadRegs x, x.toNat + 1), (Instr.audio, 16),
       (Instr.saveRange x y, (max x.toNat y.toNat - min x.toNat y.toNat) + 1),
       (Instr.loadRange x y, (max x.toNat y.toNat - min x.toNat y.toNat) + 1),
       (Instr.drw x y n, spriteData s n)] →
    ∀ k < len, s.cfg.memSize ≤ s.i.toNat + k → (∀ j < k, s.i.toNat + j < s.cfg.memSize) →
      exec i s = .next { s with
        status := .halted
        haltReason := .addressOutOfRange
        haltInfo := .value (s.i.toNat + k)
        faultLog := s.faultLog ++ [(.addressOutOfRange, .value (s.i.toNat + k))] }

/-- What FX55 stores, FX65 loads back at the same index: the registers V0 to VX come back, whatever they held in between
(R164, R165). -/
def Obligations.StoredRegistersLoadBack : Prop :=
  ∀ (s t u : State) (x : Nibble) (v : Vector Byte 16), s.i.toNat + x.toNat < s.cfg.memSize →
    exec (.storeRegs x) s = .next t → exec (.loadRegs x) { t with i := s.i, v := v } = .next u →
    ∀ r : Nibble, r.toNat ≤ x.toNat → u.getV r = s.getV r

/-- What 5XY2 stores, 5XY3 with the same registers loads back, and with the registers exchanged loads in reverse
(R246, R247). -/
def Obligations.SavedRangeLoadsBack : Prop :=
  ∀ (s t u w : State) (x y : Nibble) (v : Vector Byte 16), s.i.toNat + 15 < s.cfg.memSize →
    exec (.saveRange x y) s = .next t → exec (.loadRange x y) { t with v := v } = .next u →
    exec (.loadRange y x) { t with v := v } = .next w →
    ∀ r : Nibble, min x.toNat y.toNat ≤ r.toNat → r.toNat ≤ max x.toNat y.toNat →
      u.getV r = s.getV r ∧ w.getV r = s.getV (x + y - r)

/-- A byte of memory that an instruction changes is one of those the instruction stores to, and lies in memory
(R64, R66). -/
def Obligations.StoresTouchOnlyTheirBytes : Prop :=
  ∀ (i : Instr) (s t : State) (a : Nat), exec i s = .next t → t.mem.read a ≠ s.mem.read a →
    a < s.cfg.memSize ∧ s.i.toNat ≤ a ∧
      ((∃ x, i = .storeRegs x ∧ a ≤ s.i.toNat + x.toNat) ∨ (∃ x, i = .ldB x ∧ a ≤ s.i.toNat + 2) ∨
       (∃ x y, i = .saveRange x y ∧ a ≤ s.i.toNat + (max x.toNat y.toNat - min x.toNat y.toNat)))

/-! ### Display -/

/-- R120: the active region of the selected planes becomes unset, and nothing else changes. -/
def Obligations.ClearScreenUnsetsSelectedPlanes : Prop :=
  (∀ (c : Config) (w : Word), decodeWords c 0x00E0 w = some .cls) ∧
  ∀ s : State, ∃ t, exec .cls s = .next t ∧ t = { s with fb := t.fb } ∧
    ∀ p y x, t.fb.pixel p y x =
      if s.selects p = true ∧ y < s.res.height ∧ x < s.res.width then false else s.fb.pixel p y x

/-- R187, R222, R223: a change of resolution sets RES and unsets every pixel of every plane. -/
def Obligations.ResolutionChangeClearsEveryPlane : Prop :=
  ∀ (s : State) (i : Instr) (r : Resolution), (i = .low ∧ r = .low) ∨ (i = .high ∧ r = .high) →
    ∃ t, exec i s = .next t ∧ t = { s with res := r, fb := t.fb } ∧ ∀ p y x, t.fb.pixel p y x = false

/-- R189, R221, R241, R242, R248: every pixel of the active region of a selected plane takes the pixel N rows above or below,
or 4 columns to the left or right, unset where that lies outside; nothing else changes. -/
def Obligations.ScrollsMoveSelectedPlanes : Prop :=
  ∀ (s : State) (n : Nibble),
    (∃ t, exec (.scd n) s = .next t ∧ t = { s with fb := t.fb } ∧ ∀ p y x, t.fb.pixel p y x =
      if s.selects p = true ∧ y < s.res.height ∧ x < s.res.width then
        (if n.toNat ≤ y then s.fb.pixel p (y - n.toNat) x else false) else s.fb.pixel p y x) ∧
    (∃ t, exec (.scu n) s = .next t ∧ t = { s with fb := t.fb } ∧ ∀ p y x, t.fb.pixel p y x =
      if s.selects p = true ∧ y < s.res.height ∧ x < s.res.width then
        (if y + n.toNat < s.res.height then s.fb.pixel p (y + n.toNat) x else false) else s.fb.pixel p y x) ∧
    (∃ t, exec .scr s = .next t ∧ t = { s with fb := t.fb } ∧ ∀ p y x, t.fb.pixel p y x =
      if s.selects p = true ∧ y < s.res.height ∧ x < s.res.width then
        (if 4 ≤ x then s.fb.pixel p y (x - 4) else false) else s.fb.pixel p y x) ∧
    (∃ t, exec .scl s = .next t ∧ t = { s with fb := t.fb } ∧ ∀ p y x, t.fb.pixel p y x =
      if s.selects p = true ∧ y < s.res.height ∧ x < s.res.width then
        (if x + 4 < s.res.width then s.fb.pixel p y (x + 4) else false) else s.fb.pixel p y x)

/-- A draw whose sprite data is in memory inverts exactly the pixels a 1 bit of the sprite lands on, sets VF to 1 if one of
them was lit and to 0 otherwise, ends with the display wait under `disp_wait`, and changes nothing else (R175–R181). -/
def Obligations.DrawInvertsTheCoveredPixels : Prop :=
  ∀ (s : State) (x y n : Nibble), SpriteFits s n →
    ∃ t, exec (.drw x y n) s = .next t ∧ t = { s with fb := t.fb, v := t.v, status := t.status } ∧
      (∀ p py px, SpriteCovers s x y n p py px → t.fb.pixel p py px = !s.fb.pixel p py px) ∧
      (∀ p py px, ¬ SpriteCovers s x y n p py px → t.fb.pixel p py px = s.fb.pixel p py px) ∧
      ((∃ p py px, SpriteCovers s x y n p py px ∧ s.fb.pixel p py px = true) → t.getV 0xF = 1) ∧
      ((∀ p py px, SpriteCovers s x y n p py px → s.fb.pixel p py px = false) → t.getV 0xF = 0) ∧
      (∀ r, r ≠ 0xF → t.getV r = s.getV r) ∧
      t.status = (if s.cfg.quirks.dispWait = true then .vblankWait else s.status)

/-- R182: two identical draws, with nothing they read changed in between but VF, leave the framebuffer as before the first,
and the second collides exactly where the first set a pixel that was unset. -/
def Obligations.DrawingTwiceRestoresTheFramebuffer : Prop :=
  ∀ (s t t' u : State) (x y n : Nibble), x ≠ 0xF → y ≠ 0xF → SpriteFits s n → exec (.drw x y n) s = .next t →
    t'.cfg = t.cfg → t'.v = t.v → t'.i = t.i → t'.mem = t.mem → t'.res = t.res → t'.planeMask = t.planeMask →
    t'.fb = t.fb → exec (.drw x y n) t' = .next u →
    u.fb = s.fb ∧
      (u.getV 0xF = 1 ↔ ∃ p py px, SpriteCovers s x y n p py px ∧ s.fb.pixel p py px = false) ∧
      (u.getV 0xF = 1 ∨ u.getV 0xF = 0)

/-- A draw with no plane selected, or of no rows in CHIP8, reads nothing and draws nothing wherever I points: VF becomes 0
and only the display wait follows (R175, R179, R181). -/
def Obligations.DrawOfNothingCannotFault : Prop :=
  ∀ (s : State) (x y n : Nibble),
    (s.selects .plane1 = false ∧ s.selects .plane2 = false) ∨ (s.cfg.mode = .chip8 ∧ n = 0) →
    ∃ t, exec (.drw x y n) s = .next t ∧
      t = { s with v := t.v, status := if s.cfg.quirks.dispWait = true then .vblankWait else s.status } ∧
      ∀ r, t.getV r = if r = 0xF then 0 else s.getV r

/-! ### Keypad -/

/-- R202: FX0A notes X, clears the key-wait state, puts PC back at its own address and stops the engine in KEY_WAIT. -/
def Obligations.KeyWaitBeginsAtTheInstruction : Prop :=
  ∀ x : Nibble,
    (∀ (c : Config) (w : Word), decodeWords c (0xF#4 ++ x ++ 0x0A#8) w = some (.ldVxK x)) ∧
    ∀ s : State, ∃ t, exec (.ldVxK x) s = .next t ∧ t.stepResult = .keyWait ∧ t.pc + 2 = s.pc ∧
      t = { s with kwX := x, kwArmed := 0, kwLatch := none, pc := t.pc, status := .keyWait }

/-- R203: what `set_key_state(k, pressed)` does to the keys and to the key wait. -/
def Obligations.KeyEventsArmAndLatch : Prop :=
  ∀ (s t : State) (k : Nibble) (pressed : Bool), t = s.setKeyState k pressed →
    t = { s with key := t.key, kwArmed := t.kwArmed, kwLatch := t.kwLatch } ∧
    (∀ j : Fin 16, t.key[j] = if j.val = k.toNat then pressed else s.key[j]) ∧
    (s.status = .keyWait ∧ s.kwLatch = none → pressed = true →
      t.kwLatch = none ∧ ∀ b, b < 16 → t.kwArmed.getLsbD b = (s.kwArmed.getLsbD b || decide (b = k.toNat))) ∧
    (s.status = .keyWait ∧ s.kwLatch = none → pressed = false →
      t.kwArmed = s.kwArmed ∧ t.kwLatch = if s.kwArmed.getLsbD k.toNat = true then some k else none) ∧
    (¬ (s.status = .keyWait ∧ s.kwLatch = none) → t.kwArmed = s.kwArmed ∧ t.kwLatch = s.kwLatch)

/-- The key wait goes on over any number of steps, ends by the press and then the release of a key, with that key in VX and
PC past FX0A, and does not end by the release of a key that was not pressed during the wait (R199–R204). -/
def Obligations.PressThenReleaseEndsTheKeyWait : Prop :=
  ∀ (s t : State) (x k : Nibble) (n : Nat), exec (.ldVxK x) s = .next t →
    runTransitions (List.replicate n .step) t = .next t ∧
    runTransitions [.event (.setKeyState k false), .step] t = .next (t.setKeyState k false) ∧
    ∃ u, runTransitions [.event (.setKeyState k true), .step, .event (.setKeyState k false), .step] t = .next u ∧
      u.status = .run ∧ u.pc = s.pc ∧ ∀ r, (u.getV r).toNat = if r = x then k.toNat else (s.getV r).toNat

/-! ### Timers, audio, planes, snapshot, exit -/

/-- R205, R206, R207: the timer instructions. -/
def Obligations.TimerInstructions : Prop :=
  (∀ (x : Nibble) (c : Config) (w : Word),
    decodeWords c (0xF#4 ++ x ++ 0x07#8) w = some (.ldVxDt x) ∧
    decodeWords c (0xF#4 ++ x ++ 0x15#8) w = some (.ldDtVx x) ∧
    decodeWords c (0xF#4 ++ x ++ 0x18#8) w = some (.ldStVx x)) ∧
  ∀ (s : State) (x : Nibble),
    (∃ t, exec (.ldVxDt x) s = .next t ∧ t = { s with v := t.v } ∧ ∀ r, t.getV r = if r = x then s.dt else s.getV r) ∧
    exec (.ldDtVx x) s = .next { s with dt := s.getV x } ∧
    (∃ t, exec (.ldStVx x) s = .next t ∧ t = { s with st := s.getV x } ∧
      (t.soundActive = true ↔ 1 ≤ (s.getV x).toNat))

/-- R216 repeated, R218: n ticks take a timer from v to max(v − n, 0), in every STATUS, and change nothing else. -/
def Obligations.TicksCountTimersDownToZero : Prop :=
  ∀ (n : Nat) (s t : State), runTransitions (List.replicate n (.event .tick)) s = .next t →
    t = { s with dt := t.dt, st := t.st } ∧ t.dt.toNat = s.dt.toNat - n ∧ t.st.toNat = s.st.toNat - n

/-- R240, R244, R245 in what they write: PLANE_MASK, the 16 bytes at I into the audio buffer, PITCH; nothing else. -/
def Obligations.PlaneAudioAndPitchLoads : Prop :=
  ∀ (s : State) (x : Nibble) (n : BitVec 2),
    exec (.plane n) s = .next { s with planeMask := n } ∧
    exec (.pitch x) s = .next { s with pitch := s.getV x } ∧
    (s.i.toNat + 15 < s.cfg.memSize → ∃ t, exec .audio s = .next t ∧ t = { s with audio := t.audio } ∧
      ∀ k : Fin 16, t.audio[k] = s.mem.read (s.i.toNat + k.val))

/-- R224, R225 in what they write: V0 to VX to and from the snapshot, and a restore after a save gives the registers back;
memory and I are unchanged. -/
def Obligations.SnapshotSavesAndRestores : Prop :=
  ∀ (s : State) (x : Nibble),
    (∃ t, exec (.saveRpl x) s = .next t ∧ t = { s with rpl := t.rpl } ∧
      (∀ r : Nibble, t.rpl[r.toNat]'r.isLt = if r.toNat ≤ x.toNat then s.getV r else s.rpl[r.toNat]'r.isLt) ∧
      ∀ v : Vector Byte 16, ∃ u, exec (.loadRpl x) { t with v := v } = .next u ∧
        ∀ r : Nibble, r.toNat ≤ x.toNat → u.getV r = s.getV r) ∧
    (∃ t, exec (.loadRpl x) s = .next t ∧ t = { s with v := t.v } ∧
      ∀ r, t.getV r = if r.toNat ≤ x.toNat then s.rpl[r.toNat]'r.isLt else s.getV r)

/-- R230: EXIT halts with reason Exit at its own address, is recorded in FAULT_LOG, and cannot be resumed. -/
def Obligations.ExitHaltsForGood : Prop :=
  (∀ (c : Config) (w : Word),
    decodeWords c 0x00FD w = if c.mode ≠ .chip8 ∧ c.extras = true then some .exit else none) ∧
  ∀ s : State, ∃ t, exec .exit s = .next t ∧ t.resume = t ∧ step t = .next t ∧
    t = { s with
      status := .halted
      haltReason := .exit
      haltInfo := .value (s.pc - 2).toNat
      faultLog := s.faultLog ++ [(.exit, .value (s.pc - 2).toNat)] }

/-! ### Which instruction writes what -/

/-- The "written by" column of R43 for the instructions: what an instruction changes, it is listed as a writer of. The general
registers have a statement of their own (`OnlyTheDestinationRegisterChanges`). PC is here what an instruction writes beyond
the advance of its fetch (R23, R95), STATUS and the halt registers what DXYN, FX0A and the forms that can raise a halt write
(R38, R178, R202, R261, R262). The configuration and the keys are changed by no instruction (R36, R44), DT and ST only by FX15
and FX18 (R218). The last clause is about the model's own count of draws (DESIGN CHOICE, log 3). -/
def Obligations.OnlyTheListedInstructionsWrite : Prop :=
  ∀ (i : Instr) (s t : State), exec i s = .next t →
    t.cfg = s.cfg ∧ t.key = s.key ∧
    (t.dt ≠ s.dt → ∃ x, i = .ldDtVx x) ∧
    (t.st ≠ s.st → ∃ x, i = .ldStVx x) ∧
    (t.audio ≠ s.audio → i = .audio) ∧
    (t.pitch ≠ s.pitch → ∃ x, i = .pitch x) ∧
    (t.res ≠ s.res → i = .low ∨ i = .high) ∧
    (t.planeMask ≠ s.planeMask → ∃ n, i = .plane n) ∧
    (t.rpl ≠ s.rpl → ∃ x, i = .saveRpl x) ∧
    (t.sp ≠ s.sp → i = .ret ∨ ∃ nnn, i = .call nnn) ∧
    (t.stack ≠ s.stack → ∃ nnn, i = .call nnn) ∧
    (t.kwX ≠ s.kwX ∨ t.kwArmed ≠ s.kwArmed ∨ t.kwLatch ≠ s.kwLatch → ∃ x, i = .ldVxK x) ∧
    (t.mem ≠ s.mem → (∃ x, i = .storeRegs x) ∨ (∃ x, i = .ldB x) ∨ ∃ x y, i = .saveRange x y) ∧
    (t.i ≠ s.i → (∃ nnn, i = .ldI nnn) ∨ (∃ w, i = .ldILong w) ∨
      ∃ x, i = .addI x ∨ i = .ldF x ∨ i = .ldHf x ∨ i = .storeRegs x ∨ i = .loadRegs x) ∧
    (t.fb ≠ s.fb → i = .cls ∨ i = .scr ∨ i = .scl ∨ i = .low ∨ i = .high ∨
      (∃ n, i = .scd n ∨ i = .scu n) ∨ ∃ x y n, i = .drw x y n) ∧
    (t.pc ≠ s.pc → i = .ret ∨ (∃ nnn, i = .jp nnn ∨ i = .call nnn ∨ i = .jpOffset nnn) ∨
      (∃ x nn, i = .seImm x nn ∨ i = .sneImm x nn) ∨ (∃ x y, i = .seReg x y ∨ i = .sneReg x y) ∨
      ∃ x, i = .skp x ∨ i = .sknp x ∨ i = .ldVxK x) ∧
    (t.status ≠ s.status → (∃ x, i = .ldVxK x) ∨ (t.status = .vblankWait ∧ ∃ x y n, i = .drw x y n) ∨
      (t.status = .halted ∧ i.CanHalt)) ∧
    (t.haltReason ≠ s.haltReason ∨ t.haltInfo ≠ s.haltInfo ∨ t.faultLog ≠ s.faultLog →
      t.status = .halted ∧ i.CanHalt) ∧
    (t.rndCount ≠ s.rndCount → ∃ x nn, i = .rnd x nn)

/-- The writers of the general registers: a register other than VF changes only as the destination X of its instruction or
inside a loaded range, and VF as such or as the flag (R21, R43). -/
def Obligations.OnlyTheDestinationRegisterChanges : Prop :=
  ∀ (i : Instr) (s t : State) (r : Nibble), exec i s = .next t → t.getV r ≠ s.getV r →
    (∃ nn, i = .ldImm r nn ∨ i = .addImm r nn ∨ i = .rnd r nn) ∨
    (∃ x y, (r = x ∨ r = 0xF) ∧ (i = .orReg x y ∨ i = .andReg x y ∨ i = .xorReg x y ∨ i = .addReg x y ∨
      i = .subReg x y ∨ i = .subnReg x y ∨ i = .shr x y ∨ i = .shl x y)) ∨
    (∃ y, i = .ldReg r y) ∨ i = .ldVxDt r ∨
    (∃ x y n, r = 0xF ∧ i = .drw x y n) ∨
    (∃ x, r.toNat ≤ x.toNat ∧ (i = .loadRegs x ∨ i = .loadRpl x)) ∨
    (∃ x y, min x.toNat y.toNat ≤ r.toNat ∧ r.toNat ≤ max x.toNat y.toNat ∧ i = .loadRange x y)

/-! ### Reset, load and the invariant -/

/-- The reset values of R290, for a session of any configuration, of every element but MEM, which has a statement of its own
(`MemoryAtSessionStart`). The last clause is THE MODEL'S CHOICE (log 1): `State.reset` is the start of the session of
`Config.default`, with the count of draws at 0 (log 3). -/
def Obligations.ResetValues : Prop :=
  (∀ c : Config, ∀ s, s = State.initial c →
    s.cfg = c ∧ (∀ x, s.getV x = 0x00) ∧ s.i = 0x0000 ∧ s.pc = 0x0200 ∧ s.sp = 0 ∧ (∀ k : Fin 16, s.stack[k] = 0x0000) ∧
    s.dt = 0 ∧ s.st = 0 ∧ s.soundActive = false ∧ s.audio = c.audioInit ∧ s.pitch = 64 ∧ s.res = .low ∧
    (∀ p y x, s.fb.pixel p y x = false) ∧ s.planeMask = 1 ∧ (∀ k : Fin 16, s.key[k] = false) ∧
    s.kwX = 0 ∧ s.kwArmed = 0 ∧ s.kwLatch = none ∧ s.status = .run ∧ s.haltReason = .none ∧ s.haltInfo = .value 0 ∧
    s.faultLog = [] ∧ s.rpl = c.rplInit) ∧
  State.initial Config.default = State.reset

/-- R294, R295 and the layout of R68: at the start of a session of a legal configuration the font lies at FONT_BASE, the large
font at BIG_FONT_BASE under `P_EXTRAS` (whole also where the two overlap: the model's choice, log 14), and every other byte is
0x00. -/
def Obligations.MemoryAtSessionStart : Prop :=
  ∀ c : Config, c.Ok → ∀ m, m = (State.initial c).mem →
    (c.extras = true → ∀ (d : Fin 16) (k : Fin 10), m.read (c.bigFontBase.toNat + 10 * d.val + k.val) = c.bigFont[d][k]) ∧
    (∀ (d : Fin 16) (k : Fin 5) (a : Nat), a = c.fontBase.toNat + 5 * d.val + k.val →
      ¬ (c.extras = true ∧ c.bigFontBase.toNat ≤ a ∧ a < c.bigFontBase.toNat + 160) → m.read a = c.font[d][k]) ∧
    (∀ a, ¬ (c.fontBase.toNat ≤ a ∧ a < c.fontBase.toNat + 80) →
      ¬ (c.extras = true ∧ c.bigFontBase.toNat ≤ a ∧ a < c.bigFontBase.toNat + 160) → m.read a = 0x00)

/-- R292: a ROM that fits is copied to 0x200 up and nothing else changes; a longer one is refused with its length. -/
def Obligations.LoadProgramCopiesOrRefuses : Prop :=
  ∀ (s : State) (rom : List Byte),
    (rom.length ≤ s.cfg.memSize - 0x200 → ∃ t, s.loadProgram rom = .loaded t ∧ t = { s with mem := t.mem } ∧
      (∀ k : Fin rom.length, t.mem.read (0x200 + k.val) = rom[k]) ∧
      ∀ a, a < 0x200 ∨ 0x200 + rom.length ≤ a → t.mem.read a = s.mem.read a) ∧
    (s.cfg.memSize - 0x200 < rom.length → s.loadProgram rom = .romTooLarge rom.length)

/-- The reset state is legal. -/
def Obligations.ResetIsLegal : Prop := State.reset.Inv

/-- A session of a legal configuration starts in a legal state, before and after the load of a ROM (R290–R295). -/
def Obligations.SessionsStartLegal : Prop :=
  ∀ c : Config, c.Ok → (State.initial c).Inv ∧
    ∀ rom t, (State.initial c).loadProgram rom = .loaded t → t.Inv

/-- From every legal state a step answers a next state, which is legal, in the same session: SP stays within the stack, no
byte outside memory is written, RES, PLANE_MASK and the framebuffer stay as the mode allows with nothing lit outside the
active region, and the halt, wait and gated registers stay consistent (R24, R31, R33, R37–R41, R44, R188). -/
def Obligations.StepKeepsLegalStates : Prop :=
  ∀ s : State, s.Inv → ∃ t, step s = .next t ∧ t.Inv ∧ t.cfg = s.cfg

/-- The same of a run: from a legal state, every interleaving of steps and host events completes in a legal state of the same
session, and FAULT_LOG has only grown (R39, R44, R296). -/
def Obligations.EveryInterleavingStaysLegal : Prop :=
  ∀ (ts : List Transition) (s : State), s.Inv →
    ∃ t, runTransitions ts s = .next t ∧ t.Inv ∧ t.cfg = s.cfg ∧ s.faultLog <+: t.faultLog
end

