-- ==== Sys2Proof/Laws/Fields.lean ====
section
/-! SUPPORT. The bit fields of an opcode word put together from its fields, and of a word put together from its bytes. -/

namespace Sys2Proof

section Nibbles
variable (f x y n : Nibble) (nn : Byte) (nnn p : Addr12)

@[simp] theorem fieldF_nnn : fieldF (f ++ nnn) = f := by
  ext i hi
  simp only [fieldF, BitVec.getElem_extractLsb', BitVec.getLsbD_append]
  simp [BitVec.getLsbD_eq_getElem hi]
@[simp] theorem fieldNNN_nnn : fieldNNN (f ++ nnn) = nnn := by
  ext i hi
  simp only [fieldNNN, BitVec.getElem_extractLsb', BitVec.getLsbD_append]
  simp [hi, BitVec.getLsbD_eq_getElem]
@[simp] theorem fieldF_xnn : fieldF (f ++ x ++ nn) = f := by
  ext i hi
  simp only [fieldF, BitVec.getElem_extractLsb', BitVec.getLsbD_append]
  have h1 : ¬ (12 + i < 8) := by omega
  have h2 : ¬ (12 + i - 8 < 4) := by omega
  have h3 : 12 + i - 8 - 4 = i := by omega
  simp [h1, h2, h3, BitVec.getLsbD_eq_getElem hi]
@[simp] theorem fieldX_xnn : fieldX (f ++ x ++ nn) = x := by
  ext i hi
  simp only [fieldX, BitVec.getElem_extractLsb', BitVec.getLsbD_append]
  simp [hi, BitVec.getLsbD_eq_getElem]
@[simp] theorem fieldNN_xnn : fieldNN (f ++ x ++ nn) = nn := by
  ext i hi
  simp only [fieldNN, BitVec.getElem_extractLsb', BitVec.getLsbD_append]
  simp [hi, BitVec.getLsbD_eq_getElem]
@[simp] theorem fieldF_xyn : fieldF (f ++ x ++ y ++ n) = f := by
  ext i hi
  simp only [fieldF, BitVec.getElem_extractLsb', BitVec.getLsbD_append]
  have h1 : ¬ (12 + i < 4) := by omega
  have h2 : ¬ (12 + i - 4 < 4) := by omega
  have h3 : ¬ (12 + i - 4 - 4 < 4) := by omega
  have h4 : 12 + i - 4 - 4 - 4 = i := by omega
  simp [h1, h2, h3, h4, BitVec.getLsbD_eq_getElem hi]
@[simp] theorem fieldX_xyn : fieldX (f ++ x ++ y ++ n) = x := by
  ext i hi
  simp only [fieldX, BitVec.getElem_extractLsb', BitVec.getLsbD_append]
  have h1 : ¬ (8 + i < 4) := by omega
  have h2 : ¬ (8 + i - 4 < 4) := by omega
  have h3 : 8 + i - 4 - 4 = i := by omega
  simp [h1, h2, h3, hi]
@[simp] theorem fieldY_xyn : fieldY (f ++ x ++ y ++ n) = y := by
  ext i hi
  simp only [fieldY, BitVec.getElem_extractLsb', BitVec.getLsbD_append]
  simp [hi, BitVec.getLsbD_eq_getElem]
@[simp] theorem fieldN_xyn : fieldN (f ++ x ++ y ++ n) = n := by
  ext i hi
  simp only [fieldN, BitVec.getElem_extractLsb', BitVec.getLsbD_append]
  simp [hi, BitVec.getLsbD_eq_getElem]
@[simp] theorem fieldN_low : fieldN (p ++ n) = n := by
  ext i hi
  simp only [fieldN, BitVec.getElem_extractLsb', BitVec.getLsbD_append]
  simp [hi, BitVec.getLsbD_eq_getElem]
@[simp] theorem upper_low : (p ++ n : Word).extractLsb' 4 12 = p := by
  ext i hi
  simp only [BitVec.getElem_extractLsb', BitVec.getLsbD_append]
  simp [BitVec.getLsbD_eq_getElem hi]
@[simp] theorem fieldF_low : fieldF (p ++ n) = p.extractLsb' 8 4 := by
  ext i hi
  simp only [fieldF, BitVec.getElem_extractLsb', BitVec.getLsbD_append]
  have h1 : ¬ (12 + i < 4) := by omega
  have h2 : 12 + i - 4 = 8 + i := by omega
  simp [h1, h2]

end Nibbles

/-- A word is its nibbles. -/
theorem word_eq_nibbles (op : Word) : op = fieldF op ++ fieldX op ++ fieldY op ++ fieldN op := by
  refine BitVec.eq_of_getLsbD_eq fun i hi => ?_
  simp only [fieldF, fieldX, fieldY, fieldN, BitVec.getLsbD_append, BitVec.getLsbD_extractLsb']
  split
  · simp [*]
  · split
    · rw [show 4 + (i - 4) = i by omega]; simp [*]
    · split
      · rw [show 8 + (i - 4 - 4) = i by omega]; simp [*]
      · rw [show 12 + (i - 4 - 4 - 4) = i by omega]; simp [show i - 4 - 4 - 4 < 4 by omega]

/-- A word is its family, X and NN. -/
theorem word_eq_xnn (op : Word) : op = fieldF op ++ fieldX op ++ fieldNN op := by
  refine BitVec.eq_of_getLsbD_eq fun i hi => ?_
  simp only [fieldF, fieldX, fieldNN, BitVec.getLsbD_append, BitVec.getLsbD_extractLsb']
  split
  · simp [*]
  · split
    · rw [show 8 + (i - 8) = i by omega]; simp [*]
    · rw [show 12 + (i - 8 - 4) = i by omega]; simp [show i - 8 - 4 < 4 by omega]

/-- A word is its family and NNN. -/
theorem word_eq_nnn (op : Word) : op = fieldF op ++ fieldNNN op := by
  refine BitVec.eq_of_getLsbD_eq fun i hi => ?_
  simp only [fieldF, fieldNNN, BitVec.getLsbD_append, BitVec.getLsbD_extractLsb']
  split
  · simp [*]
  · rw [show 12 + (i - 12) = i by omega]; simp [show i - 12 < 4 by omega]

/-- A word is its upper 12 bits and N. -/
theorem word_eq_low (op : Word) : op = op.extractLsb' 4 12 ++ fieldN op := by
  refine BitVec.eq_of_getLsbD_eq fun i hi => ?_
  simp only [fieldN, BitVec.getLsbD_append, BitVec.getLsbD_extractLsb']
  split
  · simp [*]
  · rw [show 4 + (i - 4) = i by omega]; simp [show i - 4 < 12 by omega]

/-- A word is made of its two bytes again. -/
@[simp] theorem wordOf_bytes (w : Word) : wordOf (w.extractLsb' 8 8) (w.extractLsb' 0 8) = w := by
  refine BitVec.eq_of_getLsbD_eq fun i hi => ?_
  simp only [wordOf, BitVec.getLsbD_append, BitVec.getLsbD_extractLsb']
  split
  · simp [*]
  · rw [show 8 + (i - 8) = i by omega]; simp [show i - 8 < 8 by omega]

/-- The high byte of a word made of two bytes. -/
@[simp] theorem high_wordOf (hi lo : Byte) : (wordOf hi lo).extractLsb' 8 8 = hi := by
  ext i hi
  simp only [wordOf, BitVec.getElem_extractLsb', BitVec.getLsbD_append]
  simp [BitVec.getLsbD_eq_getElem hi]

/-- The low byte of a word made of two bytes. -/
@[simp] theorem low_wordOf (hi lo : Byte) : (wordOf hi lo).extractLsb' 0 8 = lo := by
  ext i hi
  simp only [wordOf, BitVec.getElem_extractLsb', BitVec.getLsbD_append]
  simp [hi, BitVec.getLsbD_eq_getElem]

/-- Two words of bytes are equal exactly when their bytes are. -/
theorem wordOf_inj {a b c d : Byte} : wordOf a b = wordOf c d ↔ a = c ∧ b = d := by
  constructor
  · intro h
    have h1 := congrArg (BitVec.extractLsb' 8 8) h
    have h2 := congrArg (BitVec.extractLsb' 0 8) h
    simpa using And.intro h1 h2
  · rintro ⟨rfl, rfl⟩; rfl

end Sys2Proof
end

