-- ==== Sys2Proof/Laws/Decode.lean ====
section
/-! SUPPORT. The dispatch table and the opcode words say the same: what a row's own word is read as, and what a word that is
read as a row looks like. -/

namespace Sys2Proof

/-- The table reads the opcode of `i`, with its second word, as `i`. -/
theorem decodeRow_opcode (i : Instr) (w : Word) (h : ∀ k, i.operandWord = some k → w = k) :
    decodeRow i.opcode w = some i := by
  cases i with
  | plane n => clear h; revert n; simp only [Instr.opcode, decodeRow, fieldF_xnn, decodeFamilyF, fieldNN_xnn, decodePlane, fieldX_xnn]; decide
  | ldILong k =>
    rw [h k rfl]
    simp [Instr.opcode, decodeRow, decodeFamilyF, show fieldF 0xF000#16 = 0xF#4 by decide, show fieldNN 0xF000#16 = 0x00#8 by decide, show fieldX 0xF000#16 = 0#4 by decide]
  | _ => first | rfl | simp [Instr.opcode, decodeRow, decodeFamily0, decodeFamily5, decodeFamily8, decodeFamily9, decodeFamilyE, decodeFamilyF]

/-- So does the decoder of a configuration that accepts `i`. -/
theorem decodeWords_opcode {c} {i : Instr} (hi : i.WellFormed c) (w : Word) (h : ∀ k, i.operandWord = some k → w = k) :
    decodeWords c i.opcode w = some i := by
  simp [decodeWords, decodeRow_opcode i w h, show i.accepted c = true from hi]

/-- The opcode of a gated row is read as its instruction where the gate `p` stands open, and as none elsewhere. -/
theorem decodeWords_opcode_gate {c : Config} {i : Instr} {w : Word} {p : Prop} [Decidable p] (hp : i.accepted c = true ↔ p)
    (h : ∀ k, i.operandWord = some k → w = k) : decodeWords c i.opcode w = if p then some i else none := by
  simp [decodeWords, decodeRow_opcode i w h, hp]

/-- A word the table reads as `i` is the opcode of `i`, and a second word is read with 0xF000 alone. -/
theorem decodeRow_sound {op w : Word} {i : Instr} (h : decodeRow op w = some i) :
    i.opcode = op ∧ (i.operandWord = none ∨ (i.operandWord = some w ∧ op = 0xF000)) := by
  unfold decodeRow at h
  split at h
  case h_1 hf =>
    unfold decodeFamily0 at h
    (repeat' split at h) <;> cases h <;> refine ⟨?_, .inl rfl⟩ <;> simp only [Instr.opcode] <;> conv_rhs => rw [word_eq_low op]
    all_goals simp [*]
  case h_6 hf =>
    unfold decodeFamily5 at h
    (repeat' split at h) <;> cases h <;> refine ⟨?_, .inl rfl⟩ <;> simp only [Instr.opcode] <;> conv_rhs => rw [word_eq_nibbles op]
    all_goals simp [*]
  case h_9 hf =>
    unfold decodeFamily8 at h
    (repeat' split at h) <;> cases h <;> refine ⟨?_, .inl rfl⟩ <;> simp only [Instr.opcode] <;> conv_rhs => rw [word_eq_nibbles op]
    all_goals simp [*]
  case h_10 hf =>
    unfold decodeFamily9 at h
    (repeat' split at h) <;> cases h
    refine ⟨?_, .inl rfl⟩; simp only [Instr.opcode]; conv_rhs => rw [word_eq_nibbles op]
    simp [*]
  case h_15 hf =>
    unfold decodeFamilyE at h
    (repeat' split at h) <;> cases h <;> refine ⟨?_, .inl rfl⟩ <;> simp only [Instr.opcode] <;> conv_rhs => rw [word_eq_xnn op]
    all_goals simp [*]
  case h_14 hf =>
    cases h
    refine ⟨?_, .inl rfl⟩; simp only [Instr.opcode]; conv_rhs => rw [word_eq_nibbles op]
    simp [*]
  case h_16 h1 h2 h3 h4 h5 h6 h7 h8 h9 h10 h11 h12 h13 h14 h15 =>
    have hf : fieldF op = 0xF#4 := by
      generalize fieldF op = f at *; clear h; revert f; decide
    unfold decodeFamilyF decodePlane at h
    (repeat' split at h) <;> cases h
    case h_1.isTrue =>
      have e : op = 0xF000 := by rw [word_eq_xnn op]; simp [*]
      exact ⟨e.symm, .inr ⟨rfl, e⟩⟩
    case h_2.isTrue.refl hx =>
      refine ⟨?_, .inl rfl⟩
      simp only [Instr.opcode]; conv_rhs => rw [word_eq_xnn op]
      rw [hf]
      have : BitVec.setWidth 4 (BitVec.extractLsb' 0 2 (fieldX op)) = fieldX op := by
        generalize fieldX op = x at *; revert x; decide
      simp [*]
    all_goals refine ⟨?_, .inl rfl⟩; simp only [Instr.opcode]; conv_rhs => rw [word_eq_xnn op]
    all_goals simp [*]
  case h_2 | h_3 | h_11 | h_12 =>
    cases h
    refine ⟨?_, .inl rfl⟩; simp only [Instr.opcode]; conv_rhs => rw [word_eq_nnn op]
    simp [*]
  all_goals
    cases h
    refine ⟨?_, .inl rfl⟩; simp only [Instr.opcode]; conv_rhs => rw [word_eq_xnn op]
    simp [*]

/-- The words of four bytes. -/
theorem isLong_iff (c : Config) (op : Word) : isLong c op = true ↔ c.extXo = true ∧ op = 0xF000 := by simp [isLong]

/-- The opcode of an instruction is 0xF000 only for the long load -/
theorem opcode_long {i : Instr} : i.opcode = 0xF000 ↔ ∃ k, i = .ldILong k := by
  constructor
  · intro h
    by_cases hk : ∃ k, i = .ldILong k
    · exact hk
    · have hn : i.operandWord = none := by cases i <;> simp_all [Instr.operandWord]
      have := decodeRow_opcode i 0 (by simp [hn])
      rw [h] at this
      exact ⟨0, Option.some.inj (this.symm.trans (decodeRow_opcode (.ldILong 0) 0 (by simp [Instr.operandWord])))⟩
  · rintro ⟨k, rfl⟩; rfl

/-- What the decoder reads, the table reads and the configuration accepts. -/
theorem decodeWords_eq_some {c : Config} {op w : Word} {i : Instr} (h : decodeWords c op w = some i) :
    i.WellFormed c ∧ decodeRow op w = some i := by
  unfold decodeWords at h
  split at h
  · rename_i j hj
    split at h <;> cases h
    exact ⟨‹_›, hj⟩
  · cases h

end Sys2Proof
end

