-- ==== Sys2Proof/Laws/Memory.lean ====
section
/-! SUPPORT. The laws of memory: what a read gives after a write, that every operation keeps the canonical form and the
bounds of memory, and what the bounds check answers. -/

namespace Sys2Proof.Machine

@[simp] theorem Memory.read_nil (a : Nat) : Memory.read [] a = Memory.unlisted a := rfl

theorem Memory.read_cons (k : Nat) (b : Byte) (m : Memory) (a : Nat) :
    Memory.read ((k, b) :: m) a = if k = a then b else Memory.read m a := rfl

/-! ### One byte -/

theorem Memory.read_filter_ne (m : Memory) {a a' : Nat} (h : a' ≠ a) :
    Memory.read (m.filter fun cell => cell.1 ≠ a) a' = Memory.read m a' := by
  induction m with
  | nil => rfl
  | cons cell m ih =>
    obtain ⟨k, b⟩ := cell
    by_cases hk : k = a
    · subst hk
      simp only [ne_eq, decide_not] at ih
      simp [Memory.read_cons, ih, h.symm]
    · simp only [ne_eq, decide_not] at ih
      simp [Memory.read_cons, hk, ih]

theorem Memory.read_filter_self (m : Memory) (a : Nat) :
    Memory.read (m.filter fun cell => cell.1 ≠ a) a = Memory.unlisted a := by
  induction m with
  | nil => rfl
  | cons cell m ih =>
    obtain ⟨k, b⟩ := cell
    simp only [ne_eq, decide_not] at ih
    by_cases hk : k = a <;> simp [Memory.read_cons, hk, ih]

theorem Memory.read_insert (m : Memory) (a : Nat) (b : Byte) (a' : Nat) (hm : ∀ p ∈ m, p.1 ≠ a) :
    (Memory.insert a b m).read a' = if a = a' then b else m.read a' := by
  induction m with
  | nil => rfl
  | cons cell m ih =>
    obtain ⟨k, c⟩ := cell
    have hk : k ≠ a := hm (k, c) (by simp)
    have ih := ih fun p hp => hm p (List.mem_cons_of_mem _ hp)
    unfold Memory.insert
    split
    · rfl
    · rw [Memory.read_cons, ih, Memory.read_cons]
      by_cases h : k = a'
      · subst h; simp [hk.symm]
      · simp [h]

/-- A read after a write: the byte written at its address, the old byte everywhere else. -/
theorem Memory.read_write (m : Memory) (a : Nat) (b : Byte) (a' : Nat) :
    (m.write a b).read a' = if a = a' then b else m.read a' := by
  unfold Memory.write
  by_cases h : a = a'
  · subst h
    by_cases hb : b = Memory.unlisted a
    · simp only [hb, if_true, Memory.read_filter_self]
    · simp only [hb, if_false]
      rw [Memory.read_insert _ _ _ _ (by intro p hp; simpa using (List.mem_filter.1 hp).2)]
      simp
  · by_cases hb : b = Memory.unlisted a
    · simp only [hb, if_true, h, if_false]
      exact Memory.read_filter_ne m (Ne.symm h)
    · simp only [hb, if_false]
      rw [Memory.read_insert _ _ _ _ (by intro p hp; simpa using (List.mem_filter.1 hp).2)]
      simp only [h, if_false]
      exact Memory.read_filter_ne m (Ne.symm h)

@[simp] theorem Memory.read_write_self (m : Memory) (a : Nat) (b : Byte) : (m.write a b).read a = b := by
  simp [Memory.read_write]

theorem Memory.read_write_ne (m : Memory) {a a' : Nat} (b : Byte) (h : a' ≠ a) :
    (m.write a b).read a' = m.read a' := by
  simp [Memory.read_write, h.symm]

/-! ### Several bytes -/

/-- A read after storing the bytes `bs` from `a` up. -/
theorem Memory.read_writeBytes (m : Memory) (a : Nat) (bs : List Byte) (a' : Nat) :
    (m.writeBytes a bs).read a' =
      if h : a ≤ a' ∧ a' < a + bs.length then bs[a' - a]'(by omega) else m.read a' := by
  induction bs generalizing m a with
  | nil =>
    have h : ¬ (a ≤ a' ∧ a' < a + ([] : List Byte).length) := by simp
    simp only [h]
    rfl
  | cons b bs ih =>
    show (Memory.writeBytes (m.write a b) (a + 1) bs).read a' = _
    rw [ih, Memory.read_write]
    rcases Nat.lt_trichotomy a' a with h | h | h
    · simp [show ¬ (a + 1 ≤ a') by omega, show ¬ (a ≤ a') by omega, show ¬ (a = a') by omega]
    · subst h; simp
    · have e : a' - a = (a' - (a + 1)) + 1 := by omega
      by_cases h2 : a' < a + 1 + bs.length
      · simp [show a + 1 ≤ a' by omega, h2, show a ≤ a' by omega, show a' < a + (bs.length + 1) by omega, e]
      · simp [h2, show ¬ (a' < a + (bs.length + 1)) by omega, show ¬ (a = a') by omega]

theorem Memory.read_writeBytes_outside (m : Memory) {a a' : Nat} {bs : List Byte}
    (h : a' < a ∨ a + bs.length ≤ a') : (m.writeBytes a bs).read a' = m.read a' := by
  rw [Memory.read_writeBytes, dif_neg (by omega)]

theorem Memory.read_writeBytes_inside (m : Memory) (a : Nat) (bs : List Byte) (k : Nat) (h : k < bs.length) :
    (m.writeBytes a bs).read (a + k) = bs[k] := by
  rw [Memory.read_writeBytes, dif_pos (by omega)]
  simp

@[simp] theorem Memory.length_readBytes (m : Memory) (a n : Nat) : (m.readBytes a n).length = n := by
  induction n generalizing a with
  | zero => rfl
  | succ n ih => simp [Memory.readBytes, ih]

@[simp] theorem Memory.getElem_readBytes (m : Memory) (a n k : Nat) (h : k < (m.readBytes a n).length) :
    (m.readBytes a n)[k] = m.read (a + k) := by
  induction n generalizing a k with
  | zero => simp at h
  | succ n ih =>
    cases k with
    | zero => simp [Memory.readBytes]
    | succ k =>
      have h' : k < (m.readBytes (a + 1) n).length := by simpa [Memory.readBytes] using h
      simp only [Memory.readBytes, List.getElem_cons_succ, ih (a + 1) k h']
      congr 1; omega

/-! ### The canonical form -/

theorem Memory.mem_insert (m : Memory) (a : Nat) (b : Byte) (p : Host.Cell) :
    p ∈ Memory.insert a b m ↔ p = (a, b) ∨ p ∈ m := by
  induction m with
  | nil => simp [Memory.insert]
  | cons cell m ih =>
    obtain ⟨k, c⟩ := cell
    unfold Memory.insert
    split
    · simp
    · simp only [List.mem_cons, ih]; tauto

/-- What a write lists: the new cell, or a cell of another address that was listed. -/
theorem Memory.mem_write {m : Memory} {a : Nat} {b : Byte} {p : Host.Cell} (h : p ∈ m.write a b) :
    (p = (a, b) ∧ b ≠ Memory.unlisted a) ∨ (p ∈ m ∧ p.1 ≠ a) := by
  unfold Memory.write at h
  by_cases hb : b = Memory.unlisted a
  · simp only [hb, if_true] at h
    right; simpa using List.mem_filter.1 h
  · simp only [hb, if_false, Memory.mem_insert] at h
    rcases h with h | h
    · exact .inl ⟨h, hb⟩
    · right; simpa using List.mem_filter.1 h

theorem Memory.pairwise_insert (m : Memory) (a : Nat) (b : Byte) (hm : m.Pairwise fun p q => p.1 < q.1)
    (ha : ∀ p ∈ m, p.1 ≠ a) : (Memory.insert a b m).Pairwise fun p q => p.1 < q.1 := by
  induction m with
  | nil => simp [Memory.insert]
  | cons cell m ih =>
    obtain ⟨k, c⟩ := cell
    rw [List.pairwise_cons] at hm
    have hk : k ≠ a := ha (k, c) (by simp)
    unfold Memory.insert
    split
    case isTrue h =>
      refine List.pairwise_cons.2 ⟨fun p hp => ?_, List.pairwise_cons.2 hm⟩
      rcases List.mem_cons.1 hp with rfl | hp
      · exact h
      · exact h.trans (hm.1 p hp)
    case isFalse h =>
      refine List.pairwise_cons.2 ⟨fun p hp => ?_, ih hm.2 fun p hp => ha p (List.mem_cons_of_mem _ hp)⟩
      rcases (Memory.mem_insert m a b p).1 hp with rfl | hp
      · show k < a; omega
      · exact hm.1 p hp

/-- A write keeps the canonical form. -/
theorem Memory.wf_write {m : Memory} (h : m.wf) (a : Nat) (b : Byte) : (m.write a b).wf := by
  refine ⟨?_, fun p hp => ?_⟩
  · unfold Memory.write
    by_cases hb : b = Memory.unlisted a
    · simp only [hb, if_true]; exact h.1.filter _
    · simp only [hb, if_false]
      exact Memory.pairwise_insert _ a b (h.1.filter _) fun p hp => by simpa using (List.mem_filter.1 hp).2
  · rcases Memory.mem_write hp with ⟨rfl, hb⟩ | ⟨hp, _⟩
    · exact hb
    · exact h.2 p hp

theorem Memory.wf_writeBytes {m : Memory} (h : m.wf) (a : Nat) (bs : List Byte) : (m.writeBytes a bs).wf := by
  induction bs generalizing m a with
  | nil => exact h
  | cons b bs ih => exact ih (Memory.wf_write h a b) (a + 1)

@[simp] theorem Memory.wf_nil : Memory.wf [] := by simp [Memory.wf]

/-- What is not listed reads as the content at reset. -/
theorem Memory.read_of_not_listed {m : Memory} {a : Nat} (h : ∀ p ∈ m, p.1 ≠ a) : m.read a = Memory.unlisted a := by
  induction m with
  | nil => rfl
  | cons cell m ih =>
    obtain ⟨k, c⟩ := cell
    rw [Memory.read_cons, if_neg (h (k, c) (by simp)), ih fun p hp => h p (List.mem_cons_of_mem _ hp)]

/-- A canonical memory lists exactly the bytes that differ from their content at reset. -/
theorem Memory.mem_iff_of_wf {m : Memory} (h : m.wf) (a : Nat) (b : Byte) :
    (a, b) ∈ m ↔ m.read a = b ∧ b ≠ Memory.unlisted a := by
  induction m with
  | nil => simpa using Eq.symm
  | cons cell m ih =>
    obtain ⟨k, c⟩ := cell
    have hp := List.pairwise_cons.1 h.1
    rw [List.mem_cons, ih ⟨hp.2, fun q hq => h.2 q (List.mem_cons_of_mem _ hq)⟩, Memory.read_cons]
    by_cases hk : k = a
    · subst hk
      have hu : Memory.read m k = Memory.unlisted k :=
        Memory.read_of_not_listed fun p hq => by have := hp.1 p hq; simp only at this; omega
      have hc := h.2 (k, c) (by simp)
      simp only [Prod.mk.injEq, true_and, hu, if_true]
      constructor
      · rintro (rfl | ⟨h1, h2⟩)
        · exact ⟨rfl, hc⟩
        · exact absurd h1.symm h2
      · rintro ⟨rfl, _⟩; exact .inl rfl
    · simp [hk, Ne.symm hk]

/-- Two canonical memories that read the same are equal. -/
theorem Memory.ext_of_wf {m m' : Memory} (h : m.wf) (h' : m'.wf) (e : ∀ a, m.read a = m'.read a) : m = m' := by
  have lt_trans : ∀ {l : Memory}, l.wf → l.Nodup := fun hl =>
    hl.1.imp fun hlt heq => by subst heq; exact lt_irrefl _ hlt
  have hp : m.Perm m' := (List.perm_ext_iff_of_nodup (lt_trans h) (lt_trans h')).2 fun p => by
    rw [Memory.mem_iff_of_wf h, Memory.mem_iff_of_wf h', e]
  exact hp.eq_of_pairwise (fun p q _ _ h1 h2 => absurd (h1.trans h2) (lt_irrefl _)) h.1 h'.1

/-! ### Bounds -/

/-- A write inside the memory lists no address outside it. -/
theorem Memory.bound_writeBytes {m : Memory} {size a : Nat} {bs : List Byte} (h : ∀ p ∈ m, p.1 < size)
    (hb : bs = [] ∨ a + bs.length ≤ size) : ∀ p ∈ m.writeBytes a bs, p.1 < size := by
  induction bs generalizing m a with
  | nil => exact h
  | cons b bs ih =>
    have hb : a + (bs.length + 1) ≤ size := by simpa using hb
    refine ih (fun p hp => ?_) (.inr (by omega))
    rcases Memory.mem_write hp with ⟨rfl, _⟩ | ⟨hp, _⟩
    · show a < size; omega
    · exact h p hp

/-- The bounds check passes exactly when every byte of the access is in memory (R61). -/
theorem firstOutOfRange_eq_none {size base n : Nat} :
    firstOutOfRange size base n = none ↔ ∀ k < n, base + k < size := by
  unfold firstOutOfRange
  split
  · simp [*]
  · split
    · simp only [true_iff]; intro k hk; omega
    · simp only [reduceCtorEq, false_iff, not_forall]
      exact ⟨n - 1, by omega, by omega⟩

/-- The bounds check answers the lowest failing address (R61, R163). -/
theorem firstOutOfRange_eq_some {size base n bad : Nat} :
    firstOutOfRange size base n = some bad ↔
      ∃ k < n, bad = base + k ∧ size ≤ base + k ∧ ∀ j < k, base + j < size := by
  unfold firstOutOfRange
  split
  · simp [*]
  · split
    · simp only [reduceCtorEq, false_iff, not_exists, not_and]; intro k hk _ h; omega
    · simp only [Option.some.injEq]
      constructor
      · rintro rfl
        exact ⟨max base size - base, by omega, by omega, by omega, fun j hj => by omega⟩
      · rintro ⟨k, hk, rfl, hs, hj⟩
        rcases Nat.eq_zero_or_pos k with rfl | hpos
        · omega
        · have := hj (k - 1) (by omega); omega

end Sys2Proof.Machine
end

