-- ==== Sys2Proof/Laws/State.lean ====
section
/-! SUPPORT. What each named update of the state does to each field, so that no later proof unfolds a record update: one
lemma per field for the plain updates, one equation for an update that depends on the configuration or on a condition. -/

namespace Sys2Proof.Machine

variable (s : State)

@[simp] theorem State.raise_cfg (reason : HaltReason) (info : HaltInfo) : (s.raise reason info).cfg = s.cfg := rfl
@[simp] theorem State.raise_v (reason : HaltReason) (info : HaltInfo) : (s.raise reason info).v = s.v := rfl
@[simp] theorem State.raise_i (reason : HaltReason) (info : HaltInfo) : (s.raise reason info).i = s.i := rfl
@[simp] theorem State.raise_pc (reason : HaltReason) (info : HaltInfo) : (s.raise reason info).pc = s.pc := rfl
@[simp] theorem State.raise_sp (reason : HaltReason) (info : HaltInfo) : (s.raise reason info).sp = s.sp := rfl
@[simp] theorem State.raise_stack (reason : HaltReason) (info : HaltInfo) : (s.raise reason info).stack = s.stack := rfl
@[simp] theorem State.raise_dt (reason : HaltReason) (info : HaltInfo) : (s.raise reason info).dt = s.dt := rfl
@[simp] theorem State.raise_st (reason : HaltReason) (info : HaltInfo) : (s.raise reason info).st = s.st := rfl
@[simp] theorem State.raise_audio (reason : HaltReason) (info : HaltInfo) : (s.raise reason info).audio = s.audio := rfl
@[simp] theorem State.raise_pitch (reason : HaltReason) (info : HaltInfo) : (s.raise reason info).pitch = s.pitch := rfl
@[simp] theorem State.raise_res (reason : HaltReason) (info : HaltInfo) : (s.raise reason info).res = s.res := rfl
@[simp] theorem State.raise_fb (reason : HaltReason) (info : HaltInfo) : (s.raise reason info).fb = s.fb := rfl
@[simp] theorem State.raise_planeMask (reason : HaltReason) (info : HaltInfo) : (s.raise reason info).planeMask = s.planeMask := rfl
@[simp] theorem State.raise_key (reason : HaltReason) (info : HaltInfo) : (s.raise reason info).key = s.key := rfl
@[simp] theorem State.raise_kwX (reason : HaltReason) (info : HaltInfo) : (s.raise reason info).kwX = s.kwX := rfl
@[simp] theorem State.raise_kwArmed (reason : HaltReason) (info : HaltInfo) : (s.raise reason info).kwArmed = s.kwArmed := rfl
@[simp] theorem State.raise_kwLatch (reason : HaltReason) (info : HaltInfo) : (s.raise reason info).kwLatch = s.kwLatch := rfl
@[simp] theorem State.raise_status (reason : HaltReason) (info : HaltInfo) : (s.raise reason info).status = .halted := rfl
@[simp] theorem State.raise_haltReason (reason : HaltReason) (info : HaltInfo) : (s.raise reason info).haltReason = reason := rfl
@[simp] theorem State.raise_haltInfo (reason : HaltReason) (info : HaltInfo) : (s.raise reason info).haltInfo = info := rfl
@[simp] theorem State.raise_faultLog (reason : HaltReason) (info : HaltInfo) : (s.raise reason info).faultLog = s.faultLog ++ [(reason, info)] := rfl
@[simp] theorem State.raise_rpl (reason : HaltReason) (info : HaltInfo) : (s.raise reason info).rpl = s.rpl := rfl
@[simp] theorem State.raise_mem (reason : HaltReason) (info : HaltInfo) : (s.raise reason info).mem = s.mem := rfl
@[simp] theorem State.raise_rndCount (reason : HaltReason) (info : HaltInfo) : (s.raise reason info).rndCount = s.rndCount := rfl

@[simp] theorem State.setV_cfg (x : Nibble) (b : Byte) : (s.setV x b).cfg = s.cfg := rfl
@[simp] theorem State.setV_v (x : Nibble) (b : Byte) : (s.setV x b).v = s.v.set x.toNat b x.isLt := rfl
@[simp] theorem State.setV_i (x : Nibble) (b : Byte) : (s.setV x b).i = s.i := rfl
@[simp] theorem State.setV_pc (x : Nibble) (b : Byte) : (s.setV x b).pc = s.pc := rfl
@[simp] theorem State.setV_sp (x : Nibble) (b : Byte) : (s.setV x b).sp = s.sp := rfl
@[simp] theorem State.setV_stack (x : Nibble) (b : Byte) : (s.setV x b).stack = s.stack := rfl
@[simp] theorem State.setV_dt (x : Nibble) (b : Byte) : (s.setV x b).dt = s.dt := rfl
@[simp] theorem State.setV_st (x : Nibble) (b : Byte) : (s.setV x b).st = s.st := rfl
@[simp] theorem State.setV_audio (x : Nibble) (b : Byte) : (s.setV x b).audio = s.audio := rfl
@[simp] theorem State.setV_pitch (x : Nibble) (b : Byte) : (s.setV x b).pitch = s.pitch := rfl
@[simp] theorem State.setV_res (x : Nibble) (b : Byte) : (s.setV x b).res = s.res := rfl
@[simp] theorem State.setV_fb (x : Nibble) (b : Byte) : (s.setV x b).fb = s.fb := rfl
@[simp] theorem State.setV_planeMask (x : Nibble) (b : Byte) : (s.setV x b).planeMask = s.planeMask := rfl
@[simp] theorem State.setV_key (x : Nibble) (b : Byte) : (s.setV x b).key = s.key := rfl
@[simp] theorem State.setV_kwX (x : Nibble) (b : Byte) : (s.setV x b).kwX = s.kwX := rfl
@[simp] theorem State.setV_kwArmed (x : Nibble) (b : Byte) : (s.setV x b).kwArmed = s.kwArmed := rfl
@[simp] theorem State.setV_kwLatch (x : Nibble) (b : Byte) : (s.setV x b).kwLatch = s.kwLatch := rfl
@[simp] theorem State.setV_status (x : Nibble) (b : Byte) : (s.setV x b).status = s.status := rfl
@[simp] theorem State.setV_haltReason (x : Nibble) (b : Byte) : (s.setV x b).haltReason = s.haltReason := rfl
@[simp] theorem State.setV_haltInfo (x : Nibble) (b : Byte) : (s.setV x b).haltInfo = s.haltInfo := rfl
@[simp] theorem State.setV_faultLog (x : Nibble) (b : Byte) : (s.setV x b).faultLog = s.faultLog := rfl
@[simp] theorem State.setV_rpl (x : Nibble) (b : Byte) : (s.setV x b).rpl = s.rpl := rfl
@[simp] theorem State.setV_mem (x : Nibble) (b : Byte) : (s.setV x b).mem = s.mem := rfl
@[simp] theorem State.setV_rndCount (x : Nibble) (b : Byte) : (s.setV x b).rndCount = s.rndCount := rfl

@[simp] theorem State.setFlag_cfg (f : Bool) : (s.setFlag f).cfg = s.cfg := rfl
@[simp] theorem State.setFlag_v (f : Bool) : (s.setFlag f).v = s.v.set 15 (if f then 1 else 0) := rfl
@[simp] theorem State.setFlag_i (f : Bool) : (s.setFlag f).i = s.i := rfl
@[simp] theorem State.setFlag_pc (f : Bool) : (s.setFlag f).pc = s.pc := rfl
@[simp] theorem State.setFlag_sp (f : Bool) : (s.setFlag f).sp = s.sp := rfl
@[simp] theorem State.setFlag_stack (f : Bool) : (s.setFlag f).stack = s.stack := rfl
@[simp] theorem State.setFlag_dt (f : Bool) : (s.setFlag f).dt = s.dt := rfl
@[simp] theorem State.setFlag_st (f : Bool) : (s.setFlag f).st = s.st := rfl
@[simp] theorem State.setFlag_audio (f : Bool) : (s.setFlag f).audio = s.audio := rfl
@[simp] theorem State.setFlag_pitch (f : Bool) : (s.setFlag f).pitch = s.pitch := rfl
@[simp] theorem State.setFlag_res (f : Bool) : (s.setFlag f).res = s.res := rfl
@[simp] theorem State.setFlag_fb (f : Bool) : (s.setFlag f).fb = s.fb := rfl
@[simp] theorem State.setFlag_planeMask (f : Bool) : (s.setFlag f).planeMask = s.planeMask := rfl
@[simp] theorem State.setFlag_key (f : Bool) : (s.setFlag f).key = s.key := rfl
@[simp] theorem State.setFlag_kwX (f : Bool) : (s.setFlag f).kwX = s.kwX := rfl
@[simp] theorem State.setFlag_kwArmed (f : Bool) : (s.setFlag f).kwArmed = s.kwArmed := rfl
@[simp] theorem State.setFlag_kwLatch (f : Bool) : (s.setFlag f).kwLatch = s.kwLatch := rfl
@[simp] theorem State.setFlag_status (f : Bool) : (s.setFlag f).status = s.status := rfl
@[simp] theorem State.setFlag_haltReason (f : Bool) : (s.setFlag f).haltReason = s.haltReason := rfl
@[simp] theorem State.setFlag_haltInfo (f : Bool) : (s.setFlag f).haltInfo = s.haltInfo := rfl
@[simp] theorem State.setFlag_faultLog (f : Bool) : (s.setFlag f).faultLog = s.faultLog := rfl
@[simp] theorem State.setFlag_rpl (f : Bool) : (s.setFlag f).rpl = s.rpl := rfl
@[simp] theorem State.setFlag_mem (f : Bool) : (s.setFlag f).mem = s.mem := rfl
@[simp] theorem State.setFlag_rndCount (f : Bool) : (s.setFlag f).rndCount = s.rndCount := rfl

@[simp] theorem State.setResultAndFlag_cfg (x : Nibble) (r : Byte) (f : Bool) : (s.setResultAndFlag x r f).cfg = s.cfg := rfl
@[simp] theorem State.setResultAndFlag_v (x : Nibble) (r : Byte) (f : Bool) : (s.setResultAndFlag x r f).v = (s.v.set x.toNat r x.isLt).set 15 (if f then 1 else 0) := rfl
@[simp] theorem State.setResultAndFlag_i (x : Nibble) (r : Byte) (f : Bool) : (s.setResultAndFlag x r f).i = s.i := rfl
@[simp] theorem State.setResultAndFlag_pc (x : Nibble) (r : Byte) (f : Bool) : (s.setResultAndFlag x r f).pc = s.pc := rfl
@[simp] theorem State.setResultAndFlag_sp (x : Nibble) (r : Byte) (f : Bool) : (s.setResultAndFlag x r f).sp = s.sp := rfl
@[simp] theorem State.setResultAndFlag_stack (x : Nibble) (r : Byte) (f : Bool) : (s.setResultAndFlag x r f).stack = s.stack := rfl
@[simp] theorem State.setResultAndFlag_dt (x : Nibble) (r : Byte) (f : Bool) : (s.setResultAndFlag x r f).dt = s.dt := rfl
@[simp] theorem State.setResultAndFlag_st (x : Nibble) (r : Byte) (f : Bool) : (s.setResultAndFlag x r f).st = s.st := rfl
@[simp] theorem State.setResultAndFlag_audio (x : Nibble) (r : Byte) (f : Bool) : (s.setResultAndFlag x r f).audio = s.audio := rfl
@[simp] theorem State.setResultAndFlag_pitch (x : Nibble) (r : Byte) (f : Bool) : (s.setResultAndFlag x r f).pitch = s.pitch := rfl
@[simp] theorem State.setResultAndFlag_res (x : Nibble) (r : Byte) (f : Bool) : (s.setResultAndFlag x r f).res = s.res := rfl
@[simp] theorem State.setResultAndFlag_fb (x : Nibble) (r : Byte) (f : Bool) : (s.setResultAndFlag x r f).fb = s.fb := rfl
@[simp] theorem State.setResultAndFlag_planeMask (x : Nibble) (r : Byte) (f : Bool) : (s.setResultAndFlag x r f).planeMask = s.planeMask := rfl
@[simp] theorem State.setResultAndFlag_key (x : Nibble) (r : Byte) (f : Bool) : (s.setResultAndFlag x r f).key = s.key := rfl
@[simp] theorem State.setResultAndFlag_kwX (x : Nibble) (r : Byte) (f : Bool) : (s.setResultAndFlag x r f).kwX = s.kwX := rfl
@[simp] theorem State.setResultAndFlag_kwArmed (x : Nibble) (r : Byte) (f : Bool) : (s.setResultAndFlag x r f).kwArmed = s.kwArmed := rfl
@[simp] theorem State.setResultAndFlag_kwLatch (x : Nibble) (r : Byte) (f : Bool) : (s.setResultAndFlag x r f).kwLatch = s.kwLatch := rfl
@[simp] theorem State.setResultAndFlag_status (x : Nibble) (r : Byte) (f : Bool) : (s.setResultAndFlag x r f).status = s.status := rfl
@[simp] theorem State.setResultAndFlag_haltReason (x : Nibble) (r : Byte) (f : Bool) : (s.setResultAndFlag x r f).haltReason = s.haltReason := rfl
@[simp] theorem State.setResultAndFlag_haltInfo (x : Nibble) (r : Byte) (f : Bool) : (s.setResultAndFlag x r f).haltInfo = s.haltInfo := rfl
@[simp] theorem State.setResultAndFlag_faultLog (x : Nibble) (r : Byte) (f : Bool) : (s.setResultAndFlag x r f).faultLog = s.faultLog := rfl
@[simp] theorem State.setResultAndFlag_rpl (x : Nibble) (r : Byte) (f : Bool) : (s.setResultAndFlag x r f).rpl = s.rpl := rfl
@[simp] theorem State.setResultAndFlag_mem (x : Nibble) (r : Byte) (f : Bool) : (s.setResultAndFlag x r f).mem = s.mem := rfl
@[simp] theorem State.setResultAndFlag_rndCount (x : Nibble) (r : Byte) (f : Bool) : (s.setResultAndFlag x r f).rndCount = s.rndCount := rfl

@[simp] theorem State.clearScreen_cfg : (s.clearScreen).cfg = s.cfg := rfl
@[simp] theorem State.clearScreen_v : (s.clearScreen).v = s.v := rfl
@[simp] theorem State.clearScreen_i : (s.clearScreen).i = s.i := rfl
@[simp] theorem State.clearScreen_pc : (s.clearScreen).pc = s.pc := rfl
@[simp] theorem State.clearScreen_sp : (s.clearScreen).sp = s.sp := rfl
@[simp] theorem State.clearScreen_stack : (s.clearScreen).stack = s.stack := rfl
@[simp] theorem State.clearScreen_dt : (s.clearScreen).dt = s.dt := rfl
@[simp] theorem State.clearScreen_st : (s.clearScreen).st = s.st := rfl
@[simp] theorem State.clearScreen_audio : (s.clearScreen).audio = s.audio := rfl
@[simp] theorem State.clearScreen_pitch : (s.clearScreen).pitch = s.pitch := rfl
@[simp] theorem State.clearScreen_res : (s.clearScreen).res = s.res := rfl
@[simp] theorem State.clearScreen_fb : (s.clearScreen).fb = s.fb.mapPlanes (Plane.clear s.res.width s.res.height) s.selectedPlanes := rfl
@[simp] theorem State.clearScreen_planeMask : (s.clearScreen).planeMask = s.planeMask := rfl
@[simp] theorem State.clearScreen_key : (s.clearScreen).key = s.key := rfl
@[simp] theorem State.clearScreen_kwX : (s.clearScreen).kwX = s.kwX := rfl
@[simp] theorem State.clearScreen_kwArmed : (s.clearScreen).kwArmed = s.kwArmed := rfl
@[simp] theorem State.clearScreen_kwLatch : (s.clearScreen).kwLatch = s.kwLatch := rfl
@[simp] theorem State.clearScreen_status : (s.clearScreen).status = s.status := rfl
@[simp] theorem State.clearScreen_haltReason : (s.clearScreen).haltReason = s.haltReason := rfl
@[simp] theorem State.clearScreen_haltInfo : (s.clearScreen).haltInfo = s.haltInfo := rfl
@[simp] theorem State.clearScreen_faultLog : (s.clearScreen).faultLog = s.faultLog := rfl
@[simp] theorem State.clearScreen_rpl : (s.clearScreen).rpl = s.rpl := rfl
@[simp] theorem State.clearScreen_mem : (s.clearScreen).mem = s.mem := rfl
@[simp] theorem State.clearScreen_rndCount : (s.clearScreen).rndCount = s.rndCount := rfl

@[simp] theorem State.scroll_cfg (dir : Direction) (n : Nat) : (s.scroll dir n).cfg = s.cfg := rfl
@[simp] theorem State.scroll_v (dir : Direction) (n : Nat) : (s.scroll dir n).v = s.v := rfl
@[simp] theorem State.scroll_i (dir : Direction) (n : Nat) : (s.scroll dir n).i = s.i := rfl
@[simp] theorem State.scroll_pc (dir : Direction) (n : Nat) : (s.scroll dir n).pc = s.pc := rfl
@[simp] theorem State.scroll_sp (dir : Direction) (n : Nat) : (s.scroll dir n).sp = s.sp := rfl
@[simp] theorem State.scroll_stack (dir : Direction) (n : Nat) : (s.scroll dir n).stack = s.stack := rfl
@[simp] theorem State.scroll_dt (dir : Direction) (n : Nat) : (s.scroll dir n).dt = s.dt := rfl
@[simp] theorem State.scroll_st (dir : Direction) (n : Nat) : (s.scroll dir n).st = s.st := rfl
@[simp] theorem State.scroll_audio (dir : Direction) (n : Nat) : (s.scroll dir n).audio = s.audio := rfl
@[simp] theorem State.scroll_pitch (dir : Direction) (n : Nat) : (s.scroll dir n).pitch = s.pitch := rfl
@[simp] theorem State.scroll_res (dir : Direction) (n : Nat) : (s.scroll dir n).res = s.res := rfl
@[simp] theorem State.scroll_fb (dir : Direction) (n : Nat) : (s.scroll dir n).fb = s.fb.mapPlanes (Plane.scroll s.res.width s.res.height dir n) s.selectedPlanes := rfl
@[simp] theorem State.scroll_planeMask (dir : Direction) (n : Nat) : (s.scroll dir n).planeMask = s.planeMask := rfl
@[simp] theorem State.scroll_key (dir : Direction) (n : Nat) : (s.scroll dir n).key = s.key := rfl
@[simp] theorem State.scroll_kwX (dir : Direction) (n : Nat) : (s.scroll dir n).kwX = s.kwX := rfl
@[simp] theorem State.scroll_kwArmed (dir : Direction) (n : Nat) : (s.scroll dir n).kwArmed = s.kwArmed := rfl
@[simp] theorem State.scroll_kwLatch (dir : Direction) (n : Nat) : (s.scroll dir n).kwLatch = s.kwLatch := rfl
@[simp] theorem State.scroll_status (dir : Direction) (n : Nat) : (s.scroll dir n).status = s.status := rfl
@[simp] theorem State.scroll_haltReason (dir : Direction) (n : Nat) : (s.scroll dir n).haltReason = s.haltReason := rfl
@[simp] theorem State.scroll_haltInfo (dir : Direction) (n : Nat) : (s.scroll dir n).haltInfo = s.haltInfo := rfl
@[simp] theorem State.scroll_faultLog (dir : Direction) (n : Nat) : (s.scroll dir n).faultLog = s.faultLog := rfl
@[simp] theorem State.scroll_rpl (dir : Direction) (n : Nat) : (s.scroll dir n).rpl = s.rpl := rfl
@[simp] theorem State.scroll_mem (dir : Direction) (n : Nat) : (s.scroll dir n).mem = s.mem := rfl
@[simp] theorem State.scroll_rndCount (dir : Direction) (n : Nat) : (s.scroll dir n).rndCount = s.rndCount := rfl

@[simp] theorem State.setResolution_cfg (r : Resolution) : (s.setResolution r).cfg = s.cfg := rfl
@[simp] theorem State.setResolution_v (r : Resolution) : (s.setResolution r).v = s.v := rfl
@[simp] theorem State.setResolution_i (r : Resolution) : (s.setResolution r).i = s.i := rfl
@[simp] theorem State.setResolution_pc (r : Resolution) : (s.setResolution r).pc = s.pc := rfl
@[simp] theorem State.setResolution_sp (r : Resolution) : (s.setResolution r).sp = s.sp := rfl
@[simp] theorem State.setResolution_stack (r : Resolution) : (s.setResolution r).stack = s.stack := rfl
@[simp] theorem State.setResolution_dt (r : Resolution) : (s.setResolution r).dt = s.dt := rfl
@[simp] theorem State.setResolution_st (r : Resolution) : (s.setResolution r).st = s.st := rfl
@[simp] theorem State.setResolution_audio (r : Resolution) : (s.setResolution r).audio = s.audio := rfl
@[simp] theorem State.setResolution_pitch (r : Resolution) : (s.setResolution r).pitch = s.pitch := rfl
@[simp] theorem State.setResolution_res (r : Resolution) : (s.setResolution r).res = r := rfl
@[simp] theorem State.setResolution_fb (r : Resolution) : (s.setResolution r).fb = FrameBuffer.blank := rfl
@[simp] theorem State.setResolution_planeMask (r : Resolution) : (s.setResolution r).planeMask = s.planeMask := rfl
@[simp] theorem State.setResolution_key (r : Resolution) : (s.setResolution r).key = s.key := rfl
@[simp] theorem State.setResolution_kwX (r : Resolution) : (s.setResolution r).kwX = s.kwX := rfl
@[simp] theorem State.setResolution_kwArmed (r : Resolution) : (s.setResolution r).kwArmed = s.kwArmed := rfl
@[simp] theorem State.setResolution_kwLatch (r : Resolution) : (s.setResolution r).kwLatch = s.kwLatch := rfl
@[simp] theorem State.setResolution_status (r : Resolution) : (s.setResolution r).status = s.status := rfl
@[simp] theorem State.setResolution_haltReason (r : Resolution) : (s.setResolution r).haltReason = s.haltReason := rfl
@[simp] theorem State.setResolution_haltInfo (r : Resolution) : (s.setResolution r).haltInfo = s.haltInfo := rfl
@[simp] theorem State.setResolution_faultLog (r : Resolution) : (s.setResolution r).faultLog = s.faultLog := rfl
@[simp] theorem State.setResolution_rpl (r : Resolution) : (s.setResolution r).rpl = s.rpl := rfl
@[simp] theorem State.setResolution_mem (r : Resolution) : (s.setResolution r).mem = s.mem := rfl
@[simp] theorem State.setResolution_rndCount (r : Resolution) : (s.setResolution r).rndCount = s.rndCount := rfl

@[simp] theorem State.tick_cfg : (s.tick).cfg = s.cfg := rfl
@[simp] theorem State.tick_v : (s.tick).v = s.v := rfl
@[simp] theorem State.tick_i : (s.tick).i = s.i := rfl
@[simp] theorem State.tick_pc : (s.tick).pc = s.pc := rfl
@[simp] theorem State.tick_sp : (s.tick).sp = s.sp := rfl
@[simp] theorem State.tick_stack : (s.tick).stack = s.stack := rfl
@[simp] theorem State.tick_dt : (s.tick).dt = decTimer s.dt := rfl
@[simp] theorem State.tick_st : (s.tick).st = decTimer s.st := rfl
@[simp] theorem State.tick_audio : (s.tick).audio = s.audio := rfl
@[simp] theorem State.tick_pitch : (s.tick).pitch = s.pitch := rfl
@[simp] theorem State.tick_res : (s.tick).res = s.res := rfl
@[simp] theorem State.tick_fb : (s.tick).fb = s.fb := rfl
@[simp] theorem State.tick_planeMask : (s.tick).planeMask = s.planeMask := rfl
@[simp] theorem State.tick_key : (s.tick).key = s.key := rfl
@[simp] theorem State.tick_kwX : (s.tick).kwX = s.kwX := rfl
@[simp] theorem State.tick_kwArmed : (s.tick).kwArmed = s.kwArmed := rfl
@[simp] theorem State.tick_kwLatch : (s.tick).kwLatch = s.kwLatch := rfl
@[simp] theorem State.tick_status : (s.tick).status = s.status := rfl
@[simp] theorem State.tick_haltReason : (s.tick).haltReason = s.haltReason := rfl
@[simp] theorem State.tick_haltInfo : (s.tick).haltInfo = s.haltInfo := rfl
@[simp] theorem State.tick_faultLog : (s.tick).faultLog = s.faultLog := rfl
@[simp] theorem State.tick_rpl : (s.tick).rpl = s.rpl := rfl
@[simp] theorem State.tick_mem : (s.tick).mem = s.mem := rfl
@[simp] theorem State.tick_rndCount : (s.tick).rndCount = s.rndCount := rfl

/-- Only PC changes (R121). -/
theorem State.skip_frame :
    s.skip = { s with pc := (s.skip).pc } := by
  unfold State.skip; split <;> rfl

/-- Only PC changes (R121). -/
theorem State.skipIf_frame (c : Bool) :
    s.skipIf c = { s with pc := (s.skipIf c).pc } := by
  cases c
  · rfl
  · exact State.skip_frame s

/-- Only the general registers change (R143). -/
theorem State.setLogicResult_frame (x : Nibble) (r : Byte) :
    s.setLogicResult x r = { s with v := (s.setLogicResult x r).v } := by
  unfold State.setLogicResult; split <;> rfl

/-- Only I changes (R164). -/
theorem State.incIndex_frame (x : Nibble) :
    s.incIndex x = { s with i := (s.incIndex x).i } := by
  unfold State.incIndex; split <;> rfl

/-- Only STATUS changes (R178). -/
theorem State.displayWait_frame :
    s.displayWait = { s with status := (s.displayWait).status } := by
  unfold State.displayWait; split <;> rfl

/-- Only STATUS changes (R298). -/
theorem State.refresh_frame :
    s.refresh = { s with status := (s.refresh).status } := by
  unfold State.refresh; split <;> rfl

/-- FAULT_LOG and the rest are kept (R270). -/
theorem State.resume_frame :
    s.resume = { s with status := (s.resume).status, haltReason := (s.resume).haltReason, haltInfo := (s.resume).haltInfo } := by
  unfold State.resume; split <;> rfl

/-- What the end of the key wait writes (R200). -/
theorem State.keyWaitStep_frame :
    s.keyWaitStep = { s with v := (s.keyWaitStep).v, pc := (s.keyWaitStep).pc, kwLatch := (s.keyWaitStep).kwLatch, kwArmed := (s.keyWaitStep).kwArmed, status := (s.keyWaitStep).status } := by
  unfold State.keyWaitStep; split <;> rfl

/-- Only the keys and the key-wait masks change (R203). -/
theorem State.setKeyState_frame (k : Nibble) (b : Bool) :
    s.setKeyState k b = { s with key := (s.setKeyState k b).key, kwArmed := (s.setKeyState k b).kwArmed, kwLatch := (s.setKeyState k b).kwLatch } := by
  unfold State.setKeyState State.noteKey; split_ifs <;> rfl

/-- A draw changes the framebuffer, VF and STATUS alone (R175). -/
theorem State.blit_frame (x y n : Nibble) :
    s.blit x y n = { s with fb := (s.blit x y n).fb, v := (s.blit x y n).v, status := (s.blit x y n).status } := by
  unfold State.blit State.displayWait; dsimp only; split <;> rfl

/-- STATUS after a draw (R178). -/
theorem State.blit_status (x y n : Nibble) :
    (s.blit x y n).status = if s.cfg.quirks.dispWait = true then .vblankWait else s.status := by
  by_cases h : s.cfg.quirks.dispWait = true <;> simp [State.blit, State.displayWait, h]

end Sys2Proof.Machine
end

