-- ==== Sys2Proof/Laws/Ops.lean ====
section
/-! SUPPORT. Register reads after register writes, and for each shared operation one lemma that says everything it can do. -/

namespace Sys2Proof.Machine

/-! ### Registers -/

@[simp] theorem State.getV_setV (s : State) (x y : Nibble) (b : Byte) :
    (s.setV x b).getV y = if y = x then b else s.getV y := by
  simp only [State.getV, State.setV_v, Vector.getElem_set, ← BitVec.toNat_inj, eq_comm]

@[simp] theorem State.getV_setFlag (s : State) (f : Bool) (y : Nibble) :
    (s.setFlag f).getV y = if y = 0xF then (if f then 1 else 0) else s.getV y := by
  simp [State.setFlag]

@[simp] theorem State.getV_setResultAndFlag (s : State) (x : Nibble) (r : Byte) (f : Bool) (y : Nibble) :
    (s.setResultAndFlag x r f).getV y =
      if y = 0xF then (if f then 1 else 0) else if y = x then r else s.getV y := by
  simp [State.setResultAndFlag]

@[simp] theorem State.getV_setLogicResult (s : State) (x : Nibble) (r : Byte) (y : Nibble) :
    (s.setLogicResult x r).getV y =
      if y = 0xF ∧ s.cfg.quirks.vfReset then 0 else if y = x then r else s.getV y := by
  unfold State.setLogicResult
  by_cases h : s.cfg.quirks.vfReset <;> simp [h]

/-- Two register files that read the same in every register are equal. -/
theorem State.v_ext {v w : Vector Byte 16} (h : ∀ x : Nibble, v[x.toNat]'x.isLt = w[x.toNat]'x.isLt) : v = w := by
  refine Vector.ext fun k hk => ?_
  have := h (BitVec.ofNat 4 k)
  simpa [Nat.mod_eq_of_lt hk] using this

/-- A register of a file given register by register. -/
theorem State.getV_ofFn (s : State) (f : Fin 16 → Byte) (x : Nibble) :
    ({ s with v := Vector.ofFn f } : State).getV x = f ⟨x.toNat, x.isLt⟩ := by
  simp [State.getV]

/-! ### The bounds check -/

/-- An access inside memory does its effect; one outside halts at the first failing address (R61, R66, R264). -/
theorem State.guardRange_cases (base n : Nat) (s t : State) :
    ((∀ k < n, base + k < s.cfg.memSize) ∧ s.guardRange base n t = t) ∨
    (∃ k < n, s.cfg.memSize ≤ base + k ∧ (∀ j < k, base + j < s.cfg.memSize) ∧
      s.guardRange base n t = s.raise .addressOutOfRange (.value (base + k))) := by
  unfold State.guardRange
  cases h : firstOutOfRange s.cfg.memSize base n with
  | none => exact .inl ⟨firstOutOfRange_eq_none.1 h, rfl⟩
  | some bad =>
    obtain ⟨k, hk, rfl, hs, hj⟩ := firstOutOfRange_eq_some.1 h
    exact .inr ⟨k, hk, hs, hj, rfl⟩

/-- An access whose bytes are all in memory passes. -/
theorem State.guardRange_of_fits {base n : Nat} {s t : State} (h : ∀ k < n, base + k < s.cfg.memSize) :
    s.guardRange base n t = t := by
  unfold State.guardRange
  rw [firstOutOfRange_eq_none.2 h]

/-- An access with a byte outside memory halts at the lowest such address. -/
theorem State.guardRange_of_out {base n k : Nat} {s t : State} (hk : k < n) (hs : s.cfg.memSize ≤ base + k)
    (hj : ∀ j < k, base + j < s.cfg.memSize) :
    s.guardRange base n t = s.raise .addressOutOfRange (.value (base + k)) := by
  unfold State.guardRange
  rw [firstOutOfRange_eq_some.2 ⟨k, hk, rfl, hs, hj⟩]

/-! ### The call stack -/

/-- Everything a call can do (R125, R265). -/
theorem State.callTo_cases (target : Word) (s : State) :
    (s.sp.toNat = s.cfg.stackDepth.val ∧
      s.callTo target = .next (s.raise .stackOverflow (.value s.instrAddr.toNat))) ∨
    (∃ h : s.sp.toNat < 16, s.sp.toNat < s.cfg.stackDepth.val ∧
      s.callTo target = .next { s with stack := s.stack.set s.sp.toNat s.pc h, sp := s.sp + 1, pc := target }) ∨
    (s.cfg.stackDepth.val < s.sp.toNat ∧ s.callTo target = .fault (.noSuchStackSlot s.sp)) := by
  unfold State.callTo
  split
  · exact .inl ⟨by assumption, rfl⟩
  · split
    case isTrue h => exact .inr (.inl ⟨by have := s.cfg.stackDepth.isLt; omega, h, rfl⟩)
    case isFalse h => exact .inr (.inr ⟨by omega, rfl⟩)

/-- Everything a return can do (R123, R266). -/
theorem State.returnToCaller_cases (s : State) :
    (s.sp.toNat = 0 ∧ s.returnToCaller = .next (s.raise .stackUnderflow (.value s.instrAddr.toNat))) ∨
    (∃ h : s.sp.toNat - 1 < 16, 0 < s.sp.toNat ∧ s.sp.toNat ≤ s.cfg.stackDepth.val ∧
      s.returnToCaller = .next { s with pc := s.stack[s.sp.toNat - 1], sp := s.sp - 1 }) ∨
    (0 < s.sp.toNat ∧ s.cfg.stackDepth.val < s.sp.toNat ∧ s.returnToCaller = .fault (.noSuchStackSlot s.sp)) := by
  unfold State.returnToCaller
  split
  · exact .inl ⟨by assumption, rfl⟩
  · split
    case isTrue h => exact .inr (.inl ⟨by have := s.cfg.stackDepth.isLt; omega, by omega, h, rfl⟩)
    case isFalse h => exact .inr (.inr ⟨by omega, by omega, rfl⟩)

/-! ### Register sequences -/

@[simp] theorem State.length_regsUpTo (s : State) (x : Nibble) : (s.regsUpTo x).length = x.toNat + 1 := by
  simp [State.regsUpTo]

@[simp] theorem State.getElem_regsUpTo (s : State) (x : Nibble) (k : Nat) (h : k < (s.regsUpTo x).length) :
    (s.regsUpTo x)[k] = s.getV (BitVec.ofNat 4 k) := by
  simp [State.regsUpTo]

@[simp] theorem State.length_regsBetween (s : State) (x y : Nibble) :
    (s.regsBetween x y).length = rangeLength x y := by
  simp [State.regsBetween]

@[simp] theorem State.getElem_regsBetween (s : State) (x y : Nibble) (k : Nat) (h : k < (s.regsBetween x y).length) :
    (s.regsBetween x y)[k] = s.getV (rangeReg x y k) := by
  simp [State.regsBetween]

/-- The `k`-th register of a sequence stands at place `k` in it. -/
theorem rangeOffset_rangeReg {x y : Nibble} {k : Nat} (h : k < rangeLength x y) :
    rangeOffset x y (rangeReg x y k).toNat = some k := by
  have hx := x.isLt
  have hy := y.isLt
  unfold rangeLength at h
  unfold rangeOffset rangeReg
  by_cases hxy : x ≤ y
  · have hxy' : x.toNat ≤ y.toNat := hxy
    simp only [hxy, if_true] at h ⊢
    have e : (BitVec.ofNat 4 (x.toNat + k)).toNat = x.toNat + k := by
      rw [BitVec.toNat_ofNat]; exact Nat.mod_eq_of_lt (by omega)
    rw [e, if_pos (by omega)]
    congr 1; omega
  · have hxy' : y.toNat < x.toNat := by simpa [BitVec.le_def] using hxy
    simp only [hxy, if_false] at h ⊢
    have e : (BitVec.ofNat 4 (x.toNat - k)).toNat = x.toNat - k := by
      rw [BitVec.toNat_ofNat]; exact Nat.mod_eq_of_lt (by omega)
    rw [e]
    by_cases h0 : k = 0
    · subst h0; rw [if_neg (by omega), if_pos (by omega)]; simp
    · rw [if_neg (by omega), if_pos (by omega)]; congr 1; omega

/-- A register at place `k` of a sequence is its `k`-th register. -/
theorem rangeReg_of_offset {x y r : Nibble} {k : Nat} (h : rangeOffset x y r.toNat = some k) :
    k < rangeLength x y ∧ rangeReg x y k = r := by
  have hx := x.isLt
  have hy := y.isLt
  have hr := r.isLt
  unfold rangeOffset at h
  unfold rangeLength rangeReg
  by_cases hxy : x ≤ y
  · have hxy' : x.toNat ≤ y.toNat := hxy
    simp only [hxy, if_true]
    split at h
    · obtain rfl := Option.some.inj h
      refine ⟨by omega, BitVec.eq_of_toNat_eq ?_⟩
      rw [BitVec.toNat_ofNat, Nat.mod_eq_of_lt (by omega)]; omega
    · split at h
      · obtain rfl := Option.some.inj h
        refine ⟨by omega, BitVec.eq_of_toNat_eq ?_⟩
        rw [BitVec.toNat_ofNat, Nat.mod_eq_of_lt (by omega)]; omega
      · cases h
  · have hxy' : y.toNat < x.toNat := by simpa [BitVec.le_def] using hxy
    simp only [hxy, if_false]
    split at h
    · omega
    · split at h
      · obtain rfl := Option.some.inj h
        refine ⟨by omega, BitVec.eq_of_toNat_eq ?_⟩
        rw [BitVec.toNat_ofNat, Nat.mod_eq_of_lt (by omega)]; omega
      · cases h

@[simp] theorem State.getV_loadUpTo (s : State) (base : Nat) (x r : Nibble) :
    (s.loadUpTo base x)[r.toNat]'r.isLt = if r.toNat ≤ x.toNat then s.mem.read (base + r.toNat) else s.getV r := by
  simp [State.loadUpTo, State.getV]

@[simp] theorem State.getV_loadBetween (s : State) (base : Nat) (x y r : Nibble) :
    (s.loadBetween base x y)[r.toNat]'r.isLt =
      match rangeOffset x y r.toNat with
      | some k => s.mem.read (base + k)
      | none => s.getV r :=
  Vector.getElem_ofFn r.isLt

/-- The index after FX55 or FX65 (R164). -/
theorem State.toNat_incIndex_i (s : State) (x : Nibble) :
    (s.incIndex x).i.toNat =
      if s.cfg.quirks.memInc = true then (s.i.toNat + x.toNat + 1) % 65536 else s.i.toNat := by
  unfold State.incIndex
  split
  · simp [BitVec.toNat_add]
  · rfl

theorem rangeLength_eq (x y : Nibble) :
    rangeLength x y = (if x.toNat ≤ y.toNat then y.toNat - x.toNat else x.toNat - y.toNat) + 1 := by
  simp only [rangeLength, BitVec.le_def]

theorem rangeReg_eq (x y : Nibble) (k : Nat) :
    rangeReg x y k = BitVec.ofNat 4 (if x.toNat ≤ y.toNat then x.toNat + k else x.toNat - k) := by
  simp only [rangeReg, BitVec.le_def]; split <;> rfl

/-! ### Skips -/

/-- PC after a conditional skip (R121). -/
theorem State.toNat_skipIf_pc (s : State) (cond : Bool) :
    (s.skipIf cond).pc.toNat =
      if cond = true then
        (s.pc.toNat +
          if s.cfg.mode = .xochip ∧ s.pc.toNat + 1 < s.cfg.memSize ∧
            s.mem.read s.pc.toNat = 0xF0 ∧ s.mem.read (s.pc.toNat + 1) = 0x00 then 4 else 2) % 65536
      else s.pc.toNat := by
  have hx : s.cfg.extXo = true ↔ s.cfg.mode = .xochip := by cases hm : s.cfg.mode <;> simp [Config.extXo, hm]
  have hw : ∀ a b : Byte, wordOf a b = 0xF000 ↔ a = 0xF0 ∧ b = 0x00 := fun a b => by
    rw [show (0xF000 : Word) = wordOf 0xF0 0x00 from rfl, wordOf_inj]
  cases cond
  · rfl
  · simp only [State.skipIf, if_true, State.skip, Bool.and_eq_true, hx, decide_eq_true_eq, beq_iff_eq, Memory.readWord,
      hw, and_assoc]
    split <;> simp [BitVec.toNat_add]

end Sys2Proof.Machine
end

