-- ==== Sys2Proof/Laws/Display.lean ====
section
/-! SUPPORT. The display operations pixel by pixel: clear, scroll and resolution, and the blit as the toggling of a list of
distinct pixels. -/

namespace Sys2Proof.Machine

/-! ### Pixels -/

@[simp] theorem FrameBuffer.plane_setPlane (fb : FrameBuffer) (p q : PlaneId) (pl : Plane) :
    (fb.setPlane p pl).plane q = if p = q then pl else fb.plane q := by
  cases p <;> cases q <;> rfl

@[simp] theorem Plane.pixel_blank (y x : Nat) : Plane.blank.pixel y x = false := by
  unfold Plane.pixel Plane.blank; split <;> simp

@[simp] theorem FrameBuffer.pixel_blank (p : PlaneId) (y x : Nat) : FrameBuffer.blank.pixel p y x = false := by
  cases p <;> exact Plane.pixel_blank y x

/-- A pixel of the storage after one pixel is inverted. -/
theorem Plane.pixel_toggle (pl : Plane) {y x : Nat} (hy : y < 64) (hx : x < 128) (y' x' : Nat) :
    (pl.toggle y x).pixel y' x' = (pl.pixel y' x' ^^ decide (y = y' ∧ x = x')) := by
  unfold Plane.toggle Plane.pixel
  rw [dif_pos hy]
  by_cases h : y' < 64
  · simp only [h, dif_pos, Vector.getElem_set]
    by_cases e : y = y'
    · subst e
      simp only [if_true, BitVec.getLsbD_xor, BitVec.getLsbD_twoPow, hx, decide_true, Bool.true_and, true_and]
    · simp [e]
  · have e : y ≠ y' := by omega
    simp [h, e]

theorem FrameBuffer.pixel_toggle (fb : FrameBuffer) (p : PlaneId) {y x : Nat} (hy : y < 64) (hx : x < 128)
    (q : PlaneId) (y' x' : Nat) :
    (fb.toggle p y x).pixel q y' x' = (fb.pixel q y' x' ^^ decide (p = q ∧ y = y' ∧ x = x')) := by
  unfold FrameBuffer.toggle FrameBuffer.pixel
  rw [FrameBuffer.plane_setPlane]
  by_cases e : p = q
  · subst e; simp [Plane.pixel_toggle _ hy hx]
  · simp [e]

/-- Two framebuffers with the same pixels are equal. -/
theorem FrameBuffer.ext_pixel {fb fb' : FrameBuffer} (h : ∀ p y x, fb.pixel p y x = fb'.pixel p y x) : fb = fb' := by
  have plane_ext : ∀ p, fb.plane p = fb'.plane p := fun p => by
    refine Vector.ext fun y hy => BitVec.eq_of_getLsbD_eq fun x _ => ?_
    have := h p y x
    simpa [FrameBuffer.pixel, Plane.pixel, hy] using this
  have h1 := plane_ext .plane1
  have h2 := plane_ext .plane2
  cases fb; cases fb'
  simp only [FrameBuffer.plane] at h1 h2
  rw [h1, h2]

/-! ### Clear and scroll -/

theorem columns_getLsbD (w x : Nat) : (columns w).getLsbD x = decide (x < 128 ∧ x < w) := by
  simp only [columns, BitVec.getLsbD_ofNat, Nat.testBit_two_pow_sub_one, Bool.decide_and]

theorem mergeColumns_getLsbD (w : Nat) (new old : BitVec 128) (x : Nat) :
    (mergeColumns w new old).getLsbD x = if x < w then new.getLsbD x else old.getLsbD x := by
  have hn := fun h : 128 ≤ x => BitVec.getLsbD_of_ge new x h
  have ho := fun h : 128 ≤ x => BitVec.getLsbD_of_ge old x h
  simp only [mergeColumns, BitVec.getLsbD_or, BitVec.getLsbD_and, BitVec.getLsbD_not, columns_getLsbD]
  by_cases hx : x < 128
  · by_cases hw : x < w <;> simp [hx, hw]
  · simp [hx, hn (by omega), ho (by omega)]

theorem Plane.row_getLsbD (pl : Plane) (y x : Nat) : (pl.row y).getLsbD x = pl.pixel y x := by
  unfold Plane.row Plane.pixel; split <;> simp

/-- A pixel outside the storage is unset. -/
theorem Plane.pixel_of_ge (pl : Plane) {y x : Nat} (h : 128 ≤ x) : pl.pixel y x = false := by
  unfold Plane.pixel; split
  · exact BitVec.getLsbD_of_ge _ _ h
  · rfl

/-- Clearing unsets the active region and nothing else (R120). -/
theorem Plane.pixel_clear (w h : Nat) (pl : Plane) (y x : Nat) :
    (pl.clear w h).pixel y x = if y < h ∧ x < w then false else pl.pixel y x := by
  unfold Plane.clear Plane.pixel
  by_cases hy : y < 64
  · simp only [hy, dif_pos, Vector.getElem_ofFn]
    by_cases hh : y < h
    · simp [hh, mergeColumns_getLsbD]
    · simp [hh]
  · simp [hy]

/-- The pixel a scroll puts at row `y`, column `x` of the active region (R189). -/
def Plane.scrollSource (w h : Nat) (dir : Direction) (n : Nat) (pl : Plane) (y x : Nat) : Bool :=
  match dir with
  | .down => if n ≤ y then pl.pixel (y - n) x else false
  | .up => if y + n < h then pl.pixel (y + n) x else false
  | .right => if n ≤ x then pl.pixel y (x - n) else false
  | .left => if x + n < w then pl.pixel y (x + n) else false

theorem Plane.scrolledRow_getLsbD (w h : Nat) (dir : Direction) (n : Nat) (pl : Plane) (y x : Nat) (hx : x < 128) :
    (pl.scrolledRow w h dir n y).getLsbD x = pl.scrollSource w h dir n y x := by
  unfold Plane.scrolledRow Plane.scrollSource
  cases dir with
  | down => dsimp only; split <;> simp [Plane.row_getLsbD]
  | up => dsimp only; split <;> simp [Plane.row_getLsbD]
  | right =>
    simp only [BitVec.getLsbD_shiftLeft, hx, decide_true, Bool.true_and, Plane.row_getLsbD]
    by_cases hn : x < n
    · simp [hn, show ¬ n ≤ x by omega]
    · simp [hn, show n ≤ x by omega]
  | left =>
    simp only [BitVec.getLsbD_ushiftRight, BitVec.getLsbD_and, columns_getLsbD, Plane.row_getLsbD]
    rw [show n + x = x + n by omega]
    by_cases h1 : x + n < 128
    · by_cases h2 : x + n < w <;> simp [h1, h2]
    · simp [h1, Plane.pixel_of_ge pl (show 128 ≤ x + n by omega)]

/-- Scrolling rewrites the active region and nothing else (R189). -/
theorem Plane.pixel_scroll (w h : Nat) (dir : Direction) (n : Nat) (pl : Plane) (y x : Nat) (hy : h ≤ 64) (hx : w ≤ 128) :
    (pl.scroll w h dir n).pixel y x =
      if y < h ∧ x < w then pl.scrollSource w h dir n y x else pl.pixel y x := by
  by_cases h64 : y < 64
  · unfold Plane.scroll
    conv_lhs => unfold Plane.pixel
    simp only [h64, dif_pos, Vector.getElem_ofFn]
    by_cases hh : y < h
    · simp only [hh, if_true, mergeColumns_getLsbD, true_and]
      by_cases hw : x < w
      · simp only [hw, if_true]
        exact Plane.scrolledRow_getLsbD w h dir n pl y x (by omega)
      · simp only [hw, if_false]
        simp [Plane.pixel, h64]
    · simp [hh, Plane.pixel, h64]
  · have : ¬ (y < h ∧ x < w) := by omega
    simp [Plane.pixel, h64, this]

/-- Changing each plane of a list of distinct planes changes those planes. -/
theorem FrameBuffer.plane_mapPlanes (f : Plane → Plane) (ps : List PlaneId) (fb : FrameBuffer) (q : PlaneId)
    (hp : ps.Nodup) :
    (fb.mapPlanes f ps).plane q = if q ∈ ps then f (fb.plane q) else fb.plane q := by
  induction ps generalizing fb with
  | nil => simp [FrameBuffer.mapPlanes]
  | cons p ps ih =>
    rw [List.nodup_cons] at hp
    unfold FrameBuffer.mapPlanes
    rw [ih _ hp.2, FrameBuffer.plane_setPlane]
    by_cases e : p = q
    · subst e; simp [hp.1]
    · simp [e, Ne.symm e]

theorem State.selectedPlanes_nodup (s : State) : s.selectedPlanes.Nodup := by
  unfold State.selectedPlanes
  split_ifs <;> simp

/-- Which planes are selected (R35): those PLANE_MASK selects, plane 2 only where the mode has it. -/
theorem State.mem_selectedPlanes (s : State) (p : PlaneId) :
    p ∈ s.selectedPlanes ↔
      match p with
      | .plane1 => s.planeMask.getLsbD 0 = true
      | .plane2 => 1 < s.cfg.planes ∧ s.planeMask.getLsbD 1 = true := by
  unfold State.selectedPlanes
  cases p <;> split_ifs <;> simp_all

/-! ### Toggling a list of pixels -/

/-- The pixel lies in the storage. -/
abbrev PixelRef.Stored (q : PixelRef) : Prop := q.y < 64 ∧ q.x < 128

/-- Toggling a list of distinct pixels inverts exactly those pixels. -/
theorem FrameBuffer.pixel_toggleAll (qs : List PixelRef) (fb : FrameBuffer) (hit : Bool) (hn : qs.Nodup)
    (hs : ∀ q ∈ qs, q.Stored) (p : PlaneId) (y x : Nat) :
    (FrameBuffer.toggleAll qs fb hit).1.pixel p y x =
      (fb.pixel p y x ^^ decide ((⟨p, y, x⟩ : PixelRef) ∈ qs)) := by
  induction qs generalizing fb hit with
  | nil => simp [FrameBuffer.toggleAll]
  | cons q qs ih =>
    rw [List.nodup_cons] at hn
    have hq := hs q (by simp)
    unfold FrameBuffer.toggleAll
    rw [ih _ _ hn.2 fun r hr => hs r (List.mem_cons_of_mem _ hr), FrameBuffer.pixel_toggle _ _ hq.1 hq.2]
    by_cases e : q = ⟨p, y, x⟩
    · subst e
      have := hn.1
      simp [this]
    · have e1 : ¬ (q.plane = p ∧ q.y = y ∧ q.x = x) := fun h => e (by cases q; simp_all)
      have e2 : (⟨p, y, x⟩ : PixelRef) ≠ q := fun h => e h.symm
      simp [e1, e2]

/-- Toggling a list of distinct pixels reports a collision exactly when one of them was lit. -/
theorem FrameBuffer.hit_toggleAll (qs : List PixelRef) (fb : FrameBuffer) (hit : Bool) (hn : qs.Nodup)
    (hs : ∀ q ∈ qs, q.Stored) :
    (FrameBuffer.toggleAll qs fb hit).2 = (hit || decide (∃ q ∈ qs, fb.pixel q.plane q.y q.x = true)) := by
  induction qs generalizing fb hit with
  | nil => simp [FrameBuffer.toggleAll]
  | cons q qs ih =>
    rw [List.nodup_cons] at hn
    have hq := hs q (by simp)
    unfold FrameBuffer.toggleAll
    rw [ih _ _ hn.2 fun r hr => hs r (List.mem_cons_of_mem _ hr)]
    have e : (∃ r ∈ qs, (fb.toggle q.plane q.y q.x).pixel r.plane r.y r.x = true) ↔
        ∃ r ∈ qs, fb.pixel r.plane r.y r.x = true := by
      refine exists_congr fun r => and_congr_right fun hr => ?_
      have hne : ¬ (q.plane = r.plane ∧ q.y = r.y ∧ q.x = r.x) := fun h => hn.1 (by
        have : q = r := by cases q; cases r; simp_all
        exact this ▸ hr)
      rw [FrameBuffer.pixel_toggle _ _ hq.1 hq.2]
      simp [hne]
    rw [Bool.eq_iff_iff]
    simp only [Bool.or_eq_true, decide_eq_true_eq, e, List.mem_cons, exists_eq_or_imp, or_assoc]

/-! ### The pixels of a sprite -/

/-- A sprite is at most 16 pixels wide and high, and no wider than the screen. -/
theorem spriteSize_le (c : Config) (n : Nibble) :
    (spriteSize c n).1 ≤ 16 ∧ (spriteSize c n).2 ≤ 16 := by
  have := n.isLt
  unfold spriteSize
  split_ifs <;> (simp; try omega)

theorem Resolution.width_le (r : Resolution) : 64 ≤ r.width ∧ r.width ≤ 128 := by cases r <;> decide

theorem Resolution.height_le (r : Resolution) : 32 ≤ r.height ∧ r.height ≤ 64 := by cases r <;> decide

/-- A sprite bit lands on the screen. -/
theorem landing_lt {c : Config} {size pos k : Nat} (hs : 0 < size) (h : landing c size pos = some k) : k < size := by
  unfold landing at h
  split at h
  · split at h
    · obtain rfl := Option.some.inj h; assumption
    · cases h
  · obtain rfl := Option.some.inj h; exact Nat.mod_lt _ hs

/-- Two places of one sprite that land on the same place are the same. -/
theorem landing_inj {c : Config} {size start i j k : Nat} (hi : i < 16) (hj : j < 16) (hs : 16 ≤ size)
    (h1 : landing c size (start + i) = some k) (h2 : landing c size (start + j) = some k) : i = j := by
  unfold landing at h1 h2
  split at h1
  case isTrue hc =>
    rw [if_pos hc] at h2
    split at h1
    · split at h2
      · have := Option.some.inj h1; have := Option.some.inj h2; omega
      · cases h2
    · cases h1
  case isFalse hc =>
    rw [if_neg hc] at h2
    have e : (start + i) % size = (start + j) % size := by
      rw [Option.some.inj h1, Option.some.inj h2]
    have e' : i ≡ j [MOD size] := Nat.ModEq.add_left_cancel' start e
    have := Nat.ModEq.eq_of_lt_of_lt e' (by omega) (by omega)
    exact this

theorem landingPixel_eq_some {c : Config} {r : Resolution} {p : PlaneId} {px py : Nat} {q : PixelRef} :
    landingPixel c r p px py = some q ↔
      q.plane = p ∧ landing c r.width px = some q.x ∧ landing c r.height py = some q.y := by
  unfold landingPixel
  cases q
  cases landing c r.width px <;> cases landing c r.height py <;> simp [eq_comm, and_comm]

/-- The sprite bit of row `r`, column `c` of the block at `base` is 1. -/
def State.spriteBit (s : State) (n : Nibble) (base r c : Nat) : Bool :=
  (bigEndian (s.mem.readBytes (base + r * bytesPerRow s.cfg n) (bytesPerRow s.cfg n))).testBit
    ((spriteSize s.cfg n).1 - 1 - c)

/-- The pixels a block toggles are those its 1 bits land on. -/
theorem State.mem_blockPixels {s : State} {x0 y0 : Nat} {n : Nibble} {p : PlaneId} {base : Nat} {q : PixelRef} :
    q ∈ s.blockPixels x0 y0 n p base ↔
      ∃ r < (spriteSize s.cfg n).2, ∃ c < (spriteSize s.cfg n).1, s.spriteBit n base r c = true ∧ q.plane = p ∧
        landing s.cfg s.res.width (x0 + c) = some q.x ∧ landing s.cfg s.res.height (y0 + r) = some q.y := by
  simp only [State.blockPixels, State.rowPixels, List.mem_flatMap, List.mem_range, List.mem_filterMap, State.spriteBit]
  refine exists_congr fun r => and_congr_right fun _ => exists_congr fun c => and_congr_right fun _ => ?_
  split
  · simp [landingPixel_eq_some, *]
  · simp [*]

/-- A block toggles no pixel twice (R182). -/
theorem State.blockPixels_nodup (s : State) (x0 y0 : Nat) (n : Nibble) (p : PlaneId) (base : Nat) :
    (s.blockPixels x0 y0 n p base).Nodup := by
  have hsz := spriteSize_le s.cfg n
  have hw := s.res.width_le
  have hh := s.res.height_le
  have row_mem : ∀ {b r : Nat} {q : PixelRef}, q ∈ s.rowPixels x0 y0 n p b r →
      landing s.cfg s.res.height (y0 + r) = some q.y := by
    intro b r q hq
    simp only [State.rowPixels, List.mem_filterMap, List.mem_range] at hq
    obtain ⟨c, _, hc⟩ := hq
    split at hc
    · exact (landingPixel_eq_some.1 hc).2.2
    · cases hc
  unfold State.blockPixels
  refine List.nodup_flatMap.2 ⟨fun r _ => ?_, ?_⟩
  · refine List.Pairwise.filterMap _ (R := fun i j => i < 16 ∧ j < 16 ∧ i ≠ j) ?_ ?_
    · rintro i j ⟨hi, hj, hij⟩ q hq q' hq' rfl
      split at hq
      · split at hq'
        · exact hij (landing_inj hi hj (by omega) (landingPixel_eq_some.1 hq).2.1 (landingPixel_eq_some.1 hq').2.1)
        · cases hq'
      · cases hq
    · refine List.Pairwise.imp_of_mem ?_ List.pairwise_lt_range
      intro i j hi hj hij
      exact ⟨by have := List.mem_range.1 hi; omega, by have := List.mem_range.1 hj; omega, by omega⟩
  · refine List.Pairwise.imp_of_mem ?_ List.pairwise_lt_range
    intro i j hi hj hij q hqi hqj
    have := landing_inj (by have := List.mem_range.1 hi; omega) (by have := List.mem_range.1 hj; omega) (by omega)
      (row_mem hqi) (row_mem hqj)
    omega

/-- The pixels the planes of a list toggle: those of each plane's own block (R180). -/
theorem State.mem_planesPixels {s : State} {x0 y0 : Nat} {n : Nibble} {ps : List PlaneId} {base : Nat} {q : PixelRef} :
    q ∈ s.planesPixels x0 y0 n ps base ↔
      ∃ j, ∃ h : j < ps.length, q ∈ s.blockPixels x0 y0 n ps[j] (base + j * spriteBytes s.cfg n) := by
  induction ps generalizing base with
  | nil => simp [State.planesPixels]
  | cons p ps ih =>
    simp only [State.planesPixels, List.mem_append, ih]
    constructor
    · rintro (h | ⟨j, hj, h⟩)
      · exact ⟨0, by simp, by simpa using h⟩
      · refine ⟨j + 1, by simpa using hj, ?_⟩
        simpa [Nat.succ_mul, Nat.add_assoc, Nat.add_comm, Nat.add_left_comm] using h
    · rintro ⟨j, hj, h⟩
      cases j with
      | zero => left; simpa using h
      | succ j =>
        right
        refine ⟨j, by simpa using hj, ?_⟩
        simpa [Nat.succ_mul, Nat.add_assoc, Nat.add_comm, Nat.add_left_comm] using h

theorem State.planesPixels_nodup (s : State) (x0 y0 : Nat) (n : Nibble) (ps : List PlaneId) (base : Nat) (hp : ps.Nodup) :
    (s.planesPixels x0 y0 n ps base).Nodup := by
  induction ps generalizing base with
  | nil => simp [State.planesPixels]
  | cons p ps ih =>
    rw [List.nodup_cons] at hp
    refine List.nodup_append'.2 ⟨s.blockPixels_nodup x0 y0 n p base, ih _ hp.2, fun q h1 h2 => ?_⟩
    obtain ⟨j, hj, hm⟩ := State.mem_planesPixels.1 h2
    obtain ⟨_, _, _, _, _, e1, _⟩ := State.mem_blockPixels.1 h1
    obtain ⟨_, _, _, _, _, e2, _⟩ := State.mem_blockPixels.1 hm
    exact hp.1 (by rw [← e1, e2]; exact List.getElem_mem hj)

/-- A draw toggles no pixel twice (R182). -/
theorem State.spritePixels_nodup (s : State) (x y n : Nibble) : (s.spritePixels x y n).Nodup :=
  s.planesPixels_nodup _ _ n _ _ s.selectedPlanes_nodup

/-- A draw toggles pixels of the active region of the selected planes alone (R176). -/
theorem State.spritePixels_active {s : State} {x y n : Nibble} {q : PixelRef} (h : q ∈ s.spritePixels x y n) :
    q.plane ∈ s.selectedPlanes ∧ q.x < s.res.width ∧ q.y < s.res.height := by
  obtain ⟨j, hj, hm⟩ := State.mem_planesPixels.1 h
  obtain ⟨_, _, _, _, _, e, h1, h2⟩ := State.mem_blockPixels.1 hm
  have hw := s.res.width_le
  have hh := s.res.height_le
  exact ⟨e ▸ List.getElem_mem hj, landing_lt (by omega) h1, landing_lt (by omega) h2⟩

theorem State.spritePixels_stored {s : State} {x y n : Nibble} : ∀ q ∈ s.spritePixels x y n, q.Stored := fun q h => by
  have := State.spritePixels_active h
  have hw := s.res.width_le
  have hh := s.res.height_le
  exact ⟨by omega, by omega⟩

/-- Every pixel after a draw: inverted exactly where a 1 bit of the sprite landed (R176). -/
theorem State.pixel_blit (s : State) (x y n : Nibble) (p : PlaneId) (py px : Nat) :
    (s.blit x y n).fb.pixel p py px =
      (s.fb.pixel p py px ^^ decide ((⟨p, py, px⟩ : PixelRef) ∈ s.spritePixels x y n)) := by
  rw [← FrameBuffer.pixel_toggleAll _ _ false (s.spritePixels_nodup x y n) State.spritePixels_stored]
  unfold State.blit State.displayWait
  dsimp only
  split <;> rfl

/-- Every register after a draw: VF holds the collision flag, the others are unchanged (R177). -/
theorem State.getV_blit (s : State) (x y n r : Nibble) :
    (s.blit x y n).getV r =
      if r = 0xF then (if ∃ q ∈ s.spritePixels x y n, s.fb.pixel q.plane q.y q.x = true then 1 else 0)
      else s.getV r := by
  have e : (s.blit x y n).getV r =
      (({ s with fb := (FrameBuffer.toggleAll (s.spritePixels x y n) s.fb false).1 } : State).setFlag
        (FrameBuffer.toggleAll (s.spritePixels x y n) s.fb false).2).getV r := by
    unfold State.blit State.displayWait
    dsimp only
    split <;> rfl
  rw [e, State.getV_setFlag, FrameBuffer.hit_toggleAll _ _ _ (s.spritePixels_nodup x y n) State.spritePixels_stored]
  simp [State.getV]

end Sys2Proof.Machine
end

