-- ==== Sys2Proof/Laws/Exec.lean ====
section
/-! SUPPORT. What every instruction does to the halt registers and to STATUS, said once over all fifty. -/

namespace Sys2Proof.Machine

/-- The instruction completed: the halt registers are as before, and STATUS is, unless a wait began. -/
abbrev State.Completes (s t : State) : Prop :=
  t.haltReason = s.haltReason ∧ t.haltInfo = s.haltInfo ∧ t.faultLog = s.faultLog ∧
    (t.status = s.status ∨ (t.status = .vblankWait ∧ s.cfg.quirks.dispWait = true) ∨ t.status = .keyWait)

/-- The instruction raised a halt, and changed nothing but the halt registers. -/
abbrev State.Halts (s t : State) : Prop :=
  ∃ reason info, (reason = .addressOutOfRange ∨ reason = .stackOverflow ∨ reason = .stackUnderflow ∨ reason = .exit) ∧
    t = s.raise reason info

/-- What neither the instruction nor a halt changes is unchanged under the bounds check. -/
theorem State.guardRange_apply {α : Type} (f : State → α) {base n : Nat} {s t : State} (ht : f t = f s)
    (hr : ∀ reason info, f (s.raise reason info) = f s) : f (s.guardRange base n t) = f s := by
  rcases State.guardRange_cases base n s t with ⟨-, e⟩ | ⟨k, -, -, -, e⟩ <;> rw [e]
  · exact ht
  · exact hr _ _

theorem State.completes_guardRange {base n : Nat} {s t : State} (h : s.Completes t) :
    s.Halts (s.guardRange base n t) ∨ s.Completes (s.guardRange base n t) := by
  rcases State.guardRange_cases base n s t with ⟨-, e⟩ | ⟨k, -, -, -, e⟩
  · rw [e]; exact .inr h
  · exact .inl ⟨_, _, .inl rfl, e⟩

theorem State.completes_refl (s : State) : s.Completes s := ⟨rfl, rfl, rfl, .inl rfl⟩

/-- A draw ends with the display wait or leaves STATUS alone (R178). -/
theorem State.status_blit (s : State) (x y n : Nibble) :
    (s.blit x y n).status = if s.cfg.quirks.dispWait = true then .vblankWait else s.status := by
  by_cases h : s.cfg.quirks.dispWait = true <;> simp [State.blit, State.displayWait, h]

theorem State.completes_blit (s : State) (x y n : Nibble) : s.Completes (s.blit x y n) := by
  rw [State.blit_frame]
  refine ⟨rfl, rfl, rfl, ?_⟩
  by_cases h : s.cfg.quirks.dispWait = true
  · exact .inr (.inl ⟨by simp [State.status_blit, h], h⟩)
  · exact .inl (by simp [State.status_blit, h])

/-- Every instruction that answers a next state completes or halts. -/
theorem exec_cases {i : Instr} {s t : State} (h : exec i s = .next t) : s.Halts t ∨ s.Completes t := by
  cases i
  case ret =>
    rcases s.returnToCaller_cases with ⟨-, e⟩ | ⟨hk, -, -, e⟩ | ⟨-, e⟩ <;> simp only [exec, execRet, e] at h <;> cases h
    · exact .inl ⟨_, _, by simp, rfl⟩
    · exact .inr s.completes_refl
  case call nnn =>
    rcases s.callTo_cases (addr16 nnn) with ⟨-, e⟩ | ⟨hk, -, e⟩ | ⟨-, e⟩ <;> simp only [exec, execCall, e] at h <;> cases h
    · exact .inl ⟨_, _, by simp, rfl⟩
    · exact .inr s.completes_refl
  case exit => cases h; exact .inl ⟨_, _, by simp, rfl⟩
  case drw => cases h; exact State.completes_guardRange (s.completes_blit ..)
  case saveRange | loadRange | ldB | audio => cases h; exact State.completes_guardRange s.completes_refl
  case storeRegs | loadRegs =>
    cases h
    refine State.completes_guardRange ?_
    rw [State.incIndex_frame]; exact s.completes_refl
  case orReg | andReg | xorReg => cases h; rw [State.setLogicResult_frame]; exact .inr s.completes_refl
  case seImm | sneImm | seReg | sneReg | skp | sknp =>
    cases h; rw [State.skipIf_frame]; exact .inr s.completes_refl
  case ldVxK => cases h; exact .inr ⟨rfl, rfl, rfl, .inr (.inr rfl)⟩
  all_goals cases h; exact .inr s.completes_refl

end Sys2Proof.Machine
end

