-- ==== Sys2Proof/Laws/Fetch.lean ====
section
/-! SUPPORT. What a fetch can answer, case by case, and what a step in each STATUS is. -/

namespace Sys2Proof.Machine

variable {s : State}

theorem State.dispatch_some {a op w : Word} {i : Instr} (h : decodeWords s.cfg op w = some i) :
    State.dispatch a op w s = .run i s := by
  unfold State.dispatch; rw [h]

theorem State.dispatch_none {a op w : Word} (h : decodeWords s.cfg op w = none) :
    State.dispatch a op w s = .halt (s.raise .invalidOpcode (.opcode op a)) := by
  unfold State.dispatch; rw [h]

/-- The opcode bytes are not both in memory. -/
theorem State.fetch_out (h : s.cfg.memSize ≤ s.pc.toNat + 1) :
    s.fetch = .halt (s.raise .addressOutOfRange (.value (max s.pc.toNat s.cfg.memSize))) := by
  have e : firstOutOfRange s.cfg.memSize s.pc.toNat 2 = some (max s.pc.toNat s.cfg.memSize) := by
    unfold firstOutOfRange
    rw [if_neg (by omega), if_neg (by omega)]
  unfold State.fetch
  simp only [e]

/-- A word that is an instruction of its own. -/
theorem State.fetch_short (h : s.pc.toNat + 1 < s.cfg.memSize) (hl : isLong s.cfg (s.mem.readWord s.pc.toNat) = false) :
    s.fetch = State.dispatch s.pc (s.mem.readWord s.pc.toNat) 0 { s with pc := s.pc + 2 } := by
  have e : firstOutOfRange s.cfg.memSize s.pc.toNat 2 = none := by
    rw [firstOutOfRange_eq_none]; omega
  unfold State.fetch
  simp only [e, hl, Bool.false_eq_true, if_false]

/-- `F000 NNNN` with its second word outside memory. -/
theorem State.fetch_long_out (h : s.pc.toNat + 1 < s.cfg.memSize)
    (hl : isLong s.cfg (s.mem.readWord s.pc.toNat) = true) (h2 : s.cfg.memSize ≤ s.pc.toNat + 3) :
    s.fetch = .halt (({ s with pc := s.pc + 2 } : State).raise .addressOutOfRange
      (.value (max (s.pc.toNat + 2) s.cfg.memSize))) := by
  have e : firstOutOfRange s.cfg.memSize s.pc.toNat 2 = none := by
    rw [firstOutOfRange_eq_none]; omega
  have e2 : firstOutOfRange s.cfg.memSize (s.pc.toNat + 2) 2 = some (max (s.pc.toNat + 2) s.cfg.memSize) := by
    unfold firstOutOfRange
    rw [if_neg (by omega), if_neg (by omega)]
  unfold State.fetch
  simp only [e, hl, if_true, e2]

/-- `F000 NNNN` wholly in memory. -/
theorem State.fetch_long (h : s.pc.toNat + 3 < s.cfg.memSize) (hl : isLong s.cfg (s.mem.readWord s.pc.toNat) = true) :
    s.fetch = .run (.ldILong (s.mem.readWord (s.pc.toNat + 2))) { s with pc := s.pc + 4 } := by
  have e : firstOutOfRange s.cfg.memSize s.pc.toNat 2 = none := by
    rw [firstOutOfRange_eq_none]; omega
  have e2 : firstOutOfRange s.cfg.memSize (s.pc.toNat + 2) 2 = none := by
    rw [firstOutOfRange_eq_none]; omega
  unfold State.fetch
  simp only [e, hl, if_true, e2]
  obtain ⟨hx, ho⟩ := (isLong_iff ..).1 hl
  refine State.dispatch_some ?_
  rw [ho]
  exact decodeWords_opcode (i := .ldILong (s.mem.readWord (s.pc.toNat + 2))) hx _ (by simp [Instr.operandWord])

/-- Everything a fetch can answer: a halt, with PC past the word if the word was read and nothing else changed, or an
instruction of the configuration, with PC past its words. -/
theorem State.fetch_cases (s : State) :
    (∃ reason info, (reason = .addressOutOfRange ∨ reason = .invalidOpcode) ∧
      s.fetch = .halt (({ s with pc := if s.pc.toNat + 1 < s.cfg.memSize then s.pc + 2 else s.pc } : State).raise
        reason info)) ∨
    (∃ i, i.WellFormed s.cfg ∧ s.pc.toNat + 1 < s.cfg.memSize ∧
      s.fetch = .run i { s with pc := s.pc + BitVec.ofNat 16 i.length }) := by
  by_cases h : s.cfg.memSize ≤ s.pc.toNat + 1
  · left
    refine ⟨.addressOutOfRange, .value (max s.pc.toNat s.cfg.memSize), .inl rfl, ?_⟩
    rw [if_neg (by omega), State.fetch_out h]
  rw [not_le] at h
  cases hl : isLong s.cfg (s.mem.readWord s.pc.toNat)
  · rw [State.fetch_short h hl]
    cases hd : decodeWords s.cfg (s.mem.readWord s.pc.toNat) 0 with
    | none =>
      left
      refine ⟨.invalidOpcode, .opcode (s.mem.readWord s.pc.toNat) s.pc, .inr rfl, ?_⟩
      rw [if_pos h]
      exact State.dispatch_none hd
    | some i =>
      right
      obtain ⟨hw, hr⟩ := decodeWords_eq_some hd
      refine ⟨i, hw, h, ?_⟩
      rw [show i.length = 2 from ?_]
      · exact State.dispatch_some hd
      · rcases (decodeRow_sound hr).2 with h2 | ⟨h2, h3⟩
        · simp [Instr.length, h2]
        · obtain ⟨k, rfl⟩ := opcode_long.1 ((decodeRow_sound hr).1.trans h3)
          rw [← Bool.not_eq_true, isLong_iff] at hl
          exact absurd ⟨hw, h3⟩ hl
  · by_cases h2 : s.cfg.memSize ≤ s.pc.toNat + 3
    · left
      refine ⟨.addressOutOfRange, .value (max (s.pc.toNat + 2) s.cfg.memSize), .inl rfl, ?_⟩
      rw [if_pos h]
      exact State.fetch_long_out h hl h2
    · right
      rw [not_le] at h2
      exact ⟨.ldILong (s.mem.readWord (s.pc.toNat + 2)), ((isLong_iff ..).1 hl).1, h, State.fetch_long h2 hl⟩

/-- A step of a running engine whose fetch halts. -/
theorem step_of_halt {t : State} (hs : s.status = .run) (hf : s.fetch = .halt t) : step s = .next t := by
  unfold step; simp only [hs, hf]

/-- A step of a running engine whose fetch gives an instruction. -/
theorem step_of_run {t : State} {i : Instr} (hs : s.status = .run) (hf : s.fetch = .run i t) : step s = exec i t := by
  unfold step; simp only [hs, hf]

theorem step_of_vblankWait (hs : s.status = .vblankWait) : step s = .next s := by unfold step; simp only [hs]

theorem step_of_keyWait (hs : s.status = .keyWait) : step s = .next s.keyWaitStep := by unfold step; simp only [hs]

theorem step_of_halted (hs : s.status = .halted) : step s = .next s := by unfold step; simp only [hs]

end Sys2Proof.Machine
end

