-- ==== Sys2Proof/Laws/PerInstr.lean ====
section
/-! SUPPORT. The one per-instruction family: how long an instruction is and which bytes come first (30_encoding.md R90–R92). -/

namespace Sys2Proof.Laws

/-- The encoding of `i` is as long as `i` says and begins with its opcode word, high byte first; it is 4 bytes long exactly when
that word is 0xF000, and 2 otherwise (R91, R92). -/
def EncodedLength.Statement (i : Instr) : Prop :=
  i.encode.length = i.length ∧ i.encode.take 2 = bytesOf i.opcode ∧ i.length = if i.opcode = 0xF000 then 4 else 2

/-- An instruction with no second word. -/
theorem EncodedLength.of_short {i : Instr} (h : i.operandWord = none) : EncodedLength.Statement i := by
  have hne : i.opcode ≠ 0xF000 := by
    rw [ne_eq, opcode_long]; rintro ⟨k, rfl⟩; cases h
  refine ⟨?_, ?_, ?_⟩
  · simp [Instr.encode, Instr.length, h, bytesOf]
  · simp [Instr.encode, h, bytesOf]
  · rw [if_neg hne]; simp [Instr.length, h]

theorem EncodedLength.cls : EncodedLength.Statement .cls := of_short rfl
theorem EncodedLength.ret : EncodedLength.Statement .ret := of_short rfl
theorem EncodedLength.scd (n : Nibble) : EncodedLength.Statement (.scd n) := of_short rfl
theorem EncodedLength.scu (n : Nibble) : EncodedLength.Statement (.scu n) := of_short rfl
theorem EncodedLength.scr : EncodedLength.Statement .scr := of_short rfl
theorem EncodedLength.scl : EncodedLength.Statement .scl := of_short rfl
theorem EncodedLength.exit : EncodedLength.Statement .exit := of_short rfl
theorem EncodedLength.low : EncodedLength.Statement .low := of_short rfl
theorem EncodedLength.high : EncodedLength.Statement .high := of_short rfl
theorem EncodedLength.jp (nnn : Addr12) : EncodedLength.Statement (.jp nnn) := of_short rfl
theorem EncodedLength.call (nnn : Addr12) : EncodedLength.Statement (.call nnn) := of_short rfl
theorem EncodedLength.seImm (x : Nibble) (nn : Byte) : EncodedLength.Statement (.seImm x nn) := of_short rfl
theorem EncodedLength.sneImm (x : Nibble) (nn : Byte) : EncodedLength.Statement (.sneImm x nn) := of_short rfl
theorem EncodedLength.seReg (x : Nibble) (y : Nibble) : EncodedLength.Statement (.seReg x y) := of_short rfl
theorem EncodedLength.saveRange (x : Nibble) (y : Nibble) : EncodedLength.Statement (.saveRange x y) := of_short rfl
theorem EncodedLength.loadRange (x : Nibble) (y : Nibble) : EncodedLength.Statement (.loadRange x y) := of_short rfl
theorem EncodedLength.ldImm (x : Nibble) (nn : Byte) : EncodedLength.Statement (.ldImm x nn) := of_short rfl
theorem EncodedLength.addImm (x : Nibble) (nn : Byte) : EncodedLength.Statement (.addImm x nn) := of_short rfl
theorem EncodedLength.ldReg (x : Nibble) (y : Nibble) : EncodedLength.Statement (.ldReg x y) := of_short rfl
theorem EncodedLength.orReg (x : Nibble) (y : Nibble) : EncodedLength.Statement (.orReg x y) := of_short rfl
theorem EncodedLength.andReg (x : Nibble) (y : Nibble) : EncodedLength.Statement (.andReg x y) := of_short rfl
theorem EncodedLength.xorReg (x : Nibble) (y : Nibble) : EncodedLength.Statement (.xorReg x y) := of_short rfl
theorem EncodedLength.addReg (x : Nibble) (y : Nibble) : EncodedLength.Statement (.addReg x y) := of_short rfl
theorem EncodedLength.subReg (x : Nibble) (y : Nibble) : EncodedLength.Statement (.subReg x y) := of_short rfl
theorem EncodedLength.shr (x : Nibble) (y : Nibble) : EncodedLength.Statement (.shr x y) := of_short rfl
theorem EncodedLength.subnReg (x : Nibble) (y : Nibble) : EncodedLength.Statement (.subnReg x y) := of_short rfl
theorem EncodedLength.shl (x : Nibble) (y : Nibble) : EncodedLength.Statement (.shl x y) := of_short rfl
theorem EncodedLength.sneReg (x : Nibble) (y : Nibble) : EncodedLength.Statement (.sneReg x y) := of_short rfl
theorem EncodedLength.ldI (nnn : Addr12) : EncodedLength.Statement (.ldI nnn) := of_short rfl
theorem EncodedLength.jpOffset (nnn : Addr12) : EncodedLength.Statement (.jpOffset nnn) := of_short rfl
theorem EncodedLength.rnd (x : Nibble) (nn : Byte) : EncodedLength.Statement (.rnd x nn) := of_short rfl
theorem EncodedLength.drw (x : Nibble) (y : Nibble) (n : Nibble) : EncodedLength.Statement (.drw x y n) := of_short rfl
theorem EncodedLength.skp (x : Nibble) : EncodedLength.Statement (.skp x) := of_short rfl
theorem EncodedLength.sknp (x : Nibble) : EncodedLength.Statement (.sknp x) := of_short rfl
theorem EncodedLength.ldILong (nnnn : Word) : EncodedLength.Statement (.ldILong nnnn) := ⟨rfl, rfl, rfl⟩
theorem EncodedLength.plane (n : BitVec 2) : EncodedLength.Statement (.plane n) := of_short rfl
theorem EncodedLength.audio : EncodedLength.Statement .audio := of_short rfl
theorem EncodedLength.ldVxDt (x : Nibble) : EncodedLength.Statement (.ldVxDt x) := of_short rfl
theorem EncodedLength.ldVxK (x : Nibble) : EncodedLength.Statement (.ldVxK x) := of_short rfl
theorem EncodedLength.ldDtVx (x : Nibble) : EncodedLength.Statement (.ldDtVx x) := of_short rfl
theorem EncodedLength.ldStVx (x : Nibble) : EncodedLength.Statement (.ldStVx x) := of_short rfl
theorem EncodedLength.addI (x : Nibble) : EncodedLength.Statement (.addI x) := of_short rfl
theorem EncodedLength.ldF (x : Nibble) : EncodedLength.Statement (.ldF x) := of_short rfl
theorem EncodedLength.ldHf (x : Nibble) : EncodedLength.Statement (.ldHf x) := of_short rfl
theorem EncodedLength.ldB (x : Nibble) : EncodedLength.Statement (.ldB x) := of_short rfl
theorem EncodedLength.pitch (x : Nibble) : EncodedLength.Statement (.pitch x) := of_short rfl
theorem EncodedLength.storeRegs (x : Nibble) : EncodedLength.Statement (.storeRegs x) := of_short rfl
theorem EncodedLength.loadRegs (x : Nibble) : EncodedLength.Statement (.loadRegs x) := of_short rfl
theorem EncodedLength.saveRpl (x : Nibble) : EncodedLength.Statement (.saveRpl x) := of_short rfl
theorem EncodedLength.loadRpl (x : Nibble) : EncodedLength.Statement (.loadRpl x) := of_short rfl

end Sys2Proof.Laws
end

