-- ==== Sys2Proof/Laws/Session.lean ====
section
/-! SUPPORT. The memory of a session from its start: its canonical form, and the tables written into it. -/

namespace Sys2Proof

/-- The memory of every mode reaches above 0x200 (R60). -/
theorem Config.memSize_ge (c : Config) : 4096 ≤ c.memSize := by
  unfold Config.memSize; split <;> decide

end Sys2Proof

namespace Sys2Proof.Machine

/-! ### A table of rows, written out row by row -/

theorem length_flatMap_rows {α : Type} {m : Nat} (rows : List (Vector α m)) :
    (rows.flatMap Vector.toList).length = m * rows.length := by
  induction rows with
  | nil => simp
  | cons r rows ih => simp only [List.flatMap_cons, List.length_append, ih, Vector.length_toList, List.length_cons, Nat.mul_succ]; omega

theorem getElem?_flatMap_rows {α : Type} {m : Nat} (rows : List (Vector α m)) (d k : Nat) (hd : d < rows.length)
    (hk : k < m) : (rows.flatMap Vector.toList)[m * d + k]? = some rows[d][k] := by
  induction rows generalizing d with
  | nil => simp at hd
  | cons r rows ih =>
    rw [List.flatMap_cons]
    cases d with
    | zero => rw [List.getElem?_append_left (by simpa using hk)]; simp [hk]
    | succ d =>
      rw [List.getElem?_append_right (by rw [Vector.length_toList, Nat.mul_succ]; omega), Vector.length_toList,
        show m * (d + 1) + k - m = m * d + k by rw [Nat.mul_succ]; omega]
      exact ih d (by simpa using hd)

/-- The byte of row `d`, column `k` of a table stored at `base` (R68). -/
theorem Memory.read_table {n m : Nat} (mem : Memory) (base : Nat) (table : Vector (Vector Byte m) n) (d : Fin n)
    (k : Fin m) :
    (mem.writeBytes base (table.toList.flatMap Vector.toList)).read (base + m * d.val + k.val) = table[d][k] := by
  have hd : d.val < table.toList.length := by simp
  have e := getElem?_flatMap_rows table.toList d.val k.val hd k.isLt
  obtain ⟨hl, e⟩ := List.getElem?_eq_some_iff.1 e
  rw [Nat.add_assoc, Memory.read_writeBytes_inside _ _ _ _ hl, e]
  simp

/-- A table leaves every byte outside it alone. -/
theorem Memory.read_table_outside {n m : Nat} (mem : Memory) {base a : Nat} {table : Vector (Vector Byte m) n}
    (h : a < base ∨ base + m * n ≤ a) :
    (mem.writeBytes base (table.toList.flatMap Vector.toList)).read a = mem.read a := by
  refine Memory.read_writeBytes_outside _ ?_
  rwa [length_flatMap_rows, Vector.length_toList]

/-- Before the tables are written memory is zero, the model's own font region too (R295; log 4). -/
theorem Memory.read_zeroed (a : Nat) : (Memory.writeBytes [] 0x050 (List.replicate 80 0x00)).read a = 0x00 := by
  rw [Memory.read_writeBytes]
  split
  · exact List.getElem_replicate ..
  · rename_i h
    rw [Memory.read_nil, Memory.unlisted, dif_neg]
    simp only [List.length_replicate] at h; omega

/-! ### The canonical form -/

theorem Memory.wf_initialMemory (c : Config) : (initialMemory c).wf := by
  unfold initialMemory
  have h := Memory.wf_writeBytes (Memory.wf_writeBytes Memory.wf_nil 0x050 (List.replicate 80 0x00)) c.fontBase.toNat
    (c.font.toList.flatMap Vector.toList)
  simp only
  split
  · exact Memory.wf_writeBytes h _ _
  · exact h

/-- With the default font at its default place nothing is listed: `State.reset` has the memory of a session. -/
theorem initialMemory_default : initialMemory Config.default = [] := by
  refine Memory.ext_of_wf (m := initialMemory Config.default) (Memory.wf_initialMemory Config.default) Memory.wf_nil
    fun a => ?_
  show (Memory.writeBytes (Memory.writeBytes [] 0x050 (List.replicate 80 0x00)) 0x050
    (defaultFont.toList.flatMap Vector.toList)).read a = _
  by_cases ha : 0x50 ≤ a ∧ a < 0xA0
  · obtain ⟨k, d, e⟩ : ∃ k : Fin 5, ∃ d : Fin 16, a = 0x50 + 5 * d.val + k.val :=
      ⟨⟨(a - 0x50) % 5, by omega⟩, ⟨(a - 0x50) / 5, by omega⟩, by simp only; omega⟩
    rw [Memory.read_nil, Memory.unlisted, dif_pos ha]
    subst e
    rw [Memory.read_table]
    simp only [show (80 + 5 * d.val + k.val - 80) / 5 = d.val by omega,
      show (80 + 5 * d.val + k.val - 80) % 5 = k.val by omega]
    rfl
  · rw [Memory.read_table_outside _ (by omega), Memory.read_zeroed, Memory.read_nil, Memory.unlisted, dif_neg ha]

/-- The tables lie below 0x200 (R294). -/
theorem Memory.bound_initialMemory {c : Config} (hc : c.Ok) : ∀ p ∈ initialMemory c, p.1 < 0x200 := by
  obtain ⟨-, hf, hb⟩ := hc
  unfold initialMemory
  have h := Memory.bound_writeBytes (size := 0x200) (a := c.fontBase.toNat) (bs := c.font.toList.flatMap Vector.toList)
    (Memory.bound_writeBytes (size := 0x200) (m := []) (a := 0x050) (bs := List.replicate 80 0x00) (by simp) (by simp))
    (.inr (by rw [length_flatMap_rows, Vector.length_toList]; omega))
  simp only
  split
  · exact Memory.bound_writeBytes h (.inr (by rw [length_flatMap_rows, Vector.length_toList]; have := hb ‹_›; omega))
  · exact h

theorem Memory.wf_place {m : Memory} (h : m.wf) (size a : Nat) (bs : List Byte) : (Memory.place size m a bs).wf := by
  induction bs generalizing m a with
  | nil => exact h
  | cons b bs ih =>
    unfold Memory.place
    split
    · exact ih (Memory.wf_write h a b) _
    · exact ih h _

end Sys2Proof.Machine
end

