-- ==== Sys2Proof/Laws/Sprite.lean ====
section
/-! SUPPORT. The pixels the blit toggles are those the terms of Safety.lean say a sprite covers. -/

namespace Sys2Proof.Machine

/-- The two ways to say that a plane is selected. -/
theorem State.mem_selectedPlanes_iff (s : State) (p : PlaneId) : p ∈ s.selectedPlanes ↔ s.selects p = true := by
  rw [State.mem_selectedPlanes]
  cases p
  · rfl
  · simp only [State.selects, Config.planes]
    cases s.cfg.mode <;> simp

/-- A change of the selected planes, pixel by pixel (R35). -/
theorem State.pixel_mapSelected (s : State) (f : Plane → Plane) (p : PlaneId) (y x : Nat) :
    (s.fb.mapPlanes f s.selectedPlanes).pixel p y x =
      if s.selects p = true then (f (s.fb.plane p)).pixel y x else s.fb.pixel p y x := by
  simp only [FrameBuffer.pixel, FrameBuffer.plane_mapPlanes _ _ _ _ s.selectedPlanes_nodup,
    State.mem_selectedPlanes_iff]
  split <;> rfl

theorem spriteSize_width (c : Config) (n : Nibble) : (spriteSize c n).1 = spriteWidth c n := by
  unfold spriteSize spriteWidth Config.extSchip
  by_cases hn : n = 0
  · cases c.mode <;> simp [hn]
  · rw [if_neg hn, if_neg fun h => hn h.1]

theorem spriteSize_height (c : Config) (n : Nibble) : (spriteSize c n).2 = spriteHeight c n := by
  unfold spriteSize spriteHeight Config.extSchip
  by_cases hn : n = 0
  · cases c.mode <;> simp [hn]
  · rw [if_neg hn, if_neg fun h => hn h.1]

theorem bytesPerRow_eq (c : Config) (n : Nibble) : bytesPerRow c n = spriteWidth c n / 8 := by
  rw [bytesPerRow, spriteSize_width]

theorem spriteBytes_eq (c : Config) (n : Nibble) : spriteBytes c n = spriteBlock c n := by
  rw [spriteBytes, spriteSize_height, bytesPerRow_eq, spriteBlock]

/-- The number of bytes the bounds check of a draw covers (R181). -/
theorem State.spriteTotal_eq (s : State) (n : Nibble) : s.spriteTotal n = spriteData s n := by
  have hx : decide (1 < s.cfg.planes) = (s.cfg.mode == .xochip) := by unfold Config.planes; cases s.cfg.mode <;> rfl
  have hl : s.selectedPlanes.length =
      (if s.selects .plane1 = true then 1 else 0) + (if s.selects .plane2 = true then 1 else 0) := by
    have h1 : s.selects .plane1 = s.planeMask.getLsbD 0 := rfl
    have h2 : s.selects .plane2 = (decide (1 < s.cfg.planes) && s.planeMask.getLsbD 1) := by rw [hx]; rfl
    simp only [State.selectedPlanes, ← h1, ← h2]
    cases s.selects .plane1 <;> cases s.selects .plane2 <;> rfl
  rw [State.spriteTotal, spriteData, hl, spriteBytes_eq]

/-- Where a sprite bit lands on one axis (R176). -/
theorem landing_startCoord {c : Config} {size v k pos : Nat} (hs : 0 < size) :
    landing c size (startCoord c size v + k) = some pos ↔ LandsOn c size v k pos ∧ pos < size := by
  unfold landing startCoord LandsOn
  cases c.quirks.clip <;> cases c.clipStartWrap <;> simp
  · rintro rfl; exact Nat.mod_lt _ hs
  · rintro rfl; exact Nat.mod_lt _ hs
  · constructor <;> rintro ⟨h1, h2⟩ <;> constructor <;> omega
  · constructor <;> rintro ⟨h1, h2⟩ <;> constructor <;> omega

/-- The leftmost pixel of a sprite row is the top bit of its first byte (R176). -/
theorem State.spriteBit_eq (s : State) (n : Nibble) (base r c : Nat) (hc : c < spriteWidth s.cfg n) :
    s.spriteBit n base r c =
      (s.mem.read (base + r * (spriteWidth s.cfg n / 8) + c / 8)).getLsbD (7 - c % 8) := by
  unfold State.spriteBit
  rw [bytesPerRow_eq, spriteSize_width]
  generalize base + r * (spriteWidth s.cfg n / 8) = a
  have hw : spriteWidth s.cfg n = 8 ∨ spriteWidth s.cfg n = 16 := by unfold spriteWidth; split <;> simp
  rcases hw with hw | hw <;> rw [hw] at hc ⊢
  · rw [show c / 8 = 0 by omega, show c % 8 = c by omega]
    simp [Memory.readBytes, bigEndian, BitVec.getLsbD]
  · simp only [Memory.readBytes, bigEndian, BitVec.getLsbD, List.foldl, Nat.zero_mul, Nat.zero_add]
    have h1 := (s.mem.read a).isLt
    have h2 := (s.mem.read (a + 1)).isLt
    have e : (s.mem.read a).toNat * 256 + (s.mem.read (a + 1)).toNat =
        2 ^ 8 * (s.mem.read a).toNat + (s.mem.read (a + 1)).toNat := by omega
    rw [e, Nat.testBit_two_pow_mul_add _ h2]
    rcases Nat.lt_or_ge c 8 with h | h
    · rw [if_neg (by omega), show c / 8 = 0 by omega, show 16 - 1 - c - 8 = 7 - c % 8 by omega, Nat.add_zero]
    · rw [if_pos (by omega), show c / 8 = 1 by omega, show 16 - 1 - c = 7 - c % 8 by omega]

/-- The pixels a draw toggles are those the sprite covers. -/
theorem State.mem_spritePixels {s : State} {x y n : Nibble} {p : PlaneId} {py px : Nat} :
    (⟨p, py, px⟩ : PixelRef) ∈ s.spritePixels x y n ↔ SpriteCovers s x y n p py px := by
  have hw : 0 < s.res.width := by have := s.res.width_le; omega
  have hh : 0 < s.res.height := by have := s.res.height_le; omega
  have hb : ∀ base, (⟨p, py, px⟩ : PixelRef) ∈ s.blockPixels (startCoord s.cfg s.res.width (s.getV x).toNat)
        (startCoord s.cfg s.res.height (s.getV y).toNat) n p base ↔
      py < s.res.height ∧ px < s.res.width ∧ ∃ r < spriteHeight s.cfg n, ∃ c < spriteWidth s.cfg n,
        (s.mem.read (base + r * (spriteWidth s.cfg n / 8) + c / 8)).getLsbD (7 - c % 8) = true ∧
        LandsOn s.cfg s.res.height (s.getV y).toNat r py ∧ LandsOn s.cfg s.res.width (s.getV x).toNat c px := by
    intro base
    rw [State.mem_blockPixels, spriteSize_height, spriteSize_width]
    constructor
    · rintro ⟨r, hr, c, hc, h1, -, h2, h3⟩
      obtain ⟨h2, h2'⟩ := (landing_startCoord hw).1 h2
      obtain ⟨h3, h3'⟩ := (landing_startCoord hh).1 h3
      exact ⟨h3', h2', r, hr, c, hc, by rwa [← State.spriteBit_eq _ _ _ _ _ hc], h3, h2⟩
    · rintro ⟨h3', h2', r, hr, c, hc, h1, h3, h2⟩
      exact ⟨r, hr, c, hc, by rwa [State.spriteBit_eq _ _ _ _ _ hc], rfl,
        (landing_startCoord hw).2 ⟨h2, h2'⟩, (landing_startCoord hh).2 ⟨h3, h3'⟩⟩
  have hbase : (⟨p, py, px⟩ : PixelRef) ∈ s.spritePixels x y n ↔ p ∈ s.selectedPlanes ∧
      (⟨p, py, px⟩ : PixelRef) ∈ s.blockPixels (startCoord s.cfg s.res.width (s.getV x).toNat)
        (startCoord s.cfg s.res.height (s.getV y).toNat) n p (spriteBase s n p) := by
    unfold State.spritePixels
    have plane_of : ∀ {q b}, (⟨p, py, px⟩ : PixelRef) ∈ s.blockPixels (startCoord s.cfg s.res.width (s.getV x).toNat)
        (startCoord s.cfg s.res.height (s.getV y).toNat) n q b → p = q := by
      intro q b h
      obtain ⟨_, _, _, _, _, e, _⟩ := State.mem_blockPixels.1 h
      exact e
    have hx : decide (1 < s.cfg.planes) = (s.cfg.mode == .xochip) := by
      unfold Config.planes; cases s.cfg.mode <;> rfl
    have h1 : s.selects .plane1 = s.planeMask.getLsbD 0 := rfl
    have h2 : s.selects .plane2 = (decide (1 < s.cfg.planes) && s.planeMask.getLsbD 1) := by rw [hx]; rfl
    simp only [State.selectedPlanes, spriteBase, ← h1, ← h2]
    cases s.selects .plane1 <;> cases s.selects .plane2 <;> cases p <;>
      simp only [Bool.false_eq_true, if_false, if_true, List.nil_append, List.append_nil, List.cons_append,
        State.planesPixels, List.not_mem_nil, List.mem_cons, List.mem_append, false_and, or_false, false_or,
        reduceCtorEq, true_and, and_false, and_true, Nat.add_zero, spriteBytes_eq]
    case true.true.plane1 => exact ⟨fun h => h.resolve_right fun h => absurd (plane_of h) (by simp), .inl⟩
    case true.true.plane2 => exact ⟨fun h => h.resolve_left fun h => absurd (plane_of h) (by simp), .inr⟩
    case false.true.plane1 => exact ⟨fun h => absurd (plane_of h) (by simp), False.elim⟩
    case true.false.plane2 => exact ⟨fun h => absurd (plane_of h) (by simp), False.elim⟩
  rw [hbase, hb, State.mem_selectedPlanes_iff]
  rfl

/-! ### The display invariant, pixel by pixel -/

theorem Plane.inside_iff (w h : Nat) (pl : Plane) :
    pl.Inside w h ↔ ∀ y x, pl.pixel y x = true → y < h ∧ x < w := by
  constructor
  · intro hi y x hp
    unfold Plane.pixel at hp
    split at hp
    case isFalse => cases hp
    case isTrue hy =>
      obtain ⟨h1, h2⟩ := hi ⟨y, hy⟩
      refine ⟨?_, ?_⟩
      · by_contra hc
        have e : pl[y] = 0 := h1 (by simpa using hc)
        rw [e] at hp; simp at hp
      · by_contra hc
        have hx : x < 128 := BitVec.lt_of_getLsbD hp
        have e : (pl[y] &&& ~~~columns w).getLsbD x = false := by
          rw [show pl[y] &&& ~~~columns w = 0 from h2]; simp
        rw [BitVec.getLsbD_and, BitVec.getLsbD_not, columns_getLsbD, hp] at e
        simp [hx, hc] at e
  · intro hi y
    have hp : ∀ x, pl[y].getLsbD x = true → y.val < h ∧ x < w := fun x hx =>
      hi y.val x (by simpa [Plane.pixel, y.isLt] using hx)
    refine ⟨fun hy => BitVec.eq_of_getLsbD_eq fun x _ => ?_, BitVec.eq_of_getLsbD_eq fun x hx => ?_⟩
    · cases hc : pl[y].getLsbD x with
      | false => simp
      | true => have := (hp x hc).1; omega
    · rw [BitVec.getLsbD_and, BitVec.getLsbD_not, columns_getLsbD]
      cases hc : pl[y].getLsbD x with
      | false => simp
      | true => simp [hx, (hp x hc).2]

theorem Plane.eq_blank_iff (pl : Plane) : pl = Plane.blank ↔ ∀ y x, pl.pixel y x = false := by
  constructor
  · rintro rfl y x; exact Plane.pixel_blank y x
  · intro h
    refine Vector.ext fun y hy => BitVec.eq_of_getLsbD_eq fun x _ => ?_
    have := h y x
    simp only [Plane.pixel, hy, dite_true] at this
    rw [this]; simp [Plane.blank]

/-- `DisplayInv` with its plane clauses said of pixels: a lit pixel lies in the active region of a plane the mode has. -/
theorem State.displayInv_iff (s : State) :
    s.DisplayInv ↔ (s.cfg.hiresOk = false → s.res = .low) ∧ (s.cfg.planes = 1 → s.planeMask = 1) ∧
      ∀ p y x, s.fb.pixel p y x = true → (p = .plane2 → s.cfg.planes ≠ 1) ∧ y < s.res.height ∧ x < s.res.width := by
  unfold State.DisplayInv
  rw [Plane.inside_iff, Plane.inside_iff, Plane.eq_blank_iff]
  constructor
  · rintro ⟨h1, h2, h3, h4⟩
    refine ⟨h1, fun h => (h2 h).1, fun p y x hp => ?_⟩
    cases p
    · exact ⟨by simp, h3 y x hp⟩
    · refine ⟨fun _ h => ?_, h4 y x hp⟩
      have e : s.fb.pixel .plane2 y x = false := (h2 h).2 y x
      rw [e] at hp; cases hp
  · rintro ⟨h1, h2, h3⟩
    refine ⟨h1, fun h => ⟨h2 h, fun y x => ?_⟩, fun y x hp => (h3 .plane1 y x hp).2, fun y x hp => (h3 .plane2 y x hp).2⟩
    cases hp : s.fb.plane2.pixel y x with
    | false => rfl
    | true => exact absurd h ((h3 .plane2 y x hp).1 rfl)

/-- A selected plane is one the mode has (R35). -/
theorem State.planes_of_selects {s : State} (h : s.selects .plane2 = true) : s.cfg.planes ≠ 1 := by
  simp only [State.selects, Bool.and_eq_true, beq_iff_eq] at h
  simp [Config.planes, h.1]

end Sys2Proof.Machine
end

