-- ==== Sys2Proof/Tests/Slice0.lean ====
section
/-! SUPPORT. The model's own tests. Expected values come from spec/95_test_vectors.md (the vector is named in the comment) or from
the encoding tables of spec/30_encoding.md; none is the model's own answer. The last part holds, for every obligation with
hypotheses, states and operands that meet all of them. -/

namespace Sys2Proof.Tests

open Sys2Proof.Machine

/-! ### Helpers -/

/-- The start of a session of mode `m` (the default tables, so nothing is listed in memory). -/
def start (m : Mode) : State := { State.reset with cfg := Config.standard m false }

/-- The same with `P_EXTRAS`. -/
def startExtras (m : Mode) : State := { State.reset with cfg := Config.standard m true }

/-- The state a result holds, if it is a next state. -/
def nextOf : Result → Option State
  | .next t => some t
  | .fault _ => none
  | .refused _ => none

/-- One step with the word `op` (and `op2` after it) at PC. -/
def stepOn (op : Word) (s : State) : Option State :=
  nextOf (step { s with mem := s.mem.writeBytes s.pc.toNat (bytesOf op) })

/-- A halt as HALT_REASON, HALT_INFO and PC show it. -/
def haltOf (t : State) : Status × HaltReason × HaltInfo × Word := (t.status, t.haltReason, t.haltInfo, t.pc)

/-- A pixel of plane 1, by column and row. -/
def lit (t : State) (x y : Nat) : Bool := t.fb.pixel .plane1 y x

/-- A result that shows a value holds a next state that has it. -/
theorem exists_next {α : Type} {r : Result} {f : State → α} {a : α} (h : (nextOf r).map f = some a) :
    ∃ t, r = .next t ∧ f t = a := by
  cases r with
  | next t => exact ⟨t, rfl, by simpa [nextOf] using h⟩
  | fault | refused => simp [nextOf] at h

/-! ### Well-formedness: each check refuses an ill-formed term (R97–R106) -/

theorem test_illformed_scd_needs_schip : ¬ Instr.WellFormed (Config.standard .chip8 false) (.scd 1) := by decide
theorem test_illformed_scu_needs_xochip : ¬ Instr.WellFormed (Config.standard .schip true) (.scu 1) := by decide
theorem test_illformed_scu_needs_extras : ¬ Instr.WellFormed (Config.standard .xochip false) (.scu 1) := by decide
theorem test_illformed_scr_needs_extras_in_schip : ¬ Instr.WellFormed (Config.standard .schip false) (.scr) := by decide
theorem test_illformed_scl_needs_extras_in_schip : ¬ Instr.WellFormed (Config.standard .schip false) (.scl) := by decide
theorem test_illformed_scr_refused_in_chip8 : ¬ Instr.WellFormed (Config.standard .chip8 true) (.scr) := by decide
theorem test_illformed_exit_needs_extras : ¬ Instr.WellFormed (Config.standard .schip false) (.exit) := by decide
theorem test_illformed_exit_needs_schip : ¬ Instr.WellFormed (Config.standard .chip8 true) (.exit) := by decide
theorem test_illformed_low_needs_schip : ¬ Instr.WellFormed (Config.standard .chip8 true) (.low) := by decide
theorem test_illformed_high_needs_schip : ¬ Instr.WellFormed (Config.standard .chip8 true) (.high) := by decide
theorem test_illformed_save_range_needs_xochip : ¬ Instr.WellFormed (Config.standard .schip true) (.saveRange 0 1) := by decide
theorem test_illformed_load_range_needs_xochip : ¬ Instr.WellFormed (Config.standard .schip true) (.loadRange 0 1) := by decide
theorem test_illformed_long_load_needs_xochip : ¬ Instr.WellFormed (Config.standard .schip true) (.ldILong 0x1234) := by decide
theorem test_illformed_plane_needs_xochip : ¬ Instr.WellFormed (Config.standard .schip true) (.plane 2) := by decide
theorem test_illformed_audio_needs_xochip : ¬ Instr.WellFormed (Config.standard .schip true) (.audio) := by decide
theorem test_illformed_pitch_needs_xochip : ¬ Instr.WellFormed (Config.standard .schip true) (.pitch 0) := by decide
theorem test_illformed_big_glyph_needs_extras : ¬ Instr.WellFormed (Config.standard .xochip false) (.ldHf 0) := by decide
theorem test_illformed_big_glyph_needs_schip : ¬ Instr.WellFormed (Config.standard .chip8 true) (.ldHf 0) := by decide
theorem test_illformed_rpl_needs_schip : ¬ Instr.WellFormed (Config.standard .chip8 false) (.saveRpl 0) := by decide
theorem test_illformed_rpl_slot_must_exist : ¬ Instr.WellFormed (Config.standard .schip false) (.saveRpl 8) := by decide
theorem test_illformed_rpl_load_slot_must_exist : ¬ Instr.WellFormed (Config.standard .schip false) (.loadRpl 8) := by decide
theorem test_wellformed_rpl_last_slot : Instr.WellFormed (Config.standard .schip false) (.saveRpl 7) := by decide

/-! ### Decoding: every row of the table, from a word written out from its encoding (R97–R103). One word of each family is
written bit by bit. -/

theorem test_decode_cls : decodeTableWord 16 0b0000_0000_1110_0000 = some .cls := by decide
theorem test_decode_ret : decodeTableWord 16 0x00EE = some .ret := by decide
theorem test_decode_scd : decodeTableWord 16 0x00C7 = some (.scd 7) := by decide
theorem test_decode_scu : decodeTableWord 16 0x00DA = some (.scu 0xA) := by decide
theorem test_decode_scr : decodeTableWord 16 0x00FB = some .scr := by decide
theorem test_decode_scl : decodeTableWord 16 0x00FC = some .scl := by decide
theorem test_decode_exit : decodeTableWord 16 0x00FD = some .exit := by decide
theorem test_decode_low : decodeTableWord 16 0x00FE = some .low := by decide
theorem test_decode_high : decodeTableWord 16 0x00FF = some .high := by decide
theorem test_decode_jp : decodeTableWord 16 0b0001_1010_1011_1100 = some (.jp 0xABC) := by decide
theorem test_decode_call : decodeTableWord 16 0b0010_0001_0010_0011 = some (.call 0x123) := by decide
theorem test_decode_se_imm : decodeTableWord 16 0b0011_0101_1001_1100 = some (.seImm 5 0x9C) := by decide
theorem test_decode_sne_imm : decodeTableWord 16 0b0100_1110_0000_0001 = some (.sneImm 0xE 1) := by decide
theorem test_decode_se_reg : decodeTableWord 16 0b0101_0001_0010_0000 = some (.seReg 1 2) := by decide
theorem test_decode_save_range : decodeTableWord 16 0x5422 = some (.saveRange 4 2) := by decide
theorem test_decode_load_range : decodeTableWord 16 0x5243 = some (.loadRange 2 4) := by decide
theorem test_decode_ld_imm : decodeTableWord 16 0b0110_1010_0010_1111 = some (.ldImm 0xA 0x2F) := by decide
theorem test_decode_add_imm : decodeTableWord 16 0b0111_0001_1111_1110 = some (.addImm 1 0xFE) := by decide
theorem test_decode_ld_reg : decodeTableWord 16 0x8120 = some (.ldReg 1 2) := by decide
theorem test_decode_or : decodeTableWord 16 0x8341 = some (.orReg 3 4) := by decide
theorem test_decode_and : decodeTableWord 16 0x8562 = some (.andReg 5 6) := by decide
theorem test_decode_xor : decodeTableWord 16 0x8783 = some (.xorReg 7 8) := by decide
theorem test_decode_add_reg : decodeTableWord 16 0b1000_1001_1010_0100 = some (.addReg 9 0xA) := by decide
theorem test_decode_sub : decodeTableWord 16 0x8BC5 = some (.subReg 0xB 0xC) := by decide
theorem test_decode_shr : decodeTableWord 16 0x8DE6 = some (.shr 0xD 0xE) := by decide
theorem test_decode_subn : decodeTableWord 16 0x8F07 = some (.subnReg 0xF 0) := by decide
theorem test_decode_shl : decodeTableWord 16 0x812E = some (.shl 1 2) := by decide
theorem test_decode_sne_reg : decodeTableWord 16 0b1001_0001_0010_0000 = some (.sneReg 1 2) := by decide
theorem test_decode_ld_i : decodeTableWord 16 0b1010_0001_0010_0011 = some (.ldI 0x123) := by decide
theorem test_decode_jp_offset : decodeTableWord 16 0b1011_0011_0000_0000 = some (.jpOffset 0x300) := by decide
theorem test_decode_rnd : decodeTableWord 16 0b1100_0010_0000_1111 = some (.rnd 2 0x0F) := by decide
theorem test_decode_drw : decodeTableWord 16 0b1101_0001_0010_0101 = some (.drw 1 2 5) := by decide
theorem test_decode_skp : decodeTableWord 16 0b1110_0010_1001_1110 = some (.skp 2) := by decide
theorem test_decode_sknp : decodeTableWord 16 0xE5A1 = some (.sknp 5) := by decide
theorem test_decode_ld_i_long : decodeTableWord 32 0x1234F000 = some (.ldILong 0x1234) := by decide
theorem test_decode_plane : decodeTableWord 16 0b1111_0010_0000_0001 = some (.plane 2) := by decide
theorem test_decode_audio : decodeTableWord 16 0xF002 = some .audio := by decide
theorem test_decode_ld_vx_dt : decodeTableWord 16 0xF507 = some (.ldVxDt 5) := by decide
theorem test_decode_ld_vx_k : decodeTableWord 16 0xF30A = some (.ldVxK 3) := by decide
theorem test_decode_ld_dt_vx : decodeTableWord 16 0xF615 = some (.ldDtVx 6) := by decide
theorem test_decode_ld_st_vx : decodeTableWord 16 0xF718 = some (.ldStVx 7) := by decide
theorem test_decode_add_i : decodeTableWord 16 0xF01E = some (.addI 0) := by decide
theorem test_decode_ld_f : decodeTableWord 16 0xFA29 = some (.ldF 0xA) := by decide
theorem test_decode_ld_hf : decodeTableWord 16 0xF130 = some (.ldHf 1) := by decide
theorem test_decode_ld_b : decodeTableWord 16 0xF333 = some (.ldB 3) := by decide
theorem test_decode_pitch : decodeTableWord 16 0xF43A = some (.pitch 4) := by decide
theorem test_decode_store_regs : decodeTableWord 16 0xF155 = some (.storeRegs 1) := by decide
theorem test_decode_load_regs : decodeTableWord 16 0xF265 = some (.loadRegs 2) := by decide
theorem test_decode_save_rpl : decodeTableWord 16 0xF775 = some (.saveRpl 7) := by decide
theorem test_decode_load_rpl : decodeTableWord 16 0xF185 = some (.loadRpl 1) := by decide

/-- The session of mode `m` accepts the word. -/
def accepts (m : Mode) (extras : Bool) (op : Word) : Bool := (decodeWords (Config.standard m extras) op 0).isSome

/-- Illegal words: V21, V22, V23, V24, V49. -/
theorem test_illegal_words : ([0x5121, 0x9121, 0x0123, 0x00E1, 0x8128, 0x812F, 0x812D].all
    fun op => !accepts .xochip true op) = true := by decide

/-- Illegal words: V93, V122. -/
theorem test_illegal_words_e_f : ([0xE29F, 0xE2A2, 0xF401, 0xF100, 0xF102].all
    fun op => !accepts .xochip true op) = true := by decide

/-- V111. -/
theorem test_schip_words : ([0x00C3, 0x00FE, 0x00FF, 0xF075, 0xF085].all
    fun op => !accepts .chip8 false op && accepts .schip false op) = true := by decide

/-- V117, V137. -/
theorem test_extras_words : ([0x00FD, 0xF030, 0x00FB, 0x00FC].all
    fun op => !accepts .schip false op && accepts .schip true op) = true ∧ accepts .xochip false 0x00D3 = false := by decide

/-- V120. -/
theorem test_xochip_words : ([0xF201, 0xF002, 0xF03A, 0x5012, 0x5013, 0xF000].all
    fun op => !accepts .schip true op && accepts .xochip false op) = true := by decide

/-- The long form takes four bytes and the rest follows (V123, R92). -/
theorem test_decode_long_form :
    decode (Config.standard .xochip false) [0xF0, 0x00, 0x12, 0x34, 0x12, 0x02] = .ok (.ldILong 0x1234) [0x12, 0x02] ∧
    decode (Config.standard .xochip false) [0xF0, 0x00, 0x12] = .truncated ∧
    decode (Config.standard .schip false) [0xF0, 0x00, 0x12, 0x34] = .invalidOpcode 0xF000 := by decide

/-! ### One step of each instruction -/

/-- V2. -/
theorem test_cls :
    (stepOn 0x00E0 ({ start .xochip with planeMask := 2, fb := ((start .xochip).fb.toggle .plane1 0 0).toggle .plane2 0 0 })).map (fun t => (t.fb.pixel .plane1 0 0, t.fb.pixel .plane2 0 0, t.pc)) =
      some (true, false, 0x202) := by decide

/-- V4. -/
theorem test_ret :
    (stepOn 0x00EE ({ start .chip8 with pc := 0x300, sp := 1, stack := (start .chip8).stack.set 0 0x0206 })).map (fun t => (t.pc, t.sp)) =
      some (0x206, 0) := by decide

/-- V5. -/
theorem test_ret_underflow :
    (stepOn 0x00EE (start .chip8)).map (haltOf) =
      some (.halted, .stackUnderflow, .value 0x200, 0x202) := by decide

/-- V82. -/
theorem test_scd :
    (stepOn 0x00C3 ({ start .schip with fb := (start .schip).fb.toggle .plane1 5 10 })).map (fun t => (lit t 10 8, lit t 10 5)) =
      some (true, false) := by decide

/-- V138. -/
theorem test_scu :
    (stepOn 0x00D3 ({ startExtras .xochip with fb := (start .xochip).fb.toggle .plane1 8 10 })).map (fun t => (lit t 10 5, lit t 10 8)) =
      some (true, false) := by decide

/-- V85. -/
theorem test_scr :
    (stepOn 0x00FB ({ start .xochip with fb := (start .xochip).fb.toggle .plane1 0 0 })).map (fun t => (lit t 4 0, lit t 0 0)) =
      some (true, false) := by decide

/-- V86. -/
theorem test_scr_edge :
    (stepOn 0x00FB ({ start .xochip with fb := (start .xochip).fb.toggle .plane1 0 60 })).map (fun t => (lit t 60 0, lit t 64 0)) =
      some (false, false) := by decide

/-- V87. -/
theorem test_scl :
    (stepOn 0x00FC ({ start .xochip with fb := (start .xochip).fb.toggle .plane1 0 2 })).map (fun t => (lit t 2 0, lit t 0 0)) =
      some (false, false) := by decide

/-- V118. -/
theorem test_exit :
    (stepOn 0x00FD ({ startExtras .schip with pc := 0x210 })).map (haltOf) =
      some (.halted, .exit, .value 0x210, 0x212) := by decide

/-- V81. -/
theorem test_low :
    (stepOn 0x00FE ({ start .schip with fb := (start .schip).fb.toggle .plane1 5 5 })).map (fun t => (t.res, lit t 5 5)) =
      some (.low, false) := by decide

/-- V80. -/
theorem test_high :
    (stepOn 0x00FF ({ start .xochip with fb := (start .xochip).fb.toggle .plane1 5 5 })).map (fun t => (t.res, lit t 5 5)) =
      some (.high, false) := by decide

/-- V6. -/
theorem test_jp :
    (stepOn 0x1ABC (start .chip8)).map (fun t => t.pc) =
      some 0x0ABC := by decide

/-- V9. -/
theorem test_call :
    (stepOn 0x2300 ({ start .chip8 with pc := 0x204 })).map (fun t => (t.stack[0], t.sp, t.pc)) =
      some (0x0206, 1, 0x300) := by decide

/-- V10. -/
theorem test_call_overflow :
    (stepOn 0x2300 ({ start .chip8 with sp := 16 })).map (fun t => (haltOf t, t.sp)) =
      some ((.halted, .stackOverflow, .value 0x200, 0x202), 16) := by decide

/-- V25. -/
theorem test_se_imm_skips_long_form :
    (stepOn 0x3000 ({ start .xochip with mem := Memory.writeBytes [] 0x202 [0xF0, 0x00, 0x12, 0x34] })).map (fun t => t.pc) =
      some 0x206 := by decide

/-- V26. -/
theorem test_se_imm_skips_two :
    (stepOn 0x3000 ({ start .schip with mem := Memory.writeBytes [] 0x202 [0xF0, 0x00, 0x12, 0x34] })).map (fun t => t.pc) =
      some 0x204 := by decide

/-- V14. -/
theorem test_sne_imm :
    (stepOn 0x4312 ((start .chip8).setV 3 0x12)).map (fun t => t.pc) =
      some 0x202 := by decide

/-- V15. -/
theorem test_sne_imm_skips :
    (stepOn 0x4313 ((start .chip8).setV 3 0x12)).map (fun t => t.pc) =
      some 0x204 := by decide

/-- V16. -/
theorem test_se_reg :
    (stepOn 0x5120 (((start .chip8).setV 1 7).setV 2 7)).map (fun t => t.pc) =
      some 0x204 := by decide

/-- V17. -/
theorem test_se_reg_differs :
    (stepOn 0x5120 (((start .chip8).setV 1 7).setV 2 8)).map (fun t => t.pc) =
      some 0x202 := by decide

/-- V131. -/
theorem test_save_range :
    (stepOn 0x5422 ({ ((start .xochip).setV 2 0x0A).setV 3 0x0B |>.setV 4 0x0C with i := 0x500 })).map (fun t => (t.mem.readBytes 0x500 3, t.i)) =
      some ([0x0C, 0x0B, 0x0A], 0x500) := by decide

/-- V133. -/
theorem test_save_range_out :
    (stepOn 0x5022 ({ start .xochip with i := 0xFFFE })).map (haltOf) =
      some (.halted, .addressOutOfRange, .value 0x10000, 0x202) := by decide

/-- V135. -/
theorem test_load_range :
    (stepOn 0x5103 ({ start .xochip with i := 0x500, mem := Memory.writeBytes [] 0x500 [0x11, 0x22] })).map (fun t => (t.getV 0, t.getV 1, t.getV 2, t.i)) =
      some (0x22, 0x11, 0, 0x500) := by decide

/-- V30. -/
theorem test_ld_imm :
    (stepOn 0x6A2F (start .chip8)).map (fun t => t.getV 0xA) =
      some 0x2F := by decide

/-- V32. -/
theorem test_add_imm :
    (stepOn 0x7102 (((start .chip8).setV 1 0xFF).setV 0xF 0x55)).map (fun t => (t.getV 1, t.getV 0xF)) =
      some (0x01, 0x55) := by decide

/-- V34. -/
theorem test_ld_reg :
    (stepOn 0x8120 ((start .chip8).setV 2 0x44)).map (fun t => (t.getV 1, t.getV 2)) =
      some (0x44, 0x44) := by decide

/-- V36. -/
theorem test_or :
    (stepOn 0x8F11 (((start .chip8).setV 0xF 0x0F).setV 1 0xF0)).map (fun t => t.getV 0xF) =
      some 0x00 := by decide

/-- V37. -/
theorem test_or_schip :
    (stepOn 0x8F11 (((start .schip).setV 0xF 0x0F).setV 1 0xF0)).map (fun t => t.getV 0xF) =
      some 0xFF := by decide

/-- W7. -/
theorem test_and :
    (stepOn 0x8122 (((start .chip8).setV 1 0x3C |>.setV 2 0x0F).setV 0xF 5)).map (fun t => (t.getV 1, t.getV 0xF)) =
      some (0x0C, 0x00) := by decide

/-- W7. -/
theorem test_xor :
    (stepOn 0x8123 (((start .xochip).setV 1 0x3C |>.setV 2 0x0F).setV 0xF 5)).map (fun t => (t.getV 1, t.getV 0xF)) =
      some (0x33, 0x05) := by decide

/-- V39. -/
theorem test_add_reg :
    (stepOn 0x8F14 (((start .chip8).setV 0xF 0xFF).setV 1 1)).map (fun t => t.getV 0xF) =
      some 1 := by decide

/-- W8. -/
theorem test_add_reg_carry :
    (stepOn 0x8124 (((start .chip8).setV 1 0xF0).setV 2 0x20)).map (fun t => (t.getV 1, t.getV 0xF)) =
      some (0x10, 1) := by decide

/-- W8. -/
theorem test_sub :
    (stepOn 0x8125 (((start .chip8).setV 1 0x10).setV 2 0x20)).map (fun t => (t.getV 1, t.getV 0xF)) =
      some (0xF0, 0) := by decide

/-- W8. -/
theorem test_sub_equal :
    (stepOn 0x8125 (((start .chip8).setV 1 0x33).setV 2 0x33)).map (fun t => (t.getV 1, t.getV 0xF)) =
      some (0x00, 1) := by decide

/-- W6. -/
theorem test_shr_vy :
    (stepOn 0x8126 (((start .chip8).setV 1 4).setV 2 3)).map (fun t => (t.getV 1, t.getV 0xF)) =
      some (1, 1) := by decide

/-- W6. -/
theorem test_shr_vx :
    (stepOn 0x8126 (((start .schip).setV 1 4).setV 2 3)).map (fun t => (t.getV 1, t.getV 0xF)) =
      some (2, 0) := by decide

/-- W8. -/
theorem test_subn :
    (stepOn 0x8127 (((start .chip8).setV 1 0x20).setV 2 0x10)).map (fun t => (t.getV 1, t.getV 0xF)) =
      some (0xF0, 0) := by decide

/-- W6. -/
theorem test_shl_vy :
    (stepOn 0x812E (((start .xochip).setV 1 0x81).setV 2 0x40)).map (fun t => (t.getV 1, t.getV 0xF)) =
      some (0x80, 0) := by decide

/-- W6. -/
theorem test_shl_vx :
    (stepOn 0x812E (((start .schip).setV 1 0x81).setV 2 0x40)).map (fun t => (t.getV 1, t.getV 0xF)) =
      some (0x02, 1) := by decide

/-- V19. -/
theorem test_sne_reg :
    (stepOn 0x9120 (((start .chip8).setV 1 7).setV 2 8)).map (fun t => t.pc) =
      some 0x204 := by decide

/-- V50. -/
theorem test_ld_i :
    (stepOn 0xA123 ({ start .chip8 with i := 0x0FFF })).map (fun t => t.i) =
      some 0x0123 := by decide

/-- V54. -/
theorem test_jp_offset :
    (stepOn 0xBFFF ((start .chip8).setV 0 0xFF)).map (fun t => t.pc) =
      some 0x10FE := by decide

/-- V53. -/
theorem test_jp_offset_vx :
    (stepOn 0xB2F0 ((start .schip).setV 2 1)).map (fun t => t.pc) =
      some 0x2F1 := by decide

/-- W2c. -/
theorem test_drw_wraps :
    (stepOn 0xD011 ({ (start .xochip).setV 0 60 with i := 0x300, mem := Memory.writeBytes [] 0x300 [0xFF], fb := (start .xochip).fb.toggle .plane1 0 0 })).map (fun t => ([lit t 0 0, lit t 1 0, lit t 3 0, lit t 4 0, lit t 63 0], t.getV 0xF, t.status)) =
      some ([false, true, true, false, true], 1, .run) := by decide

/-- W2d. -/
theorem test_drw_clips :
    (stepOn 0xD011 ({ (start .chip8).setV 0 60 with i := 0x300, mem := Memory.writeBytes [] 0x300 [0xFF], fb := (start .chip8).fb.toggle .plane1 0 0 })).map (fun t => ([lit t 0 0, lit t 1 0, lit t 60 0, lit t 63 0], t.getV 0xF, t.status)) =
      some ([true, false, true, true], 0, .vblankWait) := by decide

/-- V92. -/
theorem test_skp :
    (stepOn 0xE29E ({ (start .chip8).setV 2 0x15 with key := (start .chip8).key.set 5 true })).map (fun t => t.pc) =
      some 0x204 := by decide

/-- V91. -/
theorem test_sknp :
    (stepOn 0xE2A1 ((start .chip8).setV 2 5)).map (fun t => t.pc) =
      some 0x204 := by decide

/-- V124. -/
theorem test_ld_i_long :
    (stepOn 0xF000 ({ start .xochip with pc := 0xFFFC, mem := Memory.writeBytes [] 0xFFFE [0xAB, 0xCD] })).map (fun t => (t.i, t.pc)) =
      some (0xABCD, 0x0000) := by decide

/-- V125. -/
theorem test_ld_i_long_out :
    (stepOn 0xF000 ({ start .xochip with pc := 0xFFFE })).map (haltOf) =
      some (.halted, .addressOutOfRange, .value 0x10000, 0x0000) := by decide

/-- V121. -/
theorem test_plane :
    (stepOn 0xF201 (start .xochip)).map (fun t => t.planeMask) =
      some 2 := by decide

/-- V127. -/
theorem test_audio :
    (stepOn 0xF002 ({ start .xochip with i := 0x400, mem := Memory.writeBytes [] 0x400 (List.replicate 16 0xAA) })).map (fun t => (t.audio, t.i)) =
      some (Vector.replicate 16 0xAA, 0x400) := by decide

/-- V97. -/
theorem test_ld_vx_dt :
    (stepOn 0xF507 ({ start .chip8 with dt := 0x3C })).map (fun t => t.getV 5) =
      some 0x3C := by decide

/-- W3. -/
theorem test_ld_vx_k :
    (stepOn 0xF30A (start .chip8)).map (fun t => (t.kwX, t.status, t.pc)) =
      some (3, .keyWait, 0x200) := by decide

/-- V98. -/
theorem test_ld_dt_vx :
    (stepOn 0xF515 ((start .chip8).setV 5 60)).map (fun t => t.dt) =
      some 60 := by decide

/-- V100. -/
theorem test_ld_st_vx :
    (stepOn 0xF518 ((start .chip8).setV 5 2)).map (fun t => (t.st, t.soundActive)) =
      some (2, true) := by decide

/-- V102. -/
theorem test_add_i :
    (stepOn 0xF01E ({ (start .xochip).setV 0 1 with i := 0xFFFF })).map (fun t => (t.i, t.getV 0xF)) =
      some (0x0000, 0) := by decide

/-- V104. -/
theorem test_ld_f :
    (stepOn 0xFA29 ((start .chip8).setV 0xA 0x1B)).map (fun t => t.i) =
      some 0x087 := by decide

/-- V119. -/
theorem test_ld_hf :
    (stepOn 0xF130 ((startExtras .schip).setV 1 2)).map (fun t => t.i) =
      some 0x0B4 := by decide

/-- V106. -/
theorem test_ld_b :
    (stepOn 0xF333 ({ (start .chip8).setV 3 156 with i := 0x300 })).map (fun t => (t.mem.readBytes 0x300 3, t.i)) =
      some ([1, 5, 6], 0x300) := by decide

/-- V109. -/
theorem test_ld_b_out :
    (stepOn 0xF333 ({ start .chip8 with i := 0xFFE })).map (fun t => (haltOf t, t.mem.read 0xFFE)) =
      some ((.halted, .addressOutOfRange, .value 0x1000, 0x202), 0) := by decide

/-- V129. -/
theorem test_pitch :
    (stepOn 0xF43A ((start .xochip).setV 4 0x70)).map (fun t => t.pitch) =
      some 0x70 := by decide

/-- V57. -/
theorem test_store_regs :
    (stepOn 0xF155 ({ ((start .chip8).setV 0 1).setV 1 2 with i := 0x300 })).map (fun t => (t.mem.readBytes 0x300 3, t.i)) =
      some ([1, 2, 0], 0x302) := by decide

/-- V58. -/
theorem test_store_regs_schip :
    (stepOn 0xF155 ({ ((start .schip).setV 0 1).setV 1 2 with i := 0x300 })).map (fun t => (t.mem.readBytes 0x300 3, t.i)) =
      some ([1, 2, 0], 0x300) := by decide

/-- V61. -/
theorem test_load_regs :
    (stepOn 0xF265 ({ start .chip8 with i := 0x300, mem := Memory.writeBytes [] 0x300 [9, 8, 7] })).map (fun t => (t.getV 0, t.getV 1, t.getV 2, t.getV 3, t.i)) =
      some (9, 8, 7, 0, 0x303) := by decide

/-- V147. -/
theorem test_load_regs_out :
    (stepOn 0xF865 ({ start .chip8 with i := 0xFFA })).map (fun t => (haltOf t, t.i)) =
      some ((.halted, .addressOutOfRange, .value 0x1000, 0x202), 0xFFA) := by decide

/-- V112. -/
theorem test_save_rpl :
    (stepOn 0xF175 (((start .schip).setV 0 1).setV 1 2)).map (fun t => (t.rpl[0], t.rpl[1], t.rpl[2])) =
      some (1, 2, 0) := by decide

/-- V115. -/
theorem test_load_rpl :
    (stepOn 0xF185 ({ start .schip with rpl := ((start .schip).rpl.set 0 9).set 1 8 })).map (fun t => (t.getV 0, t.getV 1, t.getV 2)) =
      some (9, 8, 0) := by decide

/-- V56: masked with 0 the draw is 0, whatever it is. -/
theorem test_rnd : ∃ t, exec (.rnd 0 0x00) (start .chip8) = .next t ∧ t.getV 0 = 0x00 ∧ t.rndCount = 1 :=
  ⟨_, rfl, by rw [State.getV_setV]; simp, rfl⟩

/-! ### Halts, waits, host events and the session -/

/-- W9: the first word of an empty session is illegal. -/
theorem test_reset_fetches_zero : (nextOf (step State.reset)).map haltOf =
    some (.halted, .invalidOpcode, .opcode 0x0000 0x200, 0x202) := by decide

/-- V146. -/
theorem test_fetch_out : (nextOf (step { start .chip8 with pc := 0x1000 })).map haltOf =
    some (.halted, .addressOutOfRange, .value 0x1000, 0x1000) := by decide

/-- W10: an invalid opcode is recorded, and `resume()` goes on after it. -/
theorem test_resume : (stepOn 0x8018 (start .chip8)).map (fun t => (t.faultLog, t.resume.status, t.resume.pc, t.resume.faultLog)) =
    some ([(.invalidOpcode, .opcode 0x8018 0x200)], .run, 0x202, [(.invalidOpcode, .opcode 0x8018 0x200)]) := by decide

/-- V140: nothing else can be resumed. -/
theorem test_resume_refused : (stepOn 0x00EE (start .chip8)).map (fun t => t.resume.status) = some .halted := by decide

/-- W3: press and release of key 7 end the key wait. -/
theorem test_key_wait :
    ((stepOn 0xF30A (start .chip8)).bind fun t => nextOf (step ((t.setKeyState 7 true).setKeyState 7 false))).map
      (fun t => (t.getV 3, t.pc, t.status, t.key[7], t.kwArmed)) = some (7, 0x202, .run, false, 0) := by decide

/-- W3b: a key that was down before the wait does not end it. -/
theorem test_key_wait_needs_press :
    ((stepOn 0xF30A ((start .chip8).setKeyState 5 true)).bind fun t => nextOf (step (t.setKeyState 5 false))).map
      (fun t => (t.status, t.pc)) = some (.keyWait, 0x200) := by decide

/-- W4: a tick, at 0 and above. -/
theorem test_tick : (fun t => (State.dt t, State.st t, t.soundActive)) ({ start .chip8 with dt := 0, st := 1 } : State).tick =
    (0, 0, false) := by decide

/-- V142, W5: `refresh()` ends the display wait alone. -/
theorem test_refresh : ({ start .chip8 with status := .vblankWait } : State).refresh.status = .run ∧
    ({ start .chip8 with status := .keyWait } : State).refresh.status = .keyWait := by decide

/-- V139, P3: the font in memory at the start, glyph 7 at 0x073. -/
theorem test_font : (start .chip8).mem.readBytes 0x073 5 = [0xF0, 0x10, 0x20, 0x40, 0x40] ∧
    (start .chip8).mem.readBytes 0x04F 2 = [0x00, 0xF0] ∧ (start .chip8).mem.read 0x0A0 = 0x00 := by decide

/-- W9: the size limit of a ROM. -/
theorem test_load_program : (start .chip8).loadProgram (List.replicate 3585 0x00) = .romTooLarge 3585 := by
  rw [State.loadProgram, List.length_replicate, if_pos (by decide)]

/-! ### Witnesses: states and operands that meet the hypotheses of each obligation, clause by clause -/


/-- DecodeOfEncodeIsTheInstruction. -/
theorem witness_decodeOfEncode : Instr.WellFormed Config.full (.ldILong 0xFFFF) ∧
    Instr.WellFormed (Config.standard .chip8 false) (.jp 0xFFF) := by decide

/-- DecodedWordIsTheInstructionsOpcode: a long and a short instruction. -/
theorem witness_decodedWord : decodeWords (Config.standard .xochip false) 0xF000 0xFFFF = some (.ldILong 0xFFFF) ∧
    decodeWords (Config.standard .chip8 false) 0x8FF4 0 = some (.addReg 0xF 0xF) := by decide

/-- IllegalWordIsOneNoRowAccepts: words on both sides. -/
theorem witness_illegalWord : decodeWords Config.full 0x5001 0 = none ∧ decodeWords Config.full 0x5003 0 ≠ none := by decide

/-- GatedInstructionsNeedTheirMode, clause by clause; and words one step outside an operand's or a mode's gate. -/
theorem witness_gated :
    decodeWords (Config.standard .schip false) 0x00C0 0 = some (.scd 0) ∧
    decodeWords (Config.standard .schip false) 0x00FE 0 = some .low ∧
    decodeWords (Config.standard .schip false) 0x00FF 0 = some .high ∧
    decodeWords (Config.standard .schip true) 0x00FD 0 = some .exit ∧
    decodeWords (Config.standard .schip true) 0xFF30 0 = some (.ldHf 0xF) ∧
    decodeWords (Config.standard .schip false) 0xF775 0 = some (.saveRpl 7) ∧
    decodeWords (Config.standard .schip false) 0xF785 0 = some (.loadRpl 7) ∧
    decodeWords (Config.standard .schip true) 0x00FB 0 = some .scr ∧
    decodeWords (Config.standard .xochip false) 0x00FC 0 = some .scl ∧
    decodeWords (Config.standard .xochip true) 0x00DF 0 = some (.scu 0xF) ∧
    decodeWords (Config.standard .xochip false) 0x5F02 0 = some (.saveRange 0xF 0) ∧
    decodeWords (Config.standard .xochip false) 0x50F3 0 = some (.loadRange 0 0xF) ∧
    decodeWords (Config.standard .xochip false) 0xF301 0 = some (.plane 3) ∧
    decodeWords (Config.standard .xochip false) 0xF002 0 = some .audio ∧
    decodeWords (Config.standard .xochip false) 0xFF3A 0 = some (.pitch 0xF) ∧
    decodeWords (Config.standard .schip false) 0xF875 0 = none ∧
    decodeWords (Config.standard .xochip false) 0xF401 0 = none ∧
    decodeWords (Config.standard .schip false) 0xF000 0 = none := by decide

/-- A session with bytes placed at `a`, PC there. -/
def placed (m : Mode) (a : Nat) (bs : List Byte) : State :=
  { start m with pc := BitVec.ofNat 16 a, mem := Memory.writeBytes [] a bs }

/-- StepRunsTheDecodedInstruction, at the top of memory: a word, and the long form. -/
theorem witness_stepRuns :
    ((placed .chip8 0xFFE [0x12, 0x34]).status = .run ∧
      (placed .chip8 0xFFE [0x12, 0x34]).pc.toNat + (Instr.jp 0x234).length ≤ (placed .chip8 0xFFE [0x12, 0x34]).cfg.memSize ∧
      decode (placed .chip8 0xFFE [0x12, 0x34]).cfg ((placed .chip8 0xFFE [0x12, 0x34]).mem.readBytes 0xFFE 2) =
        .ok (.jp 0x234) []) ∧
    ((placed .xochip 0xFFFC [0xF0, 0x00, 0xAB, 0xCD]).status = .run ∧
      (placed .xochip 0xFFFC [0xF0, 0x00, 0xAB, 0xCD]).pc.toNat + (Instr.ldILong 0xABCD).length ≤
        (placed .xochip 0xFFFC [0xF0, 0x00, 0xAB, 0xCD]).cfg.memSize ∧
      decode (placed .xochip 0xFFFC [0xF0, 0x00, 0xAB, 0xCD]).cfg
        ((placed .xochip 0xFFFC [0xF0, 0x00, 0xAB, 0xCD]).mem.readBytes 0xFFFC 4) = .ok (.ldILong 0xABCD) []) := by decide

/-- FetchOutsideMemoryHalts: one witness for each clause (V146, V145, V125, V126). -/
theorem witness_fetchOutside :
    ((placed .chip8 0x1000 []).status = .run ∧ (placed .chip8 0x1000 []).cfg.memSize ≤ (placed .chip8 0x1000 []).pc.toNat) ∧
    ((placed .xochip 0xFFFF []).status = .run ∧
      (placed .xochip 0xFFFF []).pc.toNat < (placed .xochip 0xFFFF []).cfg.memSize ∧
      (placed .xochip 0xFFFF []).cfg.memSize ≤ (placed .xochip 0xFFFF []).pc.toNat + 1) ∧
    (∀ a ∈ [0xFFFE, 0xFFFD], ∀ s, s = placed .xochip a [0xF0, 0x00] →
      s.status = .run ∧ s.pc.toNat + 1 < s.cfg.memSize ∧ s.cfg.mode = .xochip ∧ s.mem.readWord s.pc.toNat = 0xF000 ∧
        s.cfg.memSize ≤ s.pc.toNat + 3) := by
  simp only [forall_eq]; decide

/-- UnacceptedWordHalts: the reset state. -/
theorem witness_unacceptedWord : State.reset.status = .run ∧ State.reset.pc.toNat + 1 < State.reset.cfg.memSize ∧
    ∀ i : Instr, i.WellFormed State.reset.cfg → i.opcode ≠ State.reset.mem.readWord State.reset.pc.toNat := by
  refine ⟨rfl, by decide, fun i hi e => ?_⟩
  have hw : State.reset.mem.readWord State.reset.pc.toNat = 0 := by decide
  rw [hw] at e
  by_cases hl : ∃ k, i = .ldILong k
  · obtain ⟨k, rfl⟩ := hl
    exact absurd e (show ¬ (0xF000 : Word) = 0 by decide)
  · have h := decodeWords_opcode hi 0 fun k hk => by cases i <;> simp_all [Instr.operandWord]
    rw [e, show decodeWords State.reset.cfg 0 0 = none by decide] at h
    cases h

/-- UnusedFamily8WordsAreIllegal: the first and the last of the seven. -/
theorem witness_unusedFamily8 : ∀ n ∈ [0x8#4, 0xF#4], ∀ s, s = placed .xochip 0x200 [0x81, 0x2#4 ++ n] →
    n ∈ [0x8#4, 0x9#4, 0xA#4, 0xB#4, 0xC#4, 0xD#4, 0xF#4] ∧ s.status = .run ∧ s.pc.toNat + 1 < s.cfg.memSize ∧
      s.mem.readWord s.pc.toNat = 0x8#4 ++ 1#4 ++ 2#4 ++ n := by
  simp only [forall_eq]; decide

/-- StalledStepsChangeNothing: both waits, and a STATUS in which `refresh()` does nothing. -/
theorem witness_stalled : ({ State.reset with status := .vblankWait } : State).status = .vblankWait ∧
    ({ State.reset with status := .halted } : State).status = .halted ∧
    ({ State.reset with status := .keyWait } : State).status ≠ .vblankWait := by decide

/-- KeyWaitStepPollsTheLatch: with a latched key and without. -/
theorem witness_keyWaitStep :
    (({ State.reset with status := .keyWait, kwLatch := some 0xF } : State).status = .keyWait ∧
      ({ State.reset with status := .keyWait, kwLatch := some 0xF } : State).kwLatch = some 0xF) ∧
    (({ State.reset with status := .keyWait } : State).status = .keyWait ∧
      ({ State.reset with status := .keyWait } : State).kwLatch = none) := by decide

/-- HaltsArePrecise and FaultLogIsAppendOnly: a halt of the fetch and one after it, and a step with no halt. -/
theorem witness_haltsArePrecise :
    (∃ t, step (placed .chip8 0xFFF []) = .next t ∧ (t.status, t.pc) = (.halted, 0xFFF)) ∧
    (∃ t, step (placed .chip8 0x200 [0x00, 0xEE]) = .next t ∧ (t.status, t.pc) = (.halted, 0x202)) ∧
    (∃ t, step (placed .chip8 0x200 [0x60, 0x01]) = .next t ∧ (t.status, t.pc) = (.run, 0x202)) :=
  ⟨exists_next (by decide), exists_next (by decide), exists_next (by decide)⟩

/-- ResumeOnlyAfterInvalidOpcode: both clauses. -/
theorem witness_resume :
    (({ State.reset with status := .halted, haltReason := .invalidOpcode } : State).status = .halted ∧
      ({ State.reset with status := .halted, haltReason := .invalidOpcode } : State).haltReason = .invalidOpcode) ∧
    ¬ (({ State.reset with status := .halted, haltReason := .exit } : State).status = .halted ∧
      ({ State.reset with status := .halted, haltReason := .exit } : State).haltReason = .invalidOpcode) := by decide

/-- ResumedInvalidOpcodeIsSkipped. -/
theorem witness_resumedInvalidOpcode : State.reset.HaltInv ∧ State.reset.status = .run ∧
    ∃ t, step State.reset = .next t ∧ (t.status, t.haltReason) = (.halted, .invalidOpcode) :=
  ⟨by decide, rfl, exists_next (by decide)⟩

/-- ShiftsMoveOneBitOut: the source under each value of the quirk. -/
theorem witness_shifts :
    3 = (if (start .chip8).cfg.quirks.shiftVy = true then (((start .chip8).setV 2 3).getV 2).toNat else 0) ∧
    4 = (if (start .schip).cfg.quirks.shiftVy = true then 0 else (((start .schip).setV 1 4).getV 1).toNat) := by decide

/-- CallPushesTheReturnAddress, ReturnUndoesCall and NoStackSlotBeyondTheDepth: the last free slot, a full stack, beyond it. -/
theorem witness_call :
    (15#8).toNat < State.reset.cfg.stackDepth.val ∧ (16#8).toNat = State.reset.cfg.stackDepth.val ∧
    State.reset.cfg.stackDepth.val < (17#8).toNat := by decide

/-- ReturnPopsTheStack: the lowest and the highest entry, and the empty stack. -/
theorem witness_return :
    (∀ k ∈ [(0 : Fin 16), 15], ({ State.reset with sp := BitVec.ofNat 8 (k.val + 1) } : State).sp.toNat = k.val + 1 ∧
      ({ State.reset with sp := BitVec.ofNat 8 (k.val + 1) } : State).sp.toNat ≤ State.reset.cfg.stackDepth.val) ∧
    State.reset.sp.toNat = 0 := by decide

/-- SkipsStepOverOneInstruction: both distances, and a pair of the list for each instruction. -/
theorem witness_skips :
    (∀ s, s = placed .xochip 0x200 [0xF0, 0x00] → 4 = (if s.cfg.mode = .xochip ∧ s.pc.toNat + 1 < s.cfg.memSize ∧
      s.mem.read s.pc.toNat = 0xF0 ∧ s.mem.read (s.pc.toNat + 1) = 0x00 then 4 else 2)) ∧
    (∀ s, s = placed .xochip 0xFFFF [0xF0] → 2 = (if s.cfg.mode = .xochip ∧ s.pc.toNat + 1 < s.cfg.memSize ∧
      s.mem.read s.pc.toNat = 0xF0 ∧ s.mem.read (s.pc.toNat + 1) = 0x00 then 4 else 2)) ∧
    (Instr.skp 1, false) ∈
      [(Instr.seImm 1 0, decide (State.reset.getV 1 = 0)), (Instr.skp 1, State.reset.key[(State.reset.getV 1).toNat % 16])] ∧
    (Instr.seImm 1 0, true) ∈ [(Instr.seImm 1 0, decide (State.reset.getV 1 = 0))] := by
  simp only [forall_eq]; decide

/-- IndexRegisterLoads: a pair of the list, with the sum that wraps (V102). -/
theorem witness_indexLoads : ∀ s, s = ({ start .xochip with i := 0xFFFF } : State).setV 0 1 →
    (Instr.addI 0, 0) ∈ [(Instr.ldI 0x123, 0x123), (Instr.addI 0, (s.i.toNat + (s.getV 0).toNat) % 65536)] := by
  simp only [forall_eq]; decide

/-- StoreRegisterRange, LoadRegisterRange and StoredRegistersLoadBack: the first range that does not fit (V60) and the last
that does (V59). -/
theorem witness_registerRange_out : (start .chip8).cfg.memSize ≤ ({ start .chip8 with i := 0xFF1 } : State).i.toNat + (0xF#4).toNat := by
  decide

theorem witness_registerRange : ∀ s, s = ({ start .chip8 with i := 0xFF0 } : State) →
    s.i.toNat + (0xF#4).toNat < s.cfg.memSize ∧
    ∃ t, exec (.storeRegs 0xF) s = .next t ∧ ∃ u, exec (.loadRegs 0xF) { t with i := s.i, v := s.v } = .next u := by
  rintro s rfl; exact ⟨by decide, _, rfl, _, rfl⟩

/-- BcdDigitsOfRegister: the last place that fits and the first that does not (V110, V109). -/
theorem witness_bcd :
    ({ start .chip8 with i := 0xFFD } : State).i.toNat + 2 < (start .chip8).cfg.memSize ∧
    (start .chip8).cfg.memSize ≤ ({ start .chip8 with i := 0xFFE } : State).i.toNat + 2 := by decide

/-- SaveRegisterRange, LoadRegisterSpan and SavedRangeLoadsBack: descending over all registers at the top of memory. -/
theorem witness_savedRange : ∀ s, s = ({ start .xochip with i := 0xFFF0 } : State) →
    15 = (if (0xF#4).toNat ≤ (0#4).toNat then (0#4).toNat - (0xF#4).toNat else (0xF#4).toNat - (0#4).toNat) ∧
    s.i.toNat + 15 < s.cfg.memSize ∧
    ∃ t, exec (.saveRange 0xF 0) s = .next t ∧ (∃ u, exec (.loadRange 0xF 0) { t with v := s.v } = .next u) ∧
      ∃ u, exec (.loadRange 0 0xF) { t with v := s.v } = .next u := by
  rintro s rfl; exact ⟨by decide, by decide, _, rfl, ⟨_, rfl⟩, _, rfl⟩

/-- AccessPastMemoryHalts: for each instruction, the last byte of the access is the first outside memory. -/
theorem witness_accessPast : ∀ s, s = ({ start .xochip with i := 0xFFFF, planeMask := 3 } : State) →
    ∀ len ∈ [(1#4).toNat + 1, 16, (max (2#4).toNat (3#4).toNat - min (2#4).toNat (3#4).toNat) + 1, spriteData s 1],
      1 < len ∧ s.cfg.memSize ≤ s.i.toNat + 1 ∧ ∀ j < 1, s.i.toNat + j < s.cfg.memSize := by
  simp only [forall_eq]; decide

/-- StoresTouchOnlyTheirBytes: a byte changes. -/
theorem witness_storesTouch : ∃ t, exec (.storeRegs 0) ((start .chip8).setV 0 7 : State) = .next t ∧
    t.mem.read 0 = 7 := exists_next (by decide)

/-- ResolutionChangeClearsEveryPlane. -/
theorem witness_resolution : (Instr.low = .low ∧ Resolution.low = .low) ∧ (Instr.high = .high ∧ Resolution.high = .high) := by
  decide

/-- DrawInvertsTheCoveredPixels: sprite data up to the last byte of memory, and none at all. -/
theorem witness_draw : SpriteFits ({ start .chip8 with i := 0xFFB } : State) 5 ∧
    SpriteFits ({ start .xochip with i := 0xFFE0 } : State) 0 ∧
    SpriteFits ({ start .xochip with i := 0xFFFF, planeMask := 0 } : State) 0xF ∧
    ¬ SpriteFits ({ start .chip8 with i := 0xFFC } : State) 5 := by decide

/-- A glyph covers a pixel and leaves another alone (W5). -/
theorem witness_covers : SpriteCovers ({ start .chip8 with i := 0x050 } : State) 0 1 5 .plane1 0 0 ∧
    ¬ SpriteCovers ({ start .chip8 with i := 0x050 } : State) 0 1 5 .plane1 40 0 := by
  constructor
  · refine ⟨by decide, by decide, by decide, 0, by decide, 0, by decide, by decide, by decide, by decide⟩
  · rintro ⟨-, h, -⟩; revert h; decide

/-- DrawingTwiceRestoresTheFramebuffer: the second draw after the refresh (W5). -/
theorem witness_drawTwice : ∀ s, s = ({ start .chip8 with i := 0x050 } : State) →
    (0#4 ≠ 0xF ∧ 1#4 ≠ 0xF ∧ SpriteFits s 5) ∧ ∃ t, exec (.drw 0 1 5) s = .next t ∧
    ∃ t', t' = t.refresh ∧ t'.cfg = t.cfg ∧ t'.v = t.v ∧ t'.i = t.i ∧ t'.mem = t.mem ∧ t'.res = t.res ∧
      t'.planeMask = t.planeMask ∧ t'.fb = t.fb ∧ ∃ u, exec (.drw 0 1 5) t' = .next u := by
  rintro s rfl
  refine ⟨by decide, _, rfl, _, rfl, ?_⟩
  rw [State.refresh_frame]
  exact ⟨rfl, rfl, rfl, rfl, rfl, rfl, rfl, _, rfl⟩

/-- DrawOfNothingCannotFault: no plane, and no rows in CHIP8 (V77, V70). -/
theorem witness_drawNothing :
    (({ start .xochip with planeMask := 0 } : State).selects .plane1 = false ∧
      ({ start .xochip with planeMask := 0 } : State).selects .plane2 = false) ∧
    ((start .chip8).cfg.mode = .chip8 ∧ (0 : Nibble) = 0) := by decide

/-- KeyEventsArmAndLatch: a press, a release, and an event outside the wait. -/
theorem witness_keyEvents :
    (({ start .chip8 with status := .keyWait } : State).status = .keyWait ∧
      ({ start .chip8 with status := .keyWait } : State).kwLatch = none) ∧
    ¬ ((start .chip8).status = .keyWait ∧ (start .chip8).kwLatch = none) ∧
    (({ start .chip8 with status := .keyWait } : State).setKeyState 4 true).kwArmed = 0x0010 ∧
    ((({ start .chip8 with status := .keyWait } : State).setKeyState 4 true).setKeyState 4 false).kwLatch = some 4 := by
  decide

/-- PressThenReleaseEndsTheKeyWait. -/
theorem witness_pressThenRelease : ∃ t, exec (.ldVxK 3) (start .chip8) = .next t := ⟨_, rfl⟩

/-- TicksCountTimersDownToZero: past 0 too (W4). -/
theorem witness_ticks : ∃ t, runTransitions (List.replicate 2 (.event .tick)) { start .chip8 with dt := 1, st := 3 } = .next t ∧
    (t.dt, t.st) = (0, 1) := exists_next (by decide)

/-- PlaneAudioAndPitchLoads: the last 16 bytes. -/
theorem witness_audio : ({ start .xochip with i := 0xFFF0 } : State).i.toNat + 15 < (start .xochip).cfg.memSize := by decide

/-- OnlyTheListedInstructionsWrite and OnlyTheDestinationRegisterChanges: an instruction that changes a register, one that
changes VF and X, one that changes PLANE_MASK; for PC, STATUS and the halt registers a jump, the key wait, a draw that ends
with the display wait, and a return from an empty stack. -/
theorem witness_writers :
    (∃ t, exec (.ldImm 3 7) (start .chip8) = .next t ∧ (t.getV 3, (start .chip8).getV 3) = (7, 0)) ∧
    (∃ t, exec (.subReg 1 2) (start .chip8) = .next t ∧ t.getV 0xF = 1) ∧
    (∃ t, exec (.plane 2) (start .xochip) = .next t ∧ (t.planeMask, (start .xochip).planeMask) = (2, 1)) ∧
    (∃ t, exec (.jp 0x300) (start .chip8) = .next t ∧ (t.pc, (start .chip8).pc) = (0x300, 0x200)) ∧
    (∃ t, exec (.ldVxK 3) (start .chip8) = .next t ∧ (t.status, (start .chip8).status) = (.keyWait, .run)) ∧
    (∃ t, exec (.drw 0 0 0) (start .chip8) = .next t ∧ (t.status, (start .chip8).status) = (.vblankWait, .run)) ∧
    (∃ t, exec .ret (start .chip8) = .next t ∧ (t.status, t.haltReason) = (.halted, .stackUnderflow)) :=
  ⟨exists_next (by decide), exists_next (by decide), exists_next (by decide), exists_next (by decide),
    exists_next (by decide), exists_next (by decide), exists_next (by decide)⟩

/-- MemoryAtSessionStart and SessionsStartLegal: legal configurations without and with the large font, one with the font at
another place; an address of each kind. -/
theorem witness_sessions : (Config.standard .chip8 false).Ok ∧ Config.full.Ok ∧
    ({ Config.full with fontBase := 0x1B0, bigFontBase := 0x000, stackDepth := 12 } : Config).Ok ∧
    ¬ ({ Config.full with fontBase := 0x1B1 } : Config).Ok ∧
    Config.full.extras = true ∧
    (0x09F = Config.full.fontBase.toNat + 5 * (15 : Fin 16).val + (4 : Fin 5).val ∧
      ¬ (Config.full.extras = true ∧ Config.full.bigFontBase.toNat ≤ 0x09F ∧ 0x09F < Config.full.bigFontBase.toNat + 160)) ∧
    (¬ (Config.full.fontBase.toNat ≤ 0x140 ∧ 0x140 < Config.full.fontBase.toNat + 80) ∧
      ¬ (Config.full.extras = true ∧ Config.full.bigFontBase.toNat ≤ 0x140 ∧ 0x140 < Config.full.bigFontBase.toNat + 160)) := by
  decide

/-- LoadProgramCopiesOrRefuses and SessionsStartLegal: the longest ROM, and one byte more (W9). -/
theorem witness_loadProgram :
    (List.replicate 3584 (0 : Byte)).length ≤ (start .chip8).cfg.memSize - 0x200 ∧
    (start .chip8).cfg.memSize - 0x200 < (List.replicate 3585 (0 : Byte)).length ∧
    ∃ t, (State.initial (Config.standard .chip8 false)).loadProgram [0x00, 0xE0] = .loaded t := by
  refine ⟨?_, ?_, _, by rw [State.loadProgram, if_neg (by decide)]⟩ <;> rw [List.length_replicate] <;> decide

/-- StepKeepsLegalStates and EveryInterleavingStaysLegal: the reset state, and one in each wait. -/
theorem witness_legal : State.reset.Inv ∧ ({ start .chip8 with status := .vblankWait } : State).Inv ∧
    ({ start .schip with status := .keyWait, kwX := 0xF, kwArmed := 0x8001, kwLatch := some 0xF, sp := 16 } : State).Inv ∧
    ({ (start .xochip).raise .exit (.value 0x200) with planeMask := 3, res := .high } : State).Inv :=
  ⟨by decide, by decide, by decide, by decide⟩

end Sys2Proof.Tests
end

namespace Sys2Proof.Machine
/-! Legal states are kept: each operation of the machine, then every instruction, a step, a host event and a run. -/

/-! ### The relation a run keeps -/

/-- What every transition of a run gives, from the state `s` before it: a legal state of the same session, whose FAULT_LOG
extends the one before (R39, R44). -/
structure State.LegalSuccessor (s t : State) : Prop where
  inv : t.Inv
  cfg_eq : t.cfg = s.cfg
  log_extends : s.faultLog <+: t.faultLog

theorem State.LegalSuccessor.refl {s : State} (h : s.Inv) : s.LegalSuccessor s := ⟨h, rfl, List.prefix_rfl⟩

theorem State.LegalSuccessor.trans {s t u : State} (h : s.LegalSuccessor t) (h' : t.LegalSuccessor u) :
    s.LegalSuccessor u :=
  ⟨h'.inv, h'.cfg_eq.trans h.cfg_eq, h.log_extends.trans h'.log_extends⟩

/-- A legal state of the same session with the same FAULT_LOG. -/
theorem State.LegalSuccessor.of_log_eq {s t : State} (h : t.Inv) (hc : t.cfg = s.cfg) (hl : t.faultLog = s.faultLog) :
    s.LegalSuccessor t :=
  ⟨h, hc, hl ▸ List.prefix_rfl⟩

/-! ### The gates, in the terms of the invariant -/

/-- High resolution exists where the SuperChip opcodes do (R45). -/
theorem Config.hiresOk_eq_extSchip (c : Config) : c.hiresOk = c.extSchip := by
  cases hm : c.mode <;> simp [Config.hiresOk, Config.extSchip, hm]

/-- There are two planes where the XO-Chip opcodes are (R45). -/
theorem Config.planes_ne_one_of_extXo {c : Config} (h : c.extXo = true) : c.planes ≠ 1 := by
  cases hm : c.mode <;> simp_all [Config.extXo, Config.planes]

/-! ### Halts and waits -/

/-- An engine that is not halted has no halt recorded (R39). -/
theorem State.HaltInv.not_halted {s : State} (h : s.HaltInv) (hs : s.status ≠ .halted) :
    s.haltReason = .none ∧ s.haltInfo = .value 0 := by
  obtain ⟨hiff, hinfo, -⟩ := h
  exact ⟨not_not.1 (mt hiff.2 hs), hinfo hs⟩

theorem State.haltInv_of_not_halted {s : State} (hs : s.status ≠ .halted) (hr : s.haltReason = .none)
    (hi : s.haltInfo = .value 0) : s.HaltInv :=
  ⟨⟨fun h => absurd h hs, fun h => absurd hr h⟩, fun _ => hi, fun h => absurd h hs⟩

/-- A clear key-wait state suits every STATUS that the quirks allow. -/
theorem State.waitInv_of_clear {s : State} (ha : s.kwArmed = 0) (hl : s.kwLatch = none)
    (hd : s.status = .vblankWait → s.cfg.quirks.dispWait = true) : s.WaitInv :=
  ⟨fun _ => ⟨ha, hl⟩, fun _ hk => (by cases hl.symm.trans hk), hd⟩

/-- Outside the key wait the key-wait state is clear (R200). -/
theorem State.Inv.keyWait_clear {s : State} (h : s.Inv) (hs : s.status ≠ .keyWait) :
    s.kwArmed = 0 ∧ s.kwLatch = none := by
  obtain ⟨-, -, -, -, -, ⟨hclear, -, -⟩, -⟩ := h
  exact hclear hs

/-- Halt entry from RUN (R262). -/
theorem State.Inv.raise {s : State} (h : s.Inv) (hs : s.status = .run) {reason : HaltReason} (hr : reason ≠ .none)
    (info : HaltInfo) : s.LegalSuccessor (s.raise reason info) := by
  obtain ⟨harmed, hlatch⟩ := h.keyWait_clear (by simp [hs])
  obtain ⟨hcfg, hmem, hstack, hdisp, -, -, hgate⟩ := h
  have hhalt : (s.raise reason info).HaltInv := ⟨by simp [hr], by simp, by simp⟩
  have hwait : (s.raise reason info).WaitInv := State.waitInv_of_clear harmed hlatch (by simp)
  exact ⟨⟨hcfg, hmem, hstack, hdisp, hhalt, hwait, hgate⟩, rfl, List.prefix_append _ _⟩

/-- An access under the bounds check, whose effect is legal where the bytes are all in memory (R61, R66). -/
theorem State.Inv.guardRange {s t : State} (h : s.Inv) (hs : s.status = .run) {base n : Nat}
    (ht : (∀ k < n, base + k < s.cfg.memSize) → s.LegalSuccessor t) : s.LegalSuccessor (s.guardRange base n t) := by
  rcases State.guardRange_cases base n s t with ⟨hfit, e⟩ | ⟨k, -, -, -, e⟩ <;> rw [e]
  · exact ht hfit
  · exact h.raise hs (by simp) _

/-- A change of STATUS between RUN and the waits that leaves the key-wait state clear (R178, R200, R202, R298). -/
theorem State.Inv.setStatus {s : State} (h : s.Inv) (hs : s.status ≠ .halted) {st : Status} {x : Nibble}
    {armed : BitVec 16} {latch : Option Nibble} (hst : st ≠ .halted) (ha : armed = 0) (hl : latch = none)
    (hd : st = .vblankWait → s.cfg.quirks.dispWait = true) :
    s.LegalSuccessor { s with kwX := x, kwArmed := armed, kwLatch := latch, status := st } := by
  obtain ⟨hcfg, hmem, hstack, hdisp, hhalt, -, hgate⟩ := h
  obtain ⟨hreason, hinfo⟩ := hhalt.not_halted hs
  exact .of_log_eq ⟨hcfg, hmem, hstack, hdisp, State.haltInv_of_not_halted hst hreason hinfo,
    State.waitInv_of_clear ha hl hd, hgate⟩ rfl rfl

/-- The end of the key wait, or a poll of it (R200). -/
theorem State.Inv.keyWaitStep {s : State} (h : s.Inv) (hs : s.status = .keyWait) : s.LegalSuccessor s.keyWaitStep := by
  unfold State.keyWaitStep
  split
  next k _ =>
    have hv : s.LegalSuccessor { s.setV s.kwX (k.setWidth 8) with pc := s.pc + 2 } := .of_log_eq h rfl rfl
    exact hv.trans (hv.inv.setStatus (by simp [hs]) (by simp) rfl rfl (by simp))
  next => exact .refl h

/-! ### The call stack -/

/-- A call keeps SP within the stack, or overflows it (R125, R265). -/
theorem State.Inv.callTo {s : State} (h : s.Inv) (hs : s.status = .run) (target : Word) :
    ∃ t, s.callTo target = .next t ∧ s.LegalSuccessor t := by
  have ⟨hcfg, hmem, hstack, hrest⟩ := h
  rcases s.callTo_cases target with ⟨-, e⟩ | ⟨hlt, hd, e⟩ | ⟨hd, -⟩
  · exact ⟨_, e, h.raise hs (by simp) _⟩
  · have hsp : (s.sp + 1).toNat ≤ s.cfg.stackDepth.val := by rw [BitVec.toNat_add]; simp; omega
    exact ⟨_, e, .of_log_eq ⟨hcfg, hmem, hsp, hrest⟩ rfl rfl⟩
  · exact absurd hstack (by simpa using hd)

/-- A return keeps SP within the stack, or underflows it (R123, R266). -/
theorem State.Inv.returnToCaller {s : State} (h : s.Inv) (hs : s.status = .run) :
    ∃ t, s.returnToCaller = .next t ∧ s.LegalSuccessor t := by
  have ⟨hcfg, hmem, hstack, hrest⟩ := h
  rcases s.returnToCaller_cases with ⟨-, e⟩ | ⟨_, hpos, hd, e⟩ | ⟨-, hd, -⟩
  · exact ⟨_, e, h.raise hs (by simp) _⟩
  · have hsp : (s.sp - 1).toNat ≤ s.cfg.stackDepth.val := by
      rw [BitVec.toNat_sub_of_le (show (1 : Byte).toNat ≤ s.sp.toNat from hpos)]; omega
    exact ⟨_, e, .of_log_eq ⟨hcfg, hmem, hsp, hrest⟩ rfl rfl⟩
  · exact absurd hstack (by simpa using hd)

/-! ### Memory -/

/-- A store of bytes that all lie in memory, as the bounds check ensures (R60, R66). -/
theorem State.Inv.writeBytes {s : State} (h : s.Inv) {a : Nat} {bs : List Byte}
    (hfit : ∀ k < bs.length, a + k < s.cfg.memSize) : ({ s with mem := s.mem.writeBytes a bs } : State).Inv := by
  obtain ⟨hcfg, ⟨hwf, hbound⟩, hrest⟩ := h
  refine ⟨hcfg, ⟨Memory.wf_writeBytes hwf a bs, Memory.bound_writeBytes hbound ?_⟩, hrest⟩
  rcases bs.eq_nil_or_concat with rfl | ⟨cs, b, rfl⟩
  · exact .inl rfl
  · have hlast := hfit cs.length (by simp)
    exact .inr (by simp; omega)

/-! ### The display -/

/-- A change of the framebuffer that lights no pixel outside the active region of the selected planes (R31, R35). -/
theorem State.DisplayInv.of_lit {s : State} (h : s.DisplayInv) {fb : FrameBuffer}
    (hlit : ∀ p y x, fb.pixel p y x = true → s.fb.pixel p y x = true ∨
      (s.selects p = true ∧ y < s.res.height ∧ x < s.res.width)) : ({ s with fb := fb } : State).DisplayInv := by
  obtain ⟨hres, hmask, hpix⟩ := s.displayInv_iff.1 h
  refine (State.displayInv_iff _).2 ⟨hres, hmask, fun p y x hp => ?_⟩
  rcases hlit p y x hp with hold | ⟨hsel, hact⟩
  · exact hpix p y x hold
  · exact ⟨by rintro rfl; exact State.planes_of_selects hsel, hact⟩

/-- A change of the selected planes that lights pixels of the active region alone. -/
theorem State.Inv.mapSelected {s : State} (h : s.Inv) {f : Plane → Plane}
    (hf : ∀ pl y x, (f pl).pixel y x = true → pl.pixel y x = true ∨ (y < s.res.height ∧ x < s.res.width)) :
    s.LegalSuccessor { s with fb := s.fb.mapPlanes f s.selectedPlanes } := by
  obtain ⟨hcfg, hmem, hstack, hdisp, hrest⟩ := h
  refine .of_log_eq ⟨hcfg, hmem, hstack, hdisp.of_lit fun p y x hp => ?_, hrest⟩ rfl rfl
  rw [State.pixel_mapSelected] at hp
  by_cases hsel : s.selects p = true
  · rw [if_pos hsel] at hp
    exact (hf _ y x hp).imp_right fun hact => ⟨hsel, hact⟩
  · rw [if_neg hsel] at hp
    exact .inl hp

theorem State.Inv.clearScreen {s : State} (h : s.Inv) : s.LegalSuccessor s.clearScreen := by
  refine h.mapSelected fun pl y x hp => ?_
  rw [Plane.pixel_clear] at hp
  split at hp
  · cases hp
  · exact .inl hp

theorem State.Inv.scroll {s : State} (h : s.Inv) (dir : Direction) (n : Nat) : s.LegalSuccessor (s.scroll dir n) := by
  refine h.mapSelected fun pl y x hp => ?_
  rw [Plane.pixel_scroll _ _ _ _ _ _ _ s.res.height_le.2 s.res.width_le.2] at hp
  split at hp
  next hact => exact .inr hact
  next => exact .inl hp

/-- A change of resolution to one the mode has (R30, R187). -/
theorem State.Inv.setResolution {s : State} (h : s.Inv) {r : Resolution} (hr : s.cfg.hiresOk = false → r = .low) :
    s.LegalSuccessor (s.setResolution r) := by
  obtain ⟨hcfg, hmem, hstack, hdisp, hrest⟩ := h
  obtain ⟨-, hmask, -⟩ := s.displayInv_iff.1 hdisp
  have hdisp' : (s.setResolution r).DisplayInv :=
    (State.displayInv_iff _).2 ⟨hr, hmask, fun p y x hp => by simp at hp⟩
  exact .of_log_eq ⟨hcfg, hmem, hstack, hdisp', hrest⟩ rfl rfl

/-- PLANE_MASK is free where there are two planes (R33, R240). -/
theorem State.Inv.setPlaneMask {s : State} (h : s.Inv) (hp : s.cfg.planes ≠ 1) (n : BitVec 2) :
    s.LegalSuccessor { s with planeMask := n } := by
  obtain ⟨hcfg, hmem, hstack, ⟨hres, -, hinside⟩, hrest⟩ := h
  exact .of_log_eq ⟨hcfg, hmem, hstack, ⟨hres, fun h1 => absurd h1 hp, hinside⟩, hrest⟩ rfl rfl

/-- The blit, and the display wait it may end with (R176, R178). -/
theorem State.Inv.blit {s : State} (h : s.Inv) (hs : s.status = .run) (x y n : Nibble) :
    s.LegalSuccessor (s.blit x y n) := by
  have ⟨hcfg, hmem, hstack, hdisp, hrest⟩ := h
  have hdisp' : ({ s with fb := (s.blit x y n).fb } : State).DisplayInv := hdisp.of_lit fun p py px hp => by
    by_cases hq : (⟨p, py, px⟩ : PixelRef) ∈ s.spritePixels x y n
    · obtain ⟨hsel, hx, hy⟩ := State.spritePixels_active hq
      exact .inr ⟨(s.mem_selectedPlanes_iff p).1 hsel, hy, hx⟩
    · rw [State.pixel_blit] at hp
      exact .inl (by simpa [hq] using hp)
  have hdrawn : s.LegalSuccessor { s with fb := (s.blit x y n).fb, v := (s.blit x y n).v } :=
    .of_log_eq ⟨hcfg, hmem, hstack, hdisp', hrest⟩ rfl rfl
  obtain ⟨harmed, hlatch⟩ := h.keyWait_clear (by simp [hs])
  rw [State.blit_frame, State.blit_status, hs]
  by_cases hd : s.cfg.quirks.dispWait = true
  · exact hdrawn.trans (hdrawn.inv.setStatus (by simp [hs]) (by simp [hd]) harmed hlatch fun _ => hd)
  · exact hdrawn.trans (hdrawn.inv.setStatus (by simp [hs]) (by simp [hd]) harmed hlatch (by simp [hd]))

/-! ### The gated registers -/

/-- The audio registers are written where the XO-Chip opcodes are (R28, R29). -/
theorem State.Inv.setAudio {s : State} (h : s.Inv) (hx : s.cfg.extXo = true) (audio : Vector Byte 16) (pitch : Byte) :
    s.LegalSuccessor { s with audio := audio, pitch := pitch } := by
  obtain ⟨hcfg, hmem, hstack, hdisp, hhalt, hwait, -, hrpl⟩ := h
  exact .of_log_eq ⟨hcfg, hmem, hstack, hdisp, hhalt, hwait, fun hf => absurd hx (by simp [hf]), hrpl⟩ rfl rfl

/-- The snapshot is written where the SuperChip opcodes are (R40). -/
theorem State.Inv.setRpl {s : State} (h : s.Inv) (hx : s.cfg.extSchip = true) (rpl : Vector Byte 16) :
    s.LegalSuccessor { s with rpl := rpl } := by
  obtain ⟨hcfg, hmem, hstack, hdisp, hhalt, hwait, haudio, -⟩ := h
  exact .of_log_eq ⟨hcfg, hmem, hstack, hdisp, hhalt, hwait, haudio, fun hf => absurd hx (by simp [hf])⟩ rfl rfl

/-! ### Instructions, steps, events and runs -/

/-- An instruction of the configuration, executed by a running engine. -/
theorem exec_keeps_inv {i : Instr} {s : State} (h : s.Inv) (hs : s.status = .run) (hi : i.WellFormed s.cfg) :
    ∃ t, exec i s = .next t ∧ s.LegalSuccessor t := by
  cases i
  case ret => exact h.returnToCaller hs
  case call nnn => exact h.callTo hs _
  case exit => exact ⟨_, rfl, h.raise hs (by simp) _⟩
  case cls => exact ⟨_, rfl, h.clearScreen⟩
  case scd | scu | scr | scl => exact ⟨_, rfl, h.scroll _ _⟩
  case low => exact ⟨_, rfl, h.setResolution fun _ => rfl⟩
  case high =>
    refine ⟨_, rfl, h.setResolution fun hf => ?_⟩
    rw [Config.hiresOk_eq_extSchip, show s.cfg.extSchip = true from hi] at hf
    cases hf
  case plane n => exact ⟨_, rfl, h.setPlaneMask (Config.planes_ne_one_of_extXo hi) n⟩
  case drw x y n => exact ⟨_, rfl, h.guardRange hs fun _ => h.blit hs x y n⟩
  case storeRegs x =>
    refine ⟨_, rfl, h.guardRange hs fun hfit => ?_⟩
    rw [State.incIndex_frame]
    exact .of_log_eq (h.writeBytes (by simpa using hfit)) rfl rfl
  case ldB | saveRange =>
    exact ⟨_, rfl, h.guardRange hs fun hfit => .of_log_eq (h.writeBytes (by simpa [bcdDigits] using hfit)) rfl rfl⟩
  case loadRegs x =>
    refine ⟨_, rfl, h.guardRange hs fun _ => ?_⟩
    rw [State.incIndex_frame]
    exact .of_log_eq h rfl rfl
  case loadRange => exact ⟨_, rfl, h.guardRange hs fun _ => .of_log_eq h rfl rfl⟩
  case audio => exact ⟨_, rfl, h.guardRange hs fun _ => h.setAudio hi _ _⟩
  case pitch => exact ⟨_, rfl, h.setAudio hi _ _⟩
  case saveRpl x => exact ⟨_, rfl, h.setRpl (Bool.and_eq_true_iff.1 hi).1 _⟩
  case ldVxK x =>
    have hpc : s.LegalSuccessor { s with pc := s.instrAddr } := .of_log_eq h rfl rfl
    exact ⟨_, rfl, hpc.trans (hpc.inv.setStatus (by simp [hs]) (by simp) rfl rfl (by simp))⟩
  case seImm | sneImm | seReg | sneReg | skp | sknp =>
    refine ⟨_, rfl, ?_⟩
    rw [State.skipIf_frame]; exact .of_log_eq h rfl rfl
  case orReg | andReg | xorReg =>
    refine ⟨_, rfl, ?_⟩
    rw [State.setLogicResult_frame]; exact .of_log_eq h rfl rfl
  all_goals exact ⟨_, rfl, .of_log_eq h rfl rfl⟩

/-- A step, in every STATUS. -/
theorem step_keeps_inv {s : State} (h : s.Inv) : ∃ t, step s = .next t ∧ s.LegalSuccessor t := by
  cases hs : s.status with
  | run =>
    have hpc (a : Word) : s.LegalSuccessor { s with pc := a } := .of_log_eq h rfl rfl
    rcases s.fetch_cases with ⟨reason, info, hr, hf⟩ | ⟨i, hi, -, hf⟩
    · generalize (if s.pc.toNat + 1 < s.cfg.memSize then s.pc + 2 else s.pc) = a at hf
      have hreason : reason ≠ .none := by rcases hr with rfl | rfl <;> simp
      exact ⟨_, step_of_halt hs hf, (hpc a).trans ((hpc a).inv.raise hs hreason info)⟩
    · obtain ⟨t, ht, hl⟩ := exec_keeps_inv (hpc (s.pc + BitVec.ofNat 16 i.length)).inv hs hi
      exact ⟨t, (step_of_run hs hf).trans ht, (hpc _).trans hl⟩
  | vblankWait => exact ⟨s, step_of_vblankWait hs, .refl h⟩
  | keyWait => exact ⟨_, step_of_keyWait hs, h.keyWaitStep hs⟩
  | halted => exact ⟨s, step_of_halted hs, .refl h⟩

/-- The refresh ends the display wait (R298). -/
theorem State.Inv.refresh {s : State} (h : s.Inv) : s.LegalSuccessor s.refresh := by
  unfold State.refresh
  split
  next hs =>
    obtain ⟨harmed, hlatch⟩ := h.keyWait_clear (by simp [hs])
    exact h.setStatus (by simp [hs]) (by simp) harmed hlatch (by simp)
  next => exact .refl h

/-- The return from a halt forgets the halt in force, and keeps its entry in FAULT_LOG (R270). -/
theorem State.Inv.resume {s : State} (h : s.Inv) : s.LegalSuccessor s.resume := by
  unfold State.resume
  split
  next hs =>
    obtain ⟨harmed, hlatch⟩ := h.keyWait_clear (by simp [hs.1])
    obtain ⟨hcfg, hmem, hstack, hdisp, -, -, hgate⟩ := h
    exact .of_log_eq ⟨hcfg, hmem, hstack, hdisp, State.haltInv_of_not_halted (by simp) rfl rfl,
      State.waitInv_of_clear harmed hlatch (by simp), hgate⟩ rfl rfl
  next => exact .refl h

/-- Everything a key event can do to the key wait (R203): arm a key, latch an armed key, or nothing. -/
theorem State.noteKey_cases (k : Nibble) (pressed : Bool) (s : State) :
    (s.status = .keyWait ∧ s.kwLatch = none ∧ pressed = true ∧
      s.noteKey k pressed = { s with kwArmed := s.kwArmed ||| BitVec.twoPow 16 k.toNat }) ∨
    (s.status = .keyWait ∧ s.kwLatch = none ∧ pressed = false ∧ s.kwArmed.getLsbD k.toNat = true ∧
      s.noteKey k pressed = { s with kwLatch := some k }) ∨
    s.noteKey k pressed = s := by
  unfold State.noteKey
  split
  next hw =>
    cases pressed with
    | true => exact .inl ⟨hw.1, hw.2, rfl, rfl⟩
    | false =>
      by_cases ha : s.kwArmed.getLsbD k.toNat = true
      · exact .inr (.inl ⟨hw.1, hw.2, rfl, ha, by simp [ha]⟩)
      · exact .inr (.inr (by simp [ha]))
  next => exact .inr (.inr rfl)

/-- A key event keeps the wait consistent: only an armed key is latched (R203). -/
theorem State.Inv.noteKey {s : State} (h : s.Inv) (k : Nibble) (pressed : Bool) :
    s.LegalSuccessor (s.noteKey k pressed) := by
  have ⟨hcfg, hmem, hstack, hdisp, hhalt, ⟨_, _, hvblank⟩, hgate⟩ := h
  rcases s.noteKey_cases k pressed with ⟨hs, hnone, -, e⟩ | ⟨hs, -, -, harmed, e⟩ | e <;> rw [e]
  · have hwait : ({ s with kwArmed := s.kwArmed ||| BitVec.twoPow 16 k.toNat } : State).WaitInv :=
      ⟨fun hn => absurd hs hn, fun j hj => (by cases hnone.symm.trans hj), hvblank⟩
    exact .of_log_eq ⟨hcfg, hmem, hstack, hdisp, hhalt, hwait, hgate⟩ rfl rfl
  · have hwait : ({ s with kwLatch := some k } : State).WaitInv :=
      ⟨fun hn => absurd hs hn, fun j hj => by cases hj; exact harmed, hvblank⟩
    exact .of_log_eq ⟨hcfg, hmem, hstack, hdisp, hhalt, hwait, hgate⟩ rfl rfl
  · exact .refl h

theorem State.Inv.setKeyState {s : State} (h : s.Inv) (k : Nibble) (pressed : Bool) :
    s.LegalSuccessor (s.setKeyState k pressed) := by
  have hkey : s.LegalSuccessor { s with key := s.key.set k.toNat pressed k.isLt } := .of_log_eq h rfl rfl
  exact hkey.trans (hkey.inv.noteKey k pressed)

/-- A host event between two steps (R296). -/
theorem State.Inv.applyEvent {s : State} (h : s.Inv) (e : HostEvent) : s.LegalSuccessor (s.applyEvent e) := by
  cases e with
  | tick => exact .of_log_eq h rfl rfl
  | refresh => exact h.refresh
  | setKeyState k pressed => exact h.setKeyState k pressed
  | resume => exact h.resume

theorem transition_keeps_inv {s : State} (h : s.Inv) (t : Transition) :
    ∃ u, transition s t = .next u ∧ s.LegalSuccessor u := by
  cases t with
  | step => exact step_keeps_inv h
  | event e => exact ⟨_, rfl, h.applyEvent e⟩

/-- A run whose first transition answers a next state goes on from there. -/
theorem runTransitions_cons_of_next {t : Transition} {ts : List Transition} {s u : State}
    (h : transition s t = .next u) : runTransitions (t :: ts) s = runTransitions ts u := by
  rw [runTransitions, h]

theorem runTransitions_keeps_inv (ts : List Transition) {s : State} (h : s.Inv) :
    ∃ u, runTransitions ts s = .next u ∧ s.LegalSuccessor u := by
  induction ts generalizing s with
  | nil => exact ⟨s, rfl, .refl h⟩
  | cons t ts ih =>
    obtain ⟨u, hu, hsu⟩ := transition_keeps_inv h t
    obtain ⟨w, hw, huw⟩ := ih hsu.inv
    exact ⟨w, (runTransitions_cons_of_next hu).trans hw, hsu.trans huw⟩

/-- Settles O60, by induction on the transitions: every step and every host event gives a legal successor, and legal
successors compose. -/
theorem everyInterleavingStaysLegal : Obligations.EveryInterleavingStaysLegal := by
  unfold Obligations.EveryInterleavingStaysLegal
  intro ts s h
  obtain ⟨t, ht, hl⟩ := runTransitions_keeps_inv ts h
  exact ⟨t, ht, hl.inv, hl.cfg_eq, hl.log_extends⟩

end Sys2Proof.Machine

namespace Sys2Proof.Machine
/-! The state as a whole: its reset value, FAULT_LOG, and which instruction writes which part of it. -/

/-! ### Legal states -/

/-- Settles O59, from the invariant's step lemma. -/
theorem stepKeepsLegalStates : Obligations.StepKeepsLegalStates := by
  unfold Obligations.StepKeepsLegalStates
  intro s h
  obtain ⟨t, ht, hl⟩ := step_keeps_inv h
  exact ⟨t, ht, hl.inv, hl.cfg_eq⟩

/-- The start of a session of a legal configuration is legal (R290, R294, R295). -/
theorem State.inv_initial {c : Config} (hc : c.Ok) : (State.initial c).Inv := by
  have hmem : (State.initial c).MemInv :=
    ⟨Memory.wf_initialMemory c, fun p hp => by
      have hlow := Memory.bound_initialMemory hc p hp
      have hsize : 4096 ≤ (State.initial c).cfg.memSize := c.memSize_ge
      omega⟩
  have hdisp : (State.initial c).DisplayInv :=
    (State.displayInv_iff _).2 ⟨fun _ => rfl, fun _ => rfl, fun p y x hp => by simp [State.initial] at hp⟩
  exact ⟨hc, hmem, Nat.zero_le _, hdisp, State.haltInv_of_not_halted (by simp [State.initial]) rfl rfl,
    State.waitInv_of_clear rfl rfl (by simp [State.initial]), fun _ => ⟨rfl, rfl⟩, fun _ => rfl⟩

/-- The reset state is the start of the default session (log 1): it lists no memory, and neither does that session. -/
theorem State.initial_default : State.initial Config.default = State.reset := by
  unfold State.initial
  rw [initialMemory_default]
  rfl

/-- Settles O57: the reset state is the start of a session whose configuration is legal. -/
theorem resetIsLegal : Obligations.ResetIsLegal := by
  unfold Obligations.ResetIsLegal
  rw [← State.initial_default]
  exact State.inv_initial (by decide)

/-! ### The halts -/

/-- Settles O25: above the depth neither a call nor a return finds a slot. -/
theorem noStackSlotBeyondTheDepth : Obligations.NoStackSlotBeyondTheDepth := by
  unfold Obligations.NoStackSlotBeyondTheDepth
  intro nnn s hsp
  constructor
  · rcases s.callTo_cases (addr16 nnn) with ⟨hfull, -⟩ | ⟨-, hfree, -⟩ | ⟨-, e⟩
    · omega
    · omega
    · exact e
  · rcases s.returnToCaller_cases with ⟨hempty, -⟩ | ⟨-, -, hin, -⟩ | ⟨-, -, e⟩
    · omega
    · omega
    · exact e

/-- FAULT_LOG after an instruction (R262): it completed, or the halt it raised is the new last entry. -/
theorem exec_faultLog {i : Instr} {s t : State} (h : exec i s = .next t) :
    t.faultLog = s.faultLog ∨
      (t.status = .halted ∧ t.faultLog = s.faultLog ++ [(t.haltReason, t.haltInfo)]) := by
  rcases exec_cases h with ⟨reason, info, -, rfl⟩ | ⟨-, -, hlog, -⟩
  · exact .inr ⟨rfl, rfl⟩
  · exact .inl hlog

/-- FAULT_LOG after a step, in every STATUS (R268). -/
theorem step_faultLog {s t : State} (h : step s = .next t) :
    t.faultLog = s.faultLog ∨
      (s.status = .run ∧ t.status = .halted ∧ t.faultLog = s.faultLog ++ [(t.haltReason, t.haltInfo)]) := by
  cases hs : s.status with
  | run =>
    rcases s.fetch_cases with ⟨reason, info, -, hf⟩ | ⟨i, -, -, hf⟩
    · rw [step_of_halt hs hf] at h
      cases h
      exact .inr ⟨rfl, rfl, rfl⟩
    · rw [step_of_run hs hf] at h
      exact (exec_faultLog h).imp_right fun hhalt => ⟨rfl, hhalt⟩
  | vblankWait => rw [step_of_vblankWait hs] at h; cases h; exact .inl rfl
  | keyWait =>
    rw [step_of_keyWait hs] at h
    cases h
    exact .inl (congrArg State.faultLog s.keyWaitStep_frame :)
  | halted => rw [step_of_halted hs] at h; cases h; exact .inl rfl

/-- No host event is a halt (R270, R296). -/
theorem State.applyEvent_faultLog (s : State) (e : HostEvent) : (s.applyEvent e).faultLog = s.faultLog := by
  cases e with
  | tick => rfl
  | refresh => exact (congrArg State.faultLog s.refresh_frame :)
  | setKeyState k pressed => exact (congrArg State.faultLog (s.setKeyState_frame k pressed) :)
  | resume => exact (congrArg State.faultLog s.resume_frame :)

/-- Settles O13: a step logs the one halt it takes, a host event none. -/
theorem faultLogIsAppendOnly : Obligations.FaultLogIsAppendOnly := by
  unfold Obligations.FaultLogIsAppendOnly
  exact ⟨fun _ _ => step_faultLog, State.applyEvent_faultLog⟩

/-! ### The writers -/

/-- What an instruction that completes can have changed from `s` to `t`: R43 read by instructions. EXIT never completes. Of
the general registers those that may differ are named (R21). -/
def State.WrittenBy (s t : State) : Instr → Prop
  | .cls | .scd _ | .scu _ | .scr | .scl => ∃ fb, t = { s with fb := fb }
  | .low | .high => ∃ res fb, t = { s with res := res, fb := fb }
  | .exit => False
  | .ret => ∃ pc sp, t = { s with pc := pc, sp := sp }
  | .call _ => ∃ pc sp stack, t = { s with pc := pc, sp := sp, stack := stack }
  | .jp _ | .jpOffset _ | .seImm _ _ | .sneImm _ _ | .seReg _ _ | .sneReg _ _ | .skp _ | .sknp _ =>
    ∃ pc, t = { s with pc := pc }
  | .ldImm x _ | .addImm x _ | .ldReg x _ | .ldVxDt x =>
    (∀ r, t.getV r ≠ s.getV r → r = x) ∧ ∃ v, t = { s with v := v }
  | .orReg x _ | .andReg x _ | .xorReg x _ | .addReg x _ | .subReg x _ | .subnReg x _ | .shr x _ | .shl x _ =>
    (∀ r, t.getV r ≠ s.getV r → r = x ∨ r = 0xF) ∧ ∃ v, t = { s with v := v }
  | .rnd x _ => (∀ r, t.getV r ≠ s.getV r → r = x) ∧ ∃ v n, t = { s with v := v, rndCount := n }
  | .drw _ _ _ => (∀ r, t.getV r ≠ s.getV r → r = 0xF) ∧ (t.status = s.status ∨ t.status = .vblankWait) ∧
    ∃ fb v st, t = { s with fb := fb, v := v, status := st }
  | .ldI _ | .ldILong _ | .addI _ | .ldF _ | .ldHf _ => ∃ i, t = { s with i := i }
  | .storeRegs _ => ∃ mem i, t = { s with mem := mem, i := i }
  | .ldB _ | .saveRange _ _ => ∃ mem, t = { s with mem := mem }
  | .loadRegs x => (∀ r, t.getV r ≠ s.getV r → r.toNat ≤ x.toNat) ∧ ∃ v i, t = { s with v := v, i := i }
  | .loadRpl x => (∀ r, t.getV r ≠ s.getV r → r.toNat ≤ x.toNat) ∧ ∃ v, t = { s with v := v }
  | .loadRange x y =>
    (∀ r, t.getV r ≠ s.getV r → min x.toNat y.toNat ≤ r.toNat ∧ r.toNat ≤ max x.toNat y.toNat) ∧
      ∃ v, t = { s with v := v }
  | .saveRpl _ => ∃ rpl, t = { s with rpl := rpl }
  | .plane _ => ∃ mask, t = { s with planeMask := mask }
  | .audio => ∃ audio, t = { s with audio := audio }
  | .pitch _ => ∃ pitch, t = { s with pitch := pitch }
  | .ldDtVx _ => ∃ dt, t = { s with dt := dt }
  | .ldStVx _ => ∃ st, t = { s with st := st }
  | .ldVxK _ => ∃ x armed latch pc st,
    t = { s with kwX := x, kwArmed := armed, kwLatch := latch, pc := pc, status := st }

/-- An access under the bounds check halts or does its effect (R61, R66). -/
theorem State.writtenBy_guardRange {i : Instr} {base n : Nat} {s t : State} (hi : i.CanHalt) (h : s.WrittenBy t i) :
    i.CanHalt ∧ s.Halts (s.guardRange base n t) ∨ s.WrittenBy (s.guardRange base n t) i := by
  rcases State.guardRange_cases base n s t with ⟨-, e⟩ | ⟨k, -, -, -, e⟩ <;> rw [e]
  · exact .inr h
  · exact .inl ⟨hi, _, _, .inl rfl, rfl⟩

theorem State.eq_of_getV_setV_ne {s : State} {x r : Nibble} {b : Byte} (h : (s.setV x b).getV r ≠ s.getV r) : r = x := by
  by_contra hr
  exact h (by simp [hr])

theorem State.eq_of_getV_setResultAndFlag_ne {s : State} {x r : Nibble} {b : Byte} {f : Bool}
    (h : (s.setResultAndFlag x b f).getV r ≠ s.getV r) : r = x ∨ r = 0xF := by
  by_contra hr
  obtain ⟨hx, hf⟩ := not_or.1 hr
  exact h (by rw [State.getV_setResultAndFlag, if_neg hf, if_neg hx])

theorem State.eq_of_getV_setLogicResult_ne {s : State} {x r : Nibble} {b : Byte}
    (h : (s.setLogicResult x b).getV r ≠ s.getV r) : r = x ∨ r = 0xF := by
  by_contra hr
  obtain ⟨hx, hf⟩ := not_or.1 hr
  exact h (by rw [State.getV_setLogicResult, if_neg fun hflag => hf hflag.1, if_neg hx])

/-- A draw completed (R175–R178). -/
theorem State.writtenBy_blit (s : State) (x y n : Nibble) : s.WrittenBy (s.blit x y n) (.drw x y n) := by
  refine ⟨fun r hr => ?_, ?_, _, _, _, s.blit_frame x y n⟩
  · by_contra hf
    exact hr (by rw [State.getV_blit, if_neg hf])
  · rw [State.blit_status]
    split
    · exact .inr rfl
    · exact .inl rfl

/-- A register that stands outside the sequence VX to VY has no place in it (R247). -/
theorem rangeOffset_eq_none {x y : Nibble} {r : Nat} (h : ¬ (min x.toNat y.toNat ≤ r ∧ r ≤ max x.toNat y.toNat)) :
    rangeOffset x y r = none := by
  unfold rangeOffset
  rw [if_neg (by omega), if_neg (by omega)]

/-- Every instruction that answers a next state halts, where its rule can raise a halt, or writes what R43 lists for it. -/
theorem exec_writtenBy {i : Instr} {s t : State} (h : exec i s = .next t) : i.CanHalt ∧ s.Halts t ∨ s.WrittenBy t i := by
  cases i
  case ret =>
    rcases s.returnToCaller_cases with ⟨-, e⟩ | ⟨_, -, -, e⟩ | ⟨-, -, e⟩ <;> simp only [exec, execRet, e] at h <;> cases h
    · exact .inl ⟨by simp [Instr.CanHalt], _, _, by simp, rfl⟩
    · exact .inr ⟨_, _, rfl⟩
  case call nnn =>
    rcases s.callTo_cases (addr16 nnn) with ⟨-, e⟩ | ⟨_, -, e⟩ | ⟨-, e⟩ <;> simp only [exec, execCall, e] at h <;> cases h
    · exact .inl ⟨by simp [Instr.CanHalt], _, _, by simp, rfl⟩
    · exact .inr ⟨_, _, _, rfl⟩
  all_goals cases h
  case exit => exact .inl ⟨by simp [Instr.CanHalt], _, _, by simp, rfl⟩
  case drw x y n => exact State.writtenBy_guardRange (by simp [Instr.CanHalt]) (State.writtenBy_blit s x y n)
  case storeRegs x =>
    exact State.writtenBy_guardRange (by simp [Instr.CanHalt]) ⟨_, _, State.incIndex_frame _ x⟩
  case ldB | saveRange | audio => exact State.writtenBy_guardRange (by simp [Instr.CanHalt]) ⟨_, rfl⟩
  case loadRegs x =>
    refine State.writtenBy_guardRange (by simp [Instr.CanHalt]) ⟨fun r hr => ?_, _, _, State.incIndex_frame _ x⟩
    by_contra hx
    rw [State.incIndex_frame] at hr
    exact hr ((State.getV_loadUpTo s _ x r).trans (if_neg hx))
  case loadRange x y =>
    refine State.writtenBy_guardRange (by simp [Instr.CanHalt]) ⟨fun r hr => ?_, _, rfl⟩
    by_contra hx
    refine hr ((State.getV_loadBetween s _ x y r).trans ?_)
    rw [rangeOffset_eq_none hx]
  case loadRpl x =>
    refine .inr ⟨fun r hr => ?_, _, rfl⟩
    by_contra hx
    exact hr ((State.getV_ofFn s _ r).trans (if_neg hx))
  case ldImm | addImm | ldReg | ldVxDt => exact .inr ⟨fun _ => State.eq_of_getV_setV_ne, _, rfl⟩
  case rnd => exact .inr ⟨fun _ hr => State.eq_of_getV_setV_ne hr, _, _, rfl⟩
  case addReg | subReg | subnReg | shr | shl => exact .inr ⟨fun _ => State.eq_of_getV_setResultAndFlag_ne, _, rfl⟩
  case orReg | andReg | xorReg =>
    exact .inr ⟨fun _ => State.eq_of_getV_setLogicResult_ne, _, State.setLogicResult_frame s _ _⟩
  case seImm | sneImm | seReg | sneReg | skp | sknp => exact .inr ⟨_, State.skipIf_frame s _⟩
  case low | high => exact .inr ⟨_, _, rfl⟩
  case ldVxK => exact .inr ⟨_, _, _, _, _, rfl⟩
  all_goals exact .inr ⟨_, rfl⟩

/-- Settles O53: a halt changes no register, and an instruction that completes only those it is listed with. -/
theorem onlyTheDestinationRegisterChanges : Obligations.OnlyTheDestinationRegisterChanges := by
  unfold Obligations.OnlyTheDestinationRegisterChanges
  intro i s t r h hne
  rcases exec_writtenBy h with ⟨-, reason, info, -, rfl⟩ | hw
  · exact absurd rfl hne
  cases i
  case ldImm | addImm | ldReg | ldVxDt | rnd =>
    obtain ⟨hr, -⟩ := hw
    simp [hr r hne]
  case orReg x y | andReg x y | xorReg x y | addReg x y | subReg x y | subnReg x y | shr x y | shl x y =>
    obtain ⟨hr, -⟩ := hw
    exact .inr (.inl ⟨x, y, hr r hne, by simp⟩)
  case drw | loadRegs | loadRpl | loadRange =>
    obtain ⟨hr, -⟩ := hw
    simpa using hr r hne
  case exit => exact hw.elim
  case ldVxK => obtain ⟨_, _, _, _, _, rfl⟩ := hw; exact absurd rfl hne
  case call => obtain ⟨_, _, _, rfl⟩ := hw; exact absurd rfl hne
  case ret | low | high | storeRegs => obtain ⟨_, _, rfl⟩ := hw; exact absurd rfl hne
  all_goals obtain ⟨_, rfl⟩ := hw; exact absurd rfl hne

/-- Settles O52: a halt writes the halt registers alone, and an instruction that completes what it is listed with. -/
theorem onlyTheListedInstructionsWrite : Obligations.OnlyTheListedInstructionsWrite := by
  unfold Obligations.OnlyTheListedInstructionsWrite
  intro i s t h
  rcases exec_writtenBy h with ⟨hi, reason, info, -, rfl⟩ | hw
  · simp [hi]
  cases i
  case exit => exact hw.elim
  case ldVxK => obtain ⟨_, _, _, _, _, rfl⟩ := hw; simp
  case call => obtain ⟨_, _, _, rfl⟩ := hw; simp
  case ret | low | high | storeRegs => obtain ⟨_, _, rfl⟩ := hw; simp
  case drw =>
    obtain ⟨-, hst, _, _, _, rfl⟩ := hw
    simpa using fun hne => .inl (hst.resolve_left hne)
  case rnd | loadRegs => obtain ⟨-, _, _, rfl⟩ := hw; simp
  case ldImm | addImm | ldReg | ldVxDt | orReg | andReg | xorReg | addReg | subReg | subnReg | shr | shl | loadRpl |
      loadRange =>
    obtain ⟨-, _, rfl⟩ := hw; simp
  all_goals obtain ⟨_, rfl⟩ := hw; simp

end Sys2Proof.Machine

namespace Sys2Proof.Machine
/-! Memory: fetches and accesses past its top, what a store leaves unchanged, and its content at the start of a session. -/

/-! ### Fetches -/

/-- `F000 NNNN` is the long form in XOCHIP (R92). -/
theorem isLong_of_xochip {c : Config} {op : Word} (hc : c.mode = .xochip) (ho : op = 0xF000) : isLong c op = true :=
  (isLong_iff c op).2 ⟨by simp [Config.extXo, hc], ho⟩

/-- Settles O7: each fetch checks its own two bytes, and the second one has PC past the first word already. -/
theorem fetchOutsideMemoryHalts : Obligations.FetchOutsideMemoryHalts := by
  unfold Obligations.FetchOutsideMemoryHalts
  intro s hs
  have hfirst {bad : Nat} (hout : s.cfg.memSize ≤ s.pc.toNat + 1) (hbad : max s.pc.toNat s.cfg.memSize = bad) :
      step s = .next (s.raise .addressOutOfRange (.value bad)) :=
    hbad ▸ step_of_halt hs (State.fetch_out hout)
  refine ⟨fun hpc => hfirst (by omega) (by omega), fun hpc hout => hfirst hout (by omega), fun hop hmode hword hout => ?_⟩
  exact ⟨_, rfl, step_of_halt hs (State.fetch_long_out hop (isLong_of_xochip hmode hword) hout)⟩

/-! ### Accesses past the top -/

/-- The number of registers from VX to VY, whichever is the lower (R246). -/
theorem rangeLength_eq_max_sub_min (x y : Nibble) :
    rangeLength x y = (max x.toNat y.toNat - min x.toNat y.toNat) + 1 := by
  rw [rangeLength_eq]
  split <;> omega

/-- Settles O34: each of the six runs its effect under the bounds check of the bytes it accesses from I up, and that check
answers the lowest failing address. -/
theorem accessPastMemoryHalts : Obligations.AccessPastMemoryHalts := by
  unfold Obligations.AccessPastMemoryHalts
  intro s x y n i len hi k hk hout hbelow
  have hguard : ∃ t, exec i s = .next (s.guardRange s.i.toNat len t) := by
    simp only [← rangeLength_eq_max_sub_min, ← State.spriteTotal_eq, List.mem_cons, Prod.mk.injEq, List.not_mem_nil,
      or_false] at hi
    rcases hi with ⟨rfl, rfl⟩ | ⟨rfl, rfl⟩ | ⟨rfl, rfl⟩ | ⟨rfl, rfl⟩ | ⟨rfl, rfl⟩ | ⟨rfl, rfl⟩ <;> exact ⟨_, rfl⟩
  obtain ⟨t, ht⟩ := hguard
  rw [ht, State.guardRange_of_out hk hout hbelow]
  rfl

/-! ### Stores -/

/-- A byte that reads differently after a store under the bounds check is one of the bytes stored, and lies in memory
(R64, R66). -/
theorem State.changed_byte_of_guardRange {s t : State} {base n a : Nat} {bs : List Byte} (hn : bs.length = n)
    (ht : t.mem = s.mem.writeBytes base bs) (hne : (s.guardRange base n t).mem.read a ≠ s.mem.read a) :
    a < s.cfg.memSize ∧ base ≤ a ∧ a < base + n := by
  rcases State.guardRange_cases base n s t with ⟨hfit, e⟩ | ⟨k, -, -, -, e⟩
  · have hin : base ≤ a ∧ a < base + n := by
      by_contra hout
      exact hne (by rw [e, ht, Memory.read_writeBytes_outside _ (by omega)])
    have := hfit (a - base) (by omega)
    exact ⟨by omega, hin⟩
  · exact absurd (by rw [e, State.raise_mem]) hne

/-- FX33 stores three bytes (R210). -/
theorem length_bcdDigits (b : Byte) : (bcdDigits b).length = 3 := rfl

/-- The writers of memory (R43). -/
theorem exec_writes_mem {i : Instr} {s t : State} (h : exec i s = .next t) (hne : t.mem ≠ s.mem) :
    (∃ x, i = .storeRegs x) ∨ (∃ x, i = .ldB x) ∨ ∃ x y, i = .saveRange x y := by
  obtain ⟨-, -, -, -, -, -, -, -, -, -, -, -, hmem, -⟩ := onlyTheListedInstructionsWrite i s t h
  exact hmem hne

/-- Settles O37: three instructions write memory, and each stores a fixed number of bytes from I up under the bounds
check. -/
theorem storesTouchOnlyTheirBytes : Obligations.StoresTouchOnlyTheirBytes := by
  unfold Obligations.StoresTouchOnlyTheirBytes
  intro i s t a h hne
  rcases exec_writes_mem h fun e => hne (by rw [e]) with ⟨x, rfl⟩ | ⟨x, rfl⟩ | ⟨x, y, rfl⟩ <;> cases h
  · obtain ⟨hsize, hlow, hhigh⟩ := State.changed_byte_of_guardRange (s.length_regsUpTo x)
      (congrArg State.mem (State.incIndex_frame _ x)) hne
    exact ⟨hsize, hlow, .inl ⟨x, rfl, by omega⟩⟩
  · obtain ⟨hsize, hlow, hhigh⟩ := State.changed_byte_of_guardRange (length_bcdDigits (s.getV x)) rfl hne
    exact ⟨hsize, hlow, .inr (.inl ⟨x, rfl, by omega⟩)⟩
  · obtain ⟨hsize, hlow, hhigh⟩ := State.changed_byte_of_guardRange (s.length_regsBetween x y) rfl hne
    rw [rangeLength_eq_max_sub_min] at hhigh
    exact ⟨hsize, hlow, .inr (.inr ⟨x, y, rfl, by omega⟩)⟩

/-! ### The start of a session -/

/-- Byte `k` of glyph `d` of the large font, which is written last (R294; log 14). -/
theorem read_initialMemory_bigFont {c : Config} (hx : c.extras = true) (d : Fin 16) (k : Fin 10) :
    (initialMemory c).read (c.bigFontBase.toNat + 10 * d.val + k.val) = c.bigFont[d][k] := by
  simp only [initialMemory, hx, if_true]
  exact Memory.read_table _ _ c.bigFont d k

/-- Outside the large font memory reads as the font was written over zeros (R294, R295). -/
theorem read_initialMemory_of_not_bigFont {c : Config} {a : Nat}
    (ha : ¬ (c.extras = true ∧ c.bigFontBase.toNat ≤ a ∧ a < c.bigFontBase.toNat + 160)) :
    (initialMemory c).read a =
      ((Memory.writeBytes [] 0x050 (List.replicate 80 0x00)).writeBytes c.fontBase.toNat
        (c.font.toList.flatMap Vector.toList)).read a := by
  by_cases hx : c.extras = true
  · simp only [initialMemory, hx, if_true]
    have hout := not_and.1 ha hx
    exact Memory.read_table_outside _ (by omega)
  · simp only [initialMemory, hx, Bool.false_eq_true, if_false]

/-- Settles O55: the large font is written over the font, and the font over zeros. -/
theorem memoryAtSessionStart : Obligations.MemoryAtSessionStart := by
  unfold Obligations.MemoryAtSessionStart
  rintro c - m rfl
  refine ⟨fun hx => read_initialMemory_bigFont hx, ?_, fun a hfont hbig => ?_⟩
  · rintro d k a rfl hbig
    exact (read_initialMemory_of_not_bigFont hbig).trans (Memory.read_table _ _ c.font d k)
  · have hout : a < c.fontBase.toNat ∨ c.fontBase.toNat + 5 * 16 ≤ a := by omega
    exact (read_initialMemory_of_not_bigFont hbig).trans ((Memory.read_table_outside _ hout).trans (Memory.read_zeroed a))

end Sys2Proof.Machine

namespace Sys2Proof
/-! Encoding and decoding: they are inverse to each other, which words are illegal, and the gates (30_encoding.md). -/

/-! ### The second word -/

/-- Every instruction but the long load is one word (R92). -/
theorem Instr.long_or_short (i : Instr) : (∃ k, i = .ldILong k) ∨ i.operandWord = none := by
  cases i
  case ldILong k => exact .inl ⟨k, rfl⟩
  all_goals exact .inr rfl

/-- An accepted instruction has a second word exactly when its first word says so (R92). -/
theorem isLong_opcode {c : Config} {i : Instr} (hi : i.WellFormed c) : isLong c i.opcode = i.operandWord.isSome := by
  rcases i.long_or_short with ⟨k, rfl⟩ | hn
  · exact (isLong_iff ..).2 ⟨hi, rfl⟩
  · rw [hn, Option.isSome_none, ← Bool.not_eq_true, isLong_iff, opcode_long]
    rintro ⟨-, k, rfl⟩
    cases hn

theorem Instr.encode_of_short {i : Instr} (h : i.operandWord = none) : i.encode = bytesOf i.opcode := by
  rw [encode, h]

theorem Instr.encode_of_long {i : Instr} {w : Word} (h : i.operandWord = some w) :
    i.encode = bytesOf i.opcode ++ bytesOf w := by
  rw [encode, h]

theorem Instr.length_of_short {i : Instr} (h : i.operandWord = none) : i.length = 2 := by rw [length, h]

@[simp] theorem bytesOf_wordOf (hi lo : Byte) : bytesOf (wordOf hi lo) = [hi, lo] := by simp [bytesOf]

/-! ### Decoding after encoding -/

theorem decode_of_short {c : Config} {op : Word} {i : Instr} {rest : List Byte} (hl : isLong c op = false)
    (hd : decodeWords c op 0#16 = some i) : decode c (bytesOf op ++ rest) = .ok i rest := by
  simp [decode, bytesOf, hl, hd]

theorem decode_of_long {c : Config} {op w : Word} {i : Instr} {rest : List Byte} (hl : isLong c op = true)
    (hd : decodeWords c op w = some i) : decode c (bytesOf op ++ (bytesOf w ++ rest)) = .ok i rest := by
  simp [decode, bytesOf, hl, hd]

/-- Settles O1: the first word tells the length, and the dispatch table reads every row's own words as that row. -/
theorem decodeOfEncodeIsTheInstruction : Obligations.DecodeOfEncodeIsTheInstruction := by
  unfold Obligations.DecodeOfEncodeIsTheInstruction
  intro c i rest hi
  have hl := isLong_opcode hi
  cases hn : i.operandWord with
  | none =>
    rw [Instr.encode_of_short hn]
    exact decode_of_short (by rw [hl, hn]; rfl) (decodeWords_opcode hi 0 (by simp [hn]))
  | some k =>
    rw [Instr.encode_of_long hn, List.append_assoc]
    exact decode_of_long (by rw [hl, hn]; rfl) (decodeWords_opcode hi k (by simp [hn]))

/-! ### Encoding after decoding -/

/-- Settles O2: the row that the table reads has the word as its opcode, and the word tells whether there is a second. -/
theorem decodedWordIsTheInstructionsOpcode : Obligations.DecodedWordIsTheInstructionsOpcode := by
  unfold Obligations.DecodedWordIsTheInstructionsOpcode
  intro c op operand i h
  obtain ⟨hi, hrow⟩ := decodeWords_eq_some h
  obtain ⟨rfl, hword⟩ := decodeRow_sound hrow
  refine ⟨rfl, hi, ?_⟩
  rw [isLong_opcode hi]
  rcases hword with hn | ⟨hs, -⟩
  · simp [hn]
  · simp [hs]

/-- Bytes that decode to an instruction begin with its encoding, and the configuration accepts it. -/
theorem encode_of_decode {c : Config} {bs rest : List Byte} {i : Instr} (h : decode c bs = .ok i rest) :
    i.WellFormed c ∧ bs = i.encode ++ rest := by
  unfold decode at h
  split at h
  next b0 b1 tail =>
    dsimp only at h
    split at h
    next hl =>
      split at h
      next b2 b3 tail' =>
        split at h <;> cases h
        next hd =>
          obtain ⟨hop, hi, hword⟩ := decodedWordIsTheInstructionsOpcode c _ _ i hd
          rw [if_pos hl] at hword
          exact ⟨hi, by simp [Instr.encode_of_long hword, hop]⟩
      next => cases h
    next hl =>
      split at h <;> cases h
      next hd =>
        obtain ⟨hop, hi, hword⟩ := decodedWordIsTheInstructionsOpcode c _ _ i hd
        rw [if_neg hl] at hword
        exact ⟨hi, by simp [Instr.encode_of_short hword, hop]⟩
  next => cases h

/-! ### Illegal words -/

/-- The opcode of an accepted instruction is legal whatever word follows, which can only change the operand. -/
theorem exists_decodeWords_opcode {c : Config} {i : Instr} (hi : i.WellFormed c) (w : Word) :
    ∃ j, decodeWords c i.opcode w = some j := by
  rcases i.long_or_short with ⟨k, rfl⟩ | hn
  · exact ⟨_, decodeWords_opcode (i := .ldILong w) hi w (by simp [Instr.operandWord])⟩
  · exact ⟨i, decodeWords_opcode hi w (by simp [hn])⟩

/-- Settles O3: an accepted opcode is decoded, and a decoded word is an accepted opcode. -/
theorem illegalWordIsOneNoRowAccepts : Obligations.IllegalWordIsOneNoRowAccepts := by
  unfold Obligations.IllegalWordIsOneNoRowAccepts
  intro c op operand
  constructor
  · rintro hnone i hi rfl
    obtain ⟨j, hj⟩ := exists_decodeWords_opcode hi operand
    cases hnone.symm.trans hj
  · intro hno
    refine Option.eq_none_iff_forall_ne_some.2 fun i hd => ?_
    obtain ⟨hop, hi, -⟩ := decodedWordIsTheInstructionsOpcode c op operand i hd
    exact hno i hi hop

/-! ### The gates -/

section Gates
variable {c : Config}

theorem Config.extSchip_iff : c.extSchip = true ↔ c.mode ≠ .chip8 := by
  cases hm : c.mode <;> simp [Config.extSchip, hm]

theorem Config.extXo_iff : c.extXo = true ↔ c.mode = .xochip := by
  cases hm : c.mode <;> simp [Config.extXo, hm]

/-- The gate of EXIT and LD HF (R97, R103, R106). -/
theorem Config.schipExtras_iff : (c.extSchip && c.extras) = true ↔ c.mode ≠ .chip8 ∧ c.extras = true := by
  rw [Bool.and_eq_true, extSchip_iff]

/-- The gate of SCU (R97, R106). -/
theorem Config.xoExtras_iff : (c.extXo && c.extras) = true ↔ c.mode = .xochip ∧ c.extras = true := by
  rw [Bool.and_eq_true, extXo_iff]

/-- The gate of SCR and SCL (R97, R106). -/
theorem Config.xoOrSchipExtras_iff :
    (c.extXo || (c.extSchip && c.extras)) = true ↔ c.mode = .xochip ∨ (c.mode = .schip ∧ c.extras = true) := by
  cases hm : c.mode <;> simp [Config.extXo, Config.extSchip, hm]

/-- The gate of LD R and the load from R (R103). -/
theorem Config.rplSlot_iff {x : Nibble} :
    (c.extSchip && decide (x.toNat < c.rplCount.val)) = true ↔ c.mode ≠ .chip8 ∧ x.toNat < c.rplCount.val := by
  rw [Bool.and_eq_true, extSchip_iff, decide_eq_true_iff]

/-- The word of a gated row of one word, whatever word follows. -/
theorem decodeWords_gated {i : Instr} {w : Word} {p : Prop} [Decidable p] (hn : i.operandWord = none)
    (hp : i.accepted c = true ↔ p) : decodeWords c i.opcode w = if p then some i else none :=
  decodeWords_opcode_gate hp (by simp [hn])

/-- The table reads FN01 for N ≤ 3 alone (R103, R240). -/
theorem decodeRow_plane (n : Nibble) (w : Word) :
    decodeRow (0xF#4 ++ n ++ 0x01#8) w = if n.toNat ≤ 3 then some (.plane (BitVec.ofNat 2 n.toNat)) else none := by
  simp only [decodeRow, fieldF_xnn, decodeFamilyF, fieldNN_xnn, decodePlane, fieldX_xnn]
  rfl

/-- FN01 has a gate on its operand beside the one on the mode (R103, R240). -/
theorem decodeWords_plane (n : Nibble) (w : Word) :
    decodeWords c (0xF#4 ++ n ++ 0x01#8) w =
      if c.mode = .xochip ∧ n.toNat ≤ 3 then some (.plane (BitVec.ofNat 2 n.toNat)) else none := by
  unfold decodeWords
  rw [decodeRow_plane]
  by_cases hn : n.toNat ≤ 3
  · simp [hn, Instr.accepted, Config.extXo_iff]
  · simp [hn]

end Gates

/-- Settles O4: what is decoded is accepted, and the word of a row is read as that row where it is accepted; the gate of each
row is then the condition on the mode, the extras and the operand. -/
theorem gatedInstructionsNeedTheirMode : Obligations.GatedInstructionsNeedTheirMode := by
  unfold Obligations.GatedInstructionsNeedTheirMode
  refine ⟨fun c op operand i h => ?_, fun c w x y n => ?_⟩
  · obtain ⟨hi, -⟩ := decodeWords_eq_some h
    refine ⟨?_, ?_, ?_, ?_, ?_, ?_⟩
    · rintro (⟨n, rfl⟩ | rfl | rfl) <;> exact Config.extSchip_iff.1 hi
    · rintro (rfl | ⟨x, rfl⟩) <;> exact Config.schipExtras_iff.1 hi
    · rintro x (rfl | rfl) <;> exact Config.rplSlot_iff.1 hi
    · rintro (rfl | rfl) <;> exact Config.xoOrSchipExtras_iff.1 hi
    · rintro ⟨n, rfl⟩; exact Config.xoExtras_iff.1 hi
    · rintro (⟨x, y, rfl | rfl⟩ | ⟨w, rfl⟩ | ⟨n, rfl⟩ | rfl | ⟨x, rfl⟩) <;> exact Config.extXo_iff.1 hi
  · exact ⟨decodeWords_gated (i := .scd n) rfl Config.extSchip_iff,
      decodeWords_gated (i := .low) rfl Config.extSchip_iff,
      decodeWords_gated (i := .high) rfl Config.extSchip_iff,
      decodeWords_gated (i := .exit) rfl Config.schipExtras_iff,
      decodeWords_gated (i := .ldHf x) rfl Config.schipExtras_iff,
      decodeWords_gated (i := .saveRpl x) rfl Config.rplSlot_iff,
      decodeWords_gated (i := .loadRpl x) rfl Config.rplSlot_iff,
      decodeWords_gated (i := .scr) rfl Config.xoOrSchipExtras_iff,
      decodeWords_gated (i := .scl) rfl Config.xoOrSchipExtras_iff,
      decodeWords_gated (i := .scu n) rfl Config.xoExtras_iff,
      decodeWords_gated (i := .saveRange x y) rfl Config.extXo_iff,
      decodeWords_gated (i := .loadRange x y) rfl Config.extXo_iff,
      decodeWords_opcode_gate (i := .ldILong w) Config.extXo_iff (by simp [Instr.operandWord]),
      decodeWords_plane n w,
      decodeWords_gated (i := .audio) rfl Config.extXo_iff,
      decodeWords_gated (i := .pitch x) rfl Config.extXo_iff⟩

/-- Settles O5: ten closed words, each evaluated. -/
theorem sampleWordsDecode : Obligations.SampleWordsDecode := by
  unfold Obligations.SampleWordsDecode
  decide

end Sys2Proof

namespace Sys2Proof.Machine
/-! A step of a running engine on the bytes at PC: an illegal word, and an instruction (R95, R104). -/

/-- Settles O8: such a word is refused by the decoder, and it is not the first word of a long load. -/
theorem unacceptedWordHalts : Obligations.UnacceptedWordHalts := by
  unfold Obligations.UnacceptedWordHalts
  intro s hs hpc hno
  have hshort : isLong s.cfg (s.mem.readWord s.pc.toNat) = false := by
    rw [← Bool.not_eq_true, isLong_iff]
    rintro ⟨hx, hword⟩
    exact hno (.ldILong 0) hx hword.symm
  have hnone : decodeWords s.cfg (s.mem.readWord s.pc.toNat) 0 = none :=
    (illegalWordIsOneNoRowAccepts s.cfg _ 0).2 hno
  exact step_of_halt hs ((State.fetch_short hpc hshort).trans (State.dispatch_none hnone))

/-- The first word of a longer run of bytes, and the bytes after it. -/
theorem Memory.readWord_of_readBytes {m : Memory} {a n : Nat} {w : Word} {bs : List Byte}
    (h : m.readBytes a (n + 2) = bytesOf w ++ bs) : m.readWord a = w ∧ m.readBytes (a + 2) n = bs := by
  simp only [Memory.readBytes, bytesOf, List.cons_append, List.nil_append, List.cons.injEq] at h
  obtain ⟨hhi, hlo, hrest⟩ := h
  exact ⟨by rw [Memory.readWord, hhi, hlo, wordOf_bytes], hrest⟩

/-- The fetch answers the accepted instruction whose bytes lie at PC, with PC past them (R95). -/
theorem State.fetch_of_encode {s : State} {i : Instr} (hi : i.WellFormed s.cfg)
    (hpc : s.pc.toNat + i.length ≤ s.cfg.memSize) (hb : s.mem.readBytes s.pc.toNat i.length = i.encode) :
    s.fetch = .run i { s with pc := s.pc + BitVec.ofNat 16 i.length } := by
  have hl := isLong_opcode hi
  rcases i.long_or_short with ⟨k, rfl⟩ | hn
  · obtain ⟨hop, hrest⟩ := Memory.readWord_of_readBytes (n := 2) hb
    obtain ⟨hk, -⟩ := Memory.readWord_of_readBytes (n := 0) (bs := []) (by simpa using hrest)
    rw [State.fetch_long hpc (hop ▸ hl), hk]
    rfl
  · rw [Instr.length_of_short hn] at hpc hb ⊢
    rw [Instr.encode_of_short hn] at hb
    obtain ⟨hop, -⟩ := Memory.readWord_of_readBytes (n := 0) (bs := []) (by simpa using hb)
    rw [hn] at hl
    rw [State.fetch_short (by omega) (hop ▸ hl), hop]
    exact State.dispatch_some (decodeWords_opcode hi 0 (by simp [hn]))

/-- Settles O6: bytes that decode to an instruction are its encoding, which is what the fetch reads. -/
theorem stepRunsTheDecodedInstruction : Obligations.StepRunsTheDecodedInstruction := by
  unfold Obligations.StepRunsTheDecodedInstruction
  intro s i hs hpc hd
  obtain ⟨hi, hb⟩ := encode_of_decode hd
  rw [List.append_nil] at hb
  exact step_of_run hs (State.fetch_of_encode hi hpc hb)

end Sys2Proof.Machine

namespace Sys2Proof
/-! Control flow: jumps, calls and returns, skips, and CLS (R120–R129, R161, R196, R197). -/

/-- The word of an accepted row of one word is read as that row, whatever word follows. -/
theorem decodeWords_of_short {c : Config} {i : Instr} (hi : i.WellFormed c) (hn : i.operandWord = none) (w : Word) :
    decodeWords c i.opcode w = some i :=
  decodeWords_opcode hi w (by simp [hn])

end Sys2Proof

namespace Sys2Proof.Machine

/-! ### Jumps -/

/-- `NNN` as an address keeps its value (R96). -/
@[simp] theorem toNat_addr16 (nnn : Addr12) : (addr16 nnn).toNat = nnn.toNat :=
  BitVec.toNat_setWidth_of_le (by decide)

/-- A register added to an address keeps its value (R7). -/
@[simp] theorem toNat_byte16 (b : Byte) : (byte16 b).toNat = b.toNat :=
  BitVec.toNat_setWidth_of_le (by decide)

/-- The top nibble of NNN, which names the offset register under `jump_vx` (R161). -/
theorem top_nibble_eq (nnn : Addr12) : nnn.extractLsb' 8 4 = BitVec.ofNat 4 (nnn.toNat / 256) := by
  simp [BitVec.extractLsb', Nat.shiftRight_eq_div_pow]

/-- The value of the offset register of BNNN (R161). -/
theorem State.toNat_jumpOffset (s : State) (nnn : Addr12) :
    (s.jumpOffset nnn).toNat =
      if s.cfg.quirks.jumpVx = true then (s.getV (BitVec.ofNat 4 (nnn.toNat / 256))).toNat else (s.getV 0).toNat := by
  rw [State.jumpOffset, top_nibble_eq, apply_ite BitVec.toNat]

/-- Settles O21: each jump writes PC alone, the second one with a sum of 16-bit words. -/
theorem jumpsSetPc : Obligations.JumpsSetPc := by
  unfold Obligations.JumpsSetPc
  intro nnn
  refine ⟨fun c w => ⟨decodeWords_of_short (i := .jp nnn) rfl rfl w, decodeWords_of_short (i := .jpOffset nnn) rfl rfl w⟩,
    fun s => ⟨⟨_, rfl, rfl, toNat_addr16 nnn⟩, _, rfl, rfl, ?_⟩⟩
  rw [← s.toNat_jumpOffset nnn, BitVec.toNat_add, toNat_addr16, toNat_byte16]

/-! ### Calls and returns -/

/-- A call with a free slot pushes PC into it (R125). -/
theorem State.callTo_of_lt {s : State} (h : s.sp.toNat < s.cfg.stackDepth.val) (target : Word) :
    ∃ hk : s.sp.toNat < 16,
      s.callTo target = .next { s with stack := s.stack.set s.sp.toNat s.pc hk, sp := s.sp + 1, pc := target } := by
  rcases s.callTo_cases target with ⟨hfull, -⟩ | ⟨hk, -, e⟩ | ⟨habove, -⟩
  · omega
  · exact ⟨hk, e⟩
  · omega

/-- A call on a full stack overflows it (R125, R265). -/
theorem State.callTo_of_full {s : State} (h : s.sp.toNat = s.cfg.stackDepth.val) (target : Word) :
    s.callTo target = .next (s.raise .stackOverflow (.value s.instrAddr.toNat)) := by
  rcases s.callTo_cases target with ⟨-, e⟩ | ⟨-, hfree, -⟩ | ⟨habove, -⟩
  · exact e
  · omega
  · omega

/-- A return pops the entry below SP (R123). -/
theorem State.returnToCaller_of_entry {s : State} {k : Fin 16} (hk : s.sp.toNat = k.val + 1)
    (h : s.sp.toNat ≤ s.cfg.stackDepth.val) :
    s.returnToCaller = .next { s with pc := s.stack[k], sp := s.sp - 1 } := by
  rcases s.returnToCaller_cases with ⟨hempty, -⟩ | ⟨_, -, -, e⟩ | ⟨-, habove, -⟩
  · omega
  · rw [e]
    simp [hk]
  · omega

/-- A return on an empty stack underflows it (R123, R266). -/
theorem State.returnToCaller_of_empty {s : State} (h : s.sp.toNat = 0) :
    s.returnToCaller = .next (s.raise .stackUnderflow (.value s.instrAddr.toNat)) := by
  rcases s.returnToCaller_cases with ⟨-, e⟩ | ⟨-, hpos, -, -⟩ | ⟨hpos, -, -⟩
  · exact e
  · omega
  · omega

/-- SP after a push within the depth does not wrap (R24, R25). -/
theorem State.toNat_sp_succ {s : State} (h : s.sp.toNat < s.cfg.stackDepth.val) : (s.sp + 1).toNat = s.sp.toNat + 1 := by
  have := s.cfg.stackDepth.isLt
  exact BitVec.toNat_add_of_lt (show s.sp.toNat + 1 < 2 ^ 8 by omega)

/-- Settles O22: the two cases of a call within the depth. -/
theorem callPushesTheReturnAddress : Obligations.CallPushesTheReturnAddress := by
  unfold Obligations.CallPushesTheReturnAddress
  intro nnn
  refine ⟨fun c w => decodeWords_of_short (i := .call nnn) rfl rfl w, fun s => ⟨fun hfree => ?_, fun hfull => ?_⟩⟩
  · obtain ⟨hk, e⟩ := State.callTo_of_lt hfree (addr16 nnn)
    refine ⟨_, e, rfl, toNat_addr16 nnn, State.toNat_sp_succ hfree, fun k => ?_⟩
    simp [Vector.getElem_set, eq_comm]
  · exact State.callTo_of_full hfull (addr16 nnn)

/-- Settles O23: the two cases of a return within the depth. -/
theorem returnPopsTheStack : Obligations.ReturnPopsTheStack := by
  unfold Obligations.ReturnPopsTheStack
  exact ⟨fun c w => decodeWords_of_short (i := .ret) rfl rfl w, fun s =>
    ⟨fun k hk hin => State.returnToCaller_of_entry hk hin, State.returnToCaller_of_empty⟩⟩

/-- Settles O24: the return pops the slot that the call pushed PC into. -/
theorem returnUndoesCall : Obligations.ReturnUndoesCall := by
  unfold Obligations.ReturnUndoesCall
  intro nnn s hfree
  obtain ⟨hk, hcall⟩ := State.callTo_of_lt hfree (addr16 nnn)
  have hsp := State.toNat_sp_succ hfree
  refine ⟨_, _, hcall, State.returnToCaller_of_entry (k := ⟨s.sp.toNat, hk⟩) hsp (by rw [hsp]; exact hfree), ?_, ?_⟩
  · simp
  · intro k hne
    simp [hne.symm]

/-! ### Skips -/

/-- The key that VX names by its low nibble (R195, R196). -/
theorem State.isPressed_lowNibble (s : State) (b : Byte) :
    s.isPressed (lowNibble b) = s.key[b.toNat % 16]'(Nat.mod_lt _ (by decide)) := by
  simp [State.isPressed, lowNibble]

/-- Settles O26: each of the six is a conditional skip on its own condition. -/
theorem skipsStepOverOneInstruction : Obligations.SkipsStepOverOneInstruction := by
  unfold Obligations.SkipsStepOverOneInstruction
  refine ⟨fun x y nn c w => ⟨decodeWords_of_short (i := .seImm x nn) rfl rfl w, decodeWords_of_short (i := .sneImm x nn) rfl rfl w,
    decodeWords_of_short (i := .seReg x y) rfl rfl w, decodeWords_of_short (i := .sneReg x y) rfl rfl w,
    decodeWords_of_short (i := .skp x) rfl rfl w, decodeWords_of_short (i := .sknp x) rfl rfl w⟩, ?_⟩
  rintro s x y nn dist rfl i cond hi
  have hskip : exec i s = .next (s.skipIf cond) := by
    simp only [← State.isPressed_lowNibble, ne_eq, decide_not, List.mem_cons, Prod.mk.injEq, List.not_mem_nil,
      or_false] at hi
    rcases hi with ⟨rfl, rfl⟩ | ⟨rfl, rfl⟩ | ⟨rfl, rfl⟩ | ⟨rfl, rfl⟩ | ⟨rfl, rfl⟩ | ⟨rfl, rfl⟩ <;> rfl
  exact ⟨_, hskip, State.skipIf_frame s cond, State.toNat_skipIf_pc s cond⟩

/-! ### CLS -/

/-- Settles O38: CLS clears each selected plane. -/
theorem clearScreenUnsetsSelectedPlanes : Obligations.ClearScreenUnsetsSelectedPlanes := by
  unfold Obligations.ClearScreenUnsetsSelectedPlanes
  refine ⟨fun c w => decodeWords_of_short (i := .cls) rfl rfl w, fun s => ⟨s.clearScreen, rfl, rfl, fun p y x => ?_⟩⟩
  rw [State.clearScreen_fb, State.pixel_mapSelected, Plane.pixel_clear]
  by_cases hsel : s.selects p = true
  · simp [hsel, FrameBuffer.pixel]
  · simp [hsel]

end Sys2Proof.Machine

namespace Sys2Proof
/-! Register load and arithmetic: the unused words of family 8, and what each instruction leaves in VX and VF (R140–R152). -/

/-! ### The unused words of family 8 -/

/-- Family 8 has no row with N = 8 to D or F (R100, R151). -/
theorem decodeRow_unused_family8 {n : Nibble} (hn : n ∈ [0x8#4, 0x9#4, 0xA#4, 0xB#4, 0xC#4, 0xD#4, 0xF#4])
    (x y : Nibble) (w : Word) : decodeRow (0x8#4 ++ x ++ y ++ n) w = none := by
  have hfamily : decodeRow (0x8#4 ++ x ++ y ++ n) w = decodeFamily8 (0x8#4 ++ x ++ y ++ n) := by simp [decodeRow]
  rw [hfamily, decodeFamily8, fieldN_xyn]
  simp only [List.mem_cons, List.not_mem_nil, or_false] at hn
  rcases hn with rfl | rfl | rfl | rfl | rfl | rfl | rfl <;> rfl

end Sys2Proof

namespace Sys2Proof.Machine

/-- Settles O9: the table has no row for such a word, so no instruction of the configuration has it as its opcode. -/
theorem unusedFamily8WordsAreIllegal : Obligations.UnusedFamily8WordsAreIllegal := by
  unfold Obligations.UnusedFamily8WordsAreIllegal
  intro s x y n hn hs hpc hword
  have hnone : decodeWords s.cfg (0x8#4 ++ x ++ y ++ n) 0 = none := by
    rw [decodeWords, decodeRow_unused_family8 hn]
  rw [← hword] at hnone ⊢
  exact unacceptedWordHalts s hs hpc ((illegalWordIsOneNoRowAccepts s.cfg _ 0).1 hnone)

/-! ### What a write leaves in each register -/

/-- The values of the registers after a result and then the flag (R21). -/
theorem State.toNat_getV_setResultAndFlag (s : State) (x r : Nibble) (b : Byte) (f : Bool) :
    ((s.setResultAndFlag x b f).getV r).toNat =
      if r = 0xF then f.toNat else if r = x then b.toNat else (s.getV r).toNat := by
  have hflag : (if f then (1 : Byte) else 0).toNat = f.toNat := by cases f <;> rfl
  rw [State.getV_setResultAndFlag, apply_ite BitVec.toNat, hflag, apply_ite BitVec.toNat]

/-- The bits of the registers after a logic operation (R143–R145). -/
theorem State.getLsbD_getV_setLogicResult (s : State) (x r : Nibble) (b : Byte) (k : Nat) :
    ((s.setLogicResult x b).getV r).getLsbD k =
      if r = 0xF ∧ s.cfg.quirks.vfReset = true then false
      else if r = x then b.getLsbD k else (s.getV r).getLsbD k := by
  rw [State.getV_setLogicResult, apply_ite (BitVec.getLsbD · k), apply_ite (BitVec.getLsbD · k)]
  simp

/-! ### The flags and results as numbers -/

theorem toNat_carryOut (a b : Byte) : (carryOut a b).toNat = if a.toNat + b.toNat > 255 then 1 else 0 :=
  Bool.cond_decide ..

theorem toNat_notBorrow (a b : Byte) : (notBorrow a b).toNat = if a.toNat ≥ b.toNat then 1 else 0 :=
  Bool.cond_decide ..

theorem toNat_shiftedOutRight (a : Byte) : (shiftedOutRight a).toNat = a.toNat % 2 := by
  rw [shiftedOutRight, BitVec.getLsbD, Nat.toNat_testBit, Nat.pow_zero, Nat.div_one]

/-- The top bit of a byte is its quotient by 128, which is 0 or 1 (R150). -/
theorem toNat_shiftedOutLeft (a : Byte) : (shiftedOutLeft a).toNat = a.toNat / 128 := by
  have := a.isLt
  rw [shiftedOutLeft, BitVec.getLsbD, Nat.toNat_testBit]
  omega

/-- A difference mod 256, with the borrow added to the minuend (R147, R149). -/
theorem toNat_byte_sub (a b : Byte) : (a - b).toNat = (a.toNat + 256 - b.toNat) % 256 := by
  have := b.isLt
  rw [BitVec.toNat_sub]
  omega

theorem toNat_byte_shiftRight_one (a : Byte) : (a >>> 1).toNat = a.toNat / 2 := by
  rw [BitVec.toNat_ushiftRight, Nat.shiftRight_eq_div_pow, Nat.pow_one]

theorem toNat_byte_shiftLeft_one (a : Byte) : (a <<< 1).toNat = a.toNat * 2 % 256 := by
  rw [BitVec.toNat_shiftLeft, Nat.shiftLeft_eq, Nat.pow_one]

theorem State.toNat_shiftSource (s : State) (x y : Nibble) :
    (s.shiftSource x y).toNat = if s.cfg.quirks.shiftVy = true then (s.getV y).toNat else (s.getV x).toNat :=
  apply_ite BitVec.toNat ..

/-! ### The instructions -/

/-- Settles O16: each of the three writes VX alone. -/
theorem loadsAndAddImmediate : Obligations.LoadsAndAddImmediate := by
  unfold Obligations.LoadsAndAddImmediate
  refine ⟨fun x y nn c w => ⟨decodeWords_of_short (i := .ldImm x nn) rfl rfl w,
    decodeWords_of_short (i := .addImm x nn) rfl rfl w, decodeWords_of_short (i := .ldReg x y) rfl rfl w⟩,
    fun s x y nn => ⟨⟨_, rfl, rfl, (s.getV_setV x · nn)⟩, ⟨_, rfl, rfl, fun r => ?_⟩, _, rfl, rfl, (s.getV_setV x · _)⟩⟩
  rw [State.getV_setV, apply_ite BitVec.toNat, BitVec.toNat_add]

/-- Settles O17: each of the three writes its result and then the reset of VF, and is read back bit by bit. -/
theorem logicOperations : Obligations.LogicOperations := by
  unfold Obligations.LogicOperations
  refine ⟨fun x y c w => ⟨decodeWords_of_short (i := .orReg x y) rfl rfl w,
    decodeWords_of_short (i := .andReg x y) rfl rfl w, decodeWords_of_short (i := .xorReg x y) rfl rfl w⟩,
    fun s x y => ⟨⟨_, rfl, s.setLogicResult_frame x _, fun r b => ?_⟩,
      ⟨_, rfl, s.setLogicResult_frame x _, fun r b => ?_⟩, _, rfl, s.setLogicResult_frame x _, fun r b => ?_⟩⟩
  · rw [State.getLsbD_getV_setLogicResult, BitVec.getLsbD_or]
  · rw [State.getLsbD_getV_setLogicResult, BitVec.getLsbD_and]
  · rw [State.getLsbD_getV_setLogicResult, BitVec.getLsbD_xor]

/-- Settles O18: the sum and then its carry. -/
theorem addRegistersSetsCarry : Obligations.AddRegistersSetsCarry := by
  unfold Obligations.AddRegistersSetsCarry
  refine fun x y => ⟨fun c w => decodeWords_of_short (i := .addReg x y) rfl rfl w, fun s => ⟨_, rfl, rfl, fun r => ?_⟩⟩
  rw [State.toNat_getV_setResultAndFlag, toNat_carryOut, BitVec.toNat_add]

/-- Settles O19: each difference and then its NOT borrow. -/
theorem subtractionsSetNotBorrow : Obligations.SubtractionsSetNotBorrow := by
  unfold Obligations.SubtractionsSetNotBorrow
  refine fun x y => ⟨fun c w => ⟨decodeWords_of_short (i := .subReg x y) rfl rfl w,
    decodeWords_of_short (i := .subnReg x y) rfl rfl w⟩, fun s => ⟨⟨_, rfl, rfl, fun r => ?_⟩, _, rfl, rfl, fun r => ?_⟩⟩
  · rw [State.toNat_getV_setResultAndFlag, toNat_notBorrow, toNat_byte_sub]
  · rw [State.toNat_getV_setResultAndFlag, toNat_notBorrow, toNat_byte_sub]

/-- Settles O20: both shift the same source, each by one, and then write the bit that left it. -/
theorem shiftsMoveOneBitOut : Obligations.ShiftsMoveOneBitOut := by
  unfold Obligations.ShiftsMoveOneBitOut
  refine fun x y => ⟨fun c w => ⟨decodeWords_of_short (i := .shr x y) rfl rfl w,
    decodeWords_of_short (i := .shl x y) rfl rfl w⟩, fun s src hsrc => ?_⟩
  rw [← s.toNat_shiftSource x y] at hsrc
  subst hsrc
  refine ⟨⟨_, rfl, rfl, fun r => ?_⟩, _, rfl, rfl, fun r => ?_⟩
  · rw [State.toNat_getV_setResultAndFlag, toNat_shiftedOutRight, toNat_byte_shiftRight_one]
  · rw [State.toNat_getV_setResultAndFlag, toNat_shiftedOutLeft, toNat_byte_shiftLeft_one]

end Sys2Proof.Machine

namespace Sys2Proof.Machine
/-! Memory operations: the loads of I, the random draw, and the register ranges at I (R160–R166, R208, R209, R229, R243). -/

/-! ### The index register -/

@[simp] theorem toNat_lowNibble (b : Byte) : (lowNibble b).toNat = b.toNat % 16 := BitVec.toNat_setWidth ..

theorem State.toNat_glyphAddr (s : State) (x : Nibble) :
    (s.glyphAddr x).toNat = (s.cfg.fontBase.toNat + 5 * ((s.getV x).toNat % 16)) % 65536 := by
  rw [State.glyphAddr, BitVec.toNat_ofNat, toNat_lowNibble]

theorem State.toNat_bigGlyphAddr (s : State) (x : Nibble) :
    (s.bigGlyphAddr x).toNat = (s.cfg.bigFontBase.toNat + 10 * ((s.getV x).toNat % 16)) % 65536 := by
  rw [State.bigGlyphAddr, BitVec.toNat_ofNat, toNat_lowNibble]

/-- Settles O27: each of the five writes I alone, with a 16-bit word of the listed value. -/
theorem indexRegisterLoads : Obligations.IndexRegisterLoads := by
  unfold Obligations.IndexRegisterLoads
  intro s x nnn nnnn i val hi
  simp only [List.mem_cons, Prod.mk.injEq, List.not_mem_nil, or_false] at hi
  rcases hi with ⟨rfl, rfl⟩ | ⟨rfl, rfl⟩ | ⟨rfl, rfl⟩ | ⟨rfl, rfl⟩ | ⟨rfl, rfl⟩
  · exact ⟨_, rfl, rfl, toNat_addr16 nnn⟩
  · exact ⟨_, rfl, rfl, rfl⟩
  · exact ⟨_, rfl, rfl, by rw [BitVec.toNat_add, toNat_byte16]⟩
  · exact ⟨_, rfl, rfl, s.toNat_glyphAddr x⟩
  · exact ⟨_, rfl, rfl, s.toNat_bigGlyphAddr x⟩

/-! ### The random draw -/

/-- Settles O28: the draw is masked before it is written, so a bit of VX is a bit of the draw where NN has one. -/
theorem randomIsAMaskedFreshDraw : Obligations.RandomIsAMaskedFreshDraw := by
  unfold Obligations.RandomIsAMaskedFreshDraw
  refine fun x nn => ⟨fun c w => decodeWords_of_short (i := .rnd x nn) rfl rfl w, fun s => ⟨_, rfl, rfl, fun r hr => ?_, ?_⟩⟩
  · rw [State.getV_setV, if_neg hr]
    rfl
  · rw [State.getV_setV, if_pos rfl]
    exact ⟨fun b => BitVec.getLsbD_and, by rintro rfl; exact BitVec.and_zero⟩

/-! ### The bounds check by the last byte -/

/-- An access whose last byte is in memory does its effect (R61). -/
theorem State.guardRange_of_last_lt {base n : Nat} {s : State} (h : base + n < s.cfg.memSize) (t : State) :
    s.guardRange base (n + 1) t = t :=
  State.guardRange_of_fits fun k hk => by omega

/-- An access whose last byte is outside memory halts at its first address that is not below MEM_SIZE (R61, R163). -/
theorem State.guardRange_of_le_last {base n : Nat} {s : State} (h : s.cfg.memSize ≤ base + n) (t : State) :
    s.guardRange base (n + 1) t = s.raise .addressOutOfRange (.value (max base s.cfg.memSize)) := by
  have hmax : base + (max base s.cfg.memSize - base) = max base s.cfg.memSize := by omega
  rw [State.guardRange_of_out (k := max base s.cfg.memSize - base) (by omega) (by omega) (fun j hj => by omega), hmax]

/-! ### Register ranges -/

/-- The byte where V`r` is stored (R164). -/
theorem State.read_writeBytes_regsUpTo (s : State) (m : Memory) (base : Nat) {x r : Nibble} (hr : r.toNat ≤ x.toNat) :
    (m.writeBytes base (s.regsUpTo x)).read (base + r.toNat) = s.getV r := by
  rw [Memory.read_writeBytes_inside _ _ _ _ (by rw [State.length_regsUpTo]; omega), State.getElem_regsUpTo,
    BitVec.ofNat_toNat, BitVec.setWidth_eq]

/-- Settles O29: the bytes are the registers in order, under the bounds check of X + 1 bytes, and I moves afterwards. -/
theorem storeRegisterRange : Obligations.StoreRegisterRange := by
  unfold Obligations.StoreRegisterRange
  refine fun x => ⟨fun c w => decodeWords_of_short (i := .storeRegs x) rfl rfl w, fun s => ⟨fun hfit => ?_, fun hout => ?_⟩⟩
  · refine ⟨_, congrArg Host.Outcome.next (State.guardRange_of_last_lt hfit _), ?_, fun r hr => ?_, fun a ha => ?_, State.toNat_incIndex_i _ x⟩
    · rw [State.incIndex_frame]
    · rw [State.incIndex_frame]
      exact s.read_writeBytes_regsUpTo s.mem _ hr
    · rw [State.incIndex_frame]
      exact Memory.read_writeBytes_outside _ (by rw [State.length_regsUpTo]; omega)
  · exact congrArg Host.Outcome.next (State.guardRange_of_le_last hout _)

/-- Settles O30: the same bounds check, and then the registers from the bytes in order. -/
theorem loadRegisterRange : Obligations.LoadRegisterRange := by
  unfold Obligations.LoadRegisterRange
  refine fun x => ⟨fun c w => decodeWords_of_short (i := .loadRegs x) rfl rfl w, fun s => ⟨fun hfit => ?_, fun hout => ?_⟩⟩
  · refine ⟨_, congrArg Host.Outcome.next (State.guardRange_of_last_lt hfit _), ?_, fun r => ?_, State.toNat_incIndex_i _ x⟩
    · rw [State.incIndex_frame]
    · rw [State.incIndex_frame]
      exact s.getV_loadUpTo _ x r
  · exact congrArg Host.Outcome.next (State.guardRange_of_le_last hout _)

/-- Settles O35: the load reads the bytes that the store wrote, since the store leaves MEM_SIZE as it is. -/
theorem storedRegistersLoadBack : Obligations.StoredRegistersLoadBack := by
  unfold Obligations.StoredRegistersLoadBack
  intro s t u x v hfit hstore hload r hr
  obtain ⟨-, hstores⟩ := storeRegisterRange x
  obtain ⟨hstored, -⟩ := hstores s
  obtain ⟨t', ht, hframe, hbytes, -⟩ := hstored hfit
  obtain rfl : t = t' := Host.Outcome.next.inj (hstore.symm.trans ht)
  have hcfg : t.cfg = s.cfg := by rw [hframe]
  obtain ⟨-, hloads⟩ := loadRegisterRange x
  obtain ⟨hloaded, -⟩ := hloads { t with i := s.i, v := v }
  obtain ⟨u', hu, -, hregs, -⟩ := hloaded (by rw [hcfg]; exact hfit)
  obtain rfl : u = u' := Host.Outcome.next.inj (hload.symm.trans hu)
  rw [hregs, if_pos hr]
  exact hbytes r hr

end Sys2Proof.Machine

namespace Sys2Proof.Machine
/-! The display: resolution, the scrolls, the draw and the stalls that hold a step (R175–R189, R271, R298). -/

/-! ### Resolution and scrolls -/

/-- Settles O39: both set a resolution, and the framebuffer they leave is blank. -/
theorem resolutionChangeClearsEveryPlane : Obligations.ResolutionChangeClearsEveryPlane := by
  unfold Obligations.ResolutionChangeClearsEveryPlane
  rintro s i r (⟨rfl, rfl⟩ | ⟨rfl, rfl⟩)
  · exact ⟨s.setResolution .low, rfl, rfl, FrameBuffer.pixel_blank⟩
  · exact ⟨s.setResolution .high, rfl, rfl, FrameBuffer.pixel_blank⟩

/-- Every pixel after a scroll (R189). -/
theorem State.pixel_scroll (s : State) (dir : Direction) (n : Nat) (p : PlaneId) (y x : Nat) :
    (s.scroll dir n).fb.pixel p y x =
      if s.selects p = true ∧ y < s.res.height ∧ x < s.res.width then
        (s.fb.plane p).scrollSource s.res.width s.res.height dir n y x
      else s.fb.pixel p y x := by
  rw [State.scroll, State.pixel_mapSelected, Plane.pixel_scroll _ _ _ _ _ _ _ s.res.height_le.2 s.res.width_le.2]
  by_cases hsel : s.selects p = true
  · simp [hsel, FrameBuffer.pixel]
  · simp [hsel]

/-- Settles O40: each of the four is the scroll of its direction, whose source pixel is the one the statement names. -/
theorem scrollsMoveSelectedPlanes : Obligations.ScrollsMoveSelectedPlanes := by
  unfold Obligations.ScrollsMoveSelectedPlanes
  exact fun s n => ⟨⟨_, rfl, rfl, s.pixel_scroll .down n.toNat⟩, ⟨_, rfl, rfl, s.pixel_scroll .up n.toNat⟩,
    ⟨_, rfl, rfl, s.pixel_scroll .right 4⟩, ⟨_, rfl, rfl, s.pixel_scroll .left 4⟩⟩

/-! ### The draw, by the pixels its sprite covers -/

/-- A draw whose sprite bytes are in memory is the blit (R181). -/
theorem exec_drw_of_fits {s : State} {n : Nibble} (hfit : SpriteFits s n) (x y : Nibble) :
    exec (.drw x y n) s = .next (s.blit x y n) := by
  refine congrArg Host.Outcome.next (State.guardRange_of_fits fun k hk => ?_)
  rw [State.spriteTotal_eq] at hk
  rcases hfit with hzero | hend <;> omega

section Blit
variable {s : State} {x y n : Nibble}

theorem State.pixel_blit_of_covers {p : PlaneId} {py px : Nat} (h : SpriteCovers s x y n p py px) :
    (s.blit x y n).fb.pixel p py px = !s.fb.pixel p py px := by
  rw [State.pixel_blit, decide_eq_true (State.mem_spritePixels.2 h), Bool.xor_true]

theorem State.pixel_blit_of_not_covers {p : PlaneId} {py px : Nat} (h : ¬ SpriteCovers s x y n p py px) :
    (s.blit x y n).fb.pixel p py px = s.fb.pixel p py px := by
  rw [State.pixel_blit, decide_eq_false (mt State.mem_spritePixels.1 h), Bool.xor_false]

/-- A sprite that covers nothing leaves the framebuffer as it is. -/
theorem State.fb_blit_of_covers_nothing (h : ∀ p py px, ¬ SpriteCovers s x y n p py px) :
    (s.blit x y n).fb = s.fb :=
  FrameBuffer.ext_pixel fun p py px => State.pixel_blit_of_not_covers (h p py px)

/-- VF is 1 after a draw that turned off a lit pixel (R177). -/
theorem State.flag_blit_of_hit (h : ∃ p py px, SpriteCovers s x y n p py px ∧ s.fb.pixel p py px = true) :
    (s.blit x y n).getV 0xF = 1 := by
  obtain ⟨p, py, px, hcov, hlit⟩ := h
  rw [State.getV_blit, if_pos rfl, if_pos ⟨⟨p, py, px⟩, State.mem_spritePixels.2 hcov, hlit⟩]

/-- VF is 0 after a draw that turned off no pixel (R177). -/
theorem State.flag_blit_of_no_hit (h : ∀ p py px, SpriteCovers s x y n p py px → s.fb.pixel p py px = false) :
    (s.blit x y n).getV 0xF = 0 := by
  rw [State.getV_blit, if_pos rfl, if_neg]
  rintro ⟨⟨p, py, px⟩, hmem, hlit⟩
  exact Bool.false_ne_true ((h p py px (State.mem_spritePixels.1 hmem)).symm.trans hlit)

theorem State.flag_blit_eq_one_iff :
    (s.blit x y n).getV 0xF = 1 ↔ ∃ p py px, SpriteCovers s x y n p py px ∧ s.fb.pixel p py px = true := by
  refine ⟨fun hone => ?_, State.flag_blit_of_hit⟩
  by_contra hno
  have hzero : (s.blit x y n).getV 0xF = 0 := State.flag_blit_of_no_hit fun p py px hcov =>
    Bool.eq_false_iff.2 fun hlit => hno ⟨p, py, px, hcov, hlit⟩
  exact absurd (hone.symm.trans hzero) (by decide)

/-- VF is a bit after a draw (R177). -/
theorem State.flag_blit_eq_one_or_zero : (s.blit x y n).getV 0xF = 1 ∨ (s.blit x y n).getV 0xF = 0 := by
  rw [State.getV_blit, if_pos rfl]
  exact ite_eq_or_eq ..

/-- A draw writes no register but VF (R177). -/
theorem State.getV_blit_of_ne {r : Nibble} (hr : r ≠ 0xF) : (s.blit x y n).getV r = s.getV r := by
  rw [State.getV_blit, if_neg hr]

end Blit

/-- Settles O41: the draw is the blit, which toggles the covered pixels once each. -/
theorem drawInvertsTheCoveredPixels : Obligations.DrawInvertsTheCoveredPixels := by
  unfold Obligations.DrawInvertsTheCoveredPixels
  exact fun s x y n hfit => ⟨s.blit x y n, exec_drw_of_fits hfit x y, s.blit_frame x y n,
    fun _ _ _ => State.pixel_blit_of_covers, fun _ _ _ => State.pixel_blit_of_not_covers, State.flag_blit_of_hit,
    State.flag_blit_of_no_hit, fun _ => State.getV_blit_of_ne, s.blit_status x y n⟩

/-! ### A draw of nothing -/

section DrawsNothing
variable {s : State} {n : Nibble}
  (h : (s.selects .plane1 = false ∧ s.selects .plane2 = false) ∨ (s.cfg.mode = .chip8 ∧ n = 0))
include h

/-- With no plane selected, or no rows, a draw reads no byte (R179, R181). -/
theorem spriteFits_of_draws_nothing : SpriteFits s n := by
  left
  rcases h with ⟨h1, h2⟩ | ⟨hmode, rfl⟩
  · simp [spriteData, h1, h2]
  · simp [spriteData, spriteBlock, spriteHeight, hmode]

/-- With no plane selected, or no rows, a sprite covers no pixel (R179, R180). -/
theorem not_spriteCovers_of_draws_nothing (x y : Nibble) (p : PlaneId) (py px : Nat) :
    ¬ SpriteCovers s x y n p py px := by
  rintro ⟨hsel, -, -, r, hr, -⟩
  rcases h with ⟨h1, h2⟩ | ⟨hmode, rfl⟩
  · cases p
    · exact Bool.false_ne_true (h1.symm.trans hsel)
    · exact Bool.false_ne_true (h2.symm.trans hsel)
  · simp [spriteHeight, hmode] at hr

end DrawsNothing

/-- Settles O43: such a draw passes the bounds check, and its blit covers no pixel. -/
theorem drawOfNothingCannotFault : Obligations.DrawOfNothingCannotFault := by
  unfold Obligations.DrawOfNothingCannotFault
  intro s x y n hnothing
  have hcov := not_spriteCovers_of_draws_nothing hnothing x y
  refine ⟨s.blit x y n, exec_drw_of_fits (spriteFits_of_draws_nothing hnothing) x y, ?_, fun r => ?_⟩
  · rw [← State.blit_status s x y n]
    conv_lhs => rw [State.blit_frame, State.fb_blit_of_covers_nothing hcov]
  · split
    next hr => exact hr ▸ State.flag_blit_of_no_hit fun p py px h => absurd h (hcov p py px)
    next hr => exact State.getV_blit_of_ne hr

/-! ### Two identical draws -/

/-- What a draw reads apart from the framebuffer is the same in `s` and `t` (R182). -/
structure State.SameSprite (s t : State) (x y : Nibble) : Prop where
  cfg_eq : t.cfg = s.cfg
  vx_eq : t.getV x = s.getV x
  vy_eq : t.getV y = s.getV y
  i_eq : t.i = s.i
  mem_eq : t.mem = s.mem
  res_eq : t.res = s.res
  planeMask_eq : t.planeMask = s.planeMask

section SameSprite
variable {s t : State} {x y : Nibble} (h : s.SameSprite t x y)
include h

theorem State.SameSprite.selects_eq (p : PlaneId) : t.selects p = s.selects p := by
  simp only [State.selects, h.cfg_eq, h.planeMask_eq]

theorem State.SameSprite.fits {n : Nibble} (hfit : SpriteFits s n) : SpriteFits t n := by
  simpa only [SpriteFits, spriteData, h.selects_eq, h.cfg_eq, h.i_eq] using hfit

theorem State.SameSprite.covers_iff (n : Nibble) (p : PlaneId) (py px : Nat) :
    SpriteCovers t x y n p py px ↔ SpriteCovers s x y n p py px := by
  simp only [SpriteCovers, spriteHas, spriteBase, h.selects_eq, h.cfg_eq, h.vx_eq, h.vy_eq, h.i_eq, h.mem_eq, h.res_eq]

end SameSprite

/-- A state that agrees with the one after a draw on what a draw reads agrees with the one before it: the draw wrote VF
alone, which is neither VX nor VY. -/
theorem State.sameSprite_of_blit {s t : State} {x y n : Nibble} (hx : x ≠ 0xF) (hy : y ≠ 0xF)
    (h : (s.blit x y n).SameSprite t x y) : s.SameSprite t x y := by
  obtain ⟨hcfg, hvx, hvy, hi, hmem, hres, hmask⟩ := h
  rw [State.getV_blit_of_ne hx] at hvx
  rw [State.getV_blit_of_ne hy] at hvy
  rw [State.blit_frame] at hcfg hi hmem hres hmask
  exact ⟨hcfg, hvx, hvy, hi, hmem, hres, hmask⟩

/-- Settles O42: the second sprite covers the pixels of the first, so it inverts them back and hits those the first lit. -/
theorem drawingTwiceRestoresTheFramebuffer : Obligations.DrawingTwiceRestoresTheFramebuffer := by
  unfold Obligations.DrawingTwiceRestoresTheFramebuffer
  intro s t t' u x y n hx hy hfit hfirst hcfg hv hi hmem hres hmask hfb hsecond
  obtain rfl : s.blit x y n = t := Host.Outcome.next.inj ((exec_drw_of_fits hfit x y).symm.trans hfirst)
  have hsame : s.SameSprite t' x y := State.sameSprite_of_blit hx hy
    ⟨hcfg, by simp only [State.getV, hv], by simp only [State.getV, hv], hi, hmem, hres, hmask⟩
  obtain rfl : t'.blit x y n = u :=
    Host.Outcome.next.inj ((exec_drw_of_fits (hsame.fits hfit) x y).symm.trans hsecond)
  refine ⟨FrameBuffer.ext_pixel fun p py px => ?_, ?_, State.flag_blit_eq_one_or_zero⟩
  · by_cases hcov : SpriteCovers s x y n p py px
    · rw [State.pixel_blit_of_covers ((hsame.covers_iff ..).2 hcov), hfb, State.pixel_blit_of_covers hcov, Bool.not_not]
    · rw [State.pixel_blit_of_not_covers (mt (hsame.covers_iff ..).1 hcov), hfb, State.pixel_blit_of_not_covers hcov]
  · rw [State.flag_blit_eq_one_iff]
    refine exists₃_congr fun p py px => ?_
    rw [hsame.covers_iff, hfb]
    exact and_congr_right fun hcov => by rw [State.pixel_blit_of_covers hcov, Bool.not_eq_true']

/-! ### The stalls -/

/-- Settles O10: a stalled step answers its own state, and the refresh is a conditional write of STATUS. -/
theorem stalledStepsChangeNothing : Obligations.StalledStepsChangeNothing := by
  unfold Obligations.StalledStepsChangeNothing
  exact fun s => ⟨fun hs => ⟨step_of_vblankWait hs, by simp only [State.stepResult, hs]⟩,
    fun hs => ⟨step_of_halted hs, by simp only [State.stepResult, hs]⟩, fun hs => if_pos hs, fun hs => if_neg hs⟩

end Sys2Proof.Machine

namespace Sys2Proof.Machine
/-! The keypad: the key wait begins at FX0A, key events arm and latch, and a step polls the latch (R199–R204). -/

/-! ### The poll of the latch -/

/-- The key wait with no key latched yet: what a key event acts on, and a step leaves alone (R200, R203). -/
abbrev State.AwaitsKey (s : State) : Prop := s.status = .keyWait ∧ s.kwLatch = none

theorem State.keyWaitStep_of_latched {s : State} {k : Nibble} (h : s.kwLatch = some k) :
    s.keyWaitStep =
      { s.setV s.kwX (k.setWidth 8) with pc := s.pc + 2, kwLatch := none, kwArmed := 0, status := .run } := by
  simp only [State.keyWaitStep, h]

theorem State.keyWaitStep_of_no_latch {s : State} (h : s.kwLatch = none) : s.keyWaitStep = s := by
  simp only [State.keyWaitStep, h]

theorem step_of_awaitsKey {s : State} (h : s.AwaitsKey) : step s = .next s := by
  rw [step_of_keyWait h.1, State.keyWaitStep_of_no_latch h.2]

/-- The registers after a key is written to VX: the key number is a byte below 16 (R200). -/
theorem State.toNat_getV_setV_key (s : State) (x k r : Nibble) :
    ((s.setV x (k.setWidth 8)).getV r).toNat = if r = x then k.toNat else (s.getV r).toNat := by
  rw [State.getV_setV, apply_ite BitVec.toNat, BitVec.toNat_setWidth_of_le (by decide)]

/-- Settles O11: the step is the poll, by the two cases of the latch. -/
theorem keyWaitStepPollsTheLatch : Obligations.KeyWaitStepPollsTheLatch := by
  unfold Obligations.KeyWaitStepPollsTheLatch
  refine fun s hs => ⟨fun k hk => ⟨s.keyWaitStep, step_of_keyWait hs, ?_⟩,
    fun hnone => ⟨step_of_awaitsKey ⟨hs, hnone⟩, by simp only [State.stepResult, hs]⟩⟩
  rw [State.keyWaitStep_of_latched hk]
  exact ⟨rfl, rfl, s.toNat_getV_setV_key s.kwX k⟩

/-! ### The beginning of the wait -/

/-- FX0A answers in every state (R202). -/
theorem exec_ldVxK (x : Nibble) (s : State) : exec (.ldVxK x) s =
    .next { s with kwX := x, kwArmed := 0, kwLatch := none, pc := s.instrAddr, status := .keyWait } := rfl

/-- PC is 2 past the instruction that executes (R95). -/
theorem State.instrAddr_add_two (s : State) : s.instrAddr + 2 = s.pc := BitVec.sub_add_cancel s.pc 2

/-- Settles O44: the row has no gate, and the instruction is one update that leaves PC 2 below the fetched one. -/
theorem keyWaitBeginsAtTheInstruction : Obligations.KeyWaitBeginsAtTheInstruction := by
  unfold Obligations.KeyWaitBeginsAtTheInstruction
  exact fun x => ⟨fun c w => decodeWords_of_short (i := .ldVxK x) rfl rfl w,
    fun s => ⟨_, exec_ldVxK x s, rfl, s.instrAddr_add_two, rfl⟩⟩

/-! ### Key events -/

section KeyEvents
variable {s : State} (k : Nibble)

/-- A press during the wait arms the key (R203). -/
theorem State.setKeyState_press (h : s.AwaitsKey) : s.setKeyState k true =
    { s with key := s.key.set k.toNat true k.isLt, kwArmed := s.kwArmed ||| BitVec.twoPow 16 k.toNat } :=
  if_pos h

/-- A release during the wait latches the key if it is armed (R203). -/
theorem State.setKeyState_release (h : s.AwaitsKey) : s.setKeyState k false =
    { s with
      key := s.key.set k.toNat false k.isLt
      kwLatch := if s.kwArmed.getLsbD k.toNat = true then some k else none } := by
  refine (if_pos h).trans ?_
  by_cases harmed : s.kwArmed.getLsbD k.toNat = true
  · simp [harmed]
  · simp [harmed, h.2]

/-- Every key event outside the wait, or after a key is latched, writes `KEY[k]` alone (R203). -/
theorem State.setKeyState_of_not_awaitsKey (h : ¬ s.AwaitsKey) (pressed : Bool) :
    s.setKeyState k pressed = { s with key := s.key.set k.toNat pressed k.isLt } :=
  if_neg h

theorem State.setKeyState_key (s : State) (pressed : Bool) :
    (s.setKeyState k pressed).key = s.key.set k.toNat pressed k.isLt := by
  by_cases h : s.AwaitsKey
  · cases pressed with
    | true => rw [State.setKeyState_press k h]
    | false => rw [State.setKeyState_release k h]
  · rw [State.setKeyState_of_not_awaitsKey k h]

end KeyEvents

/-- Arming a key sets its bit and keeps the others (R203). -/
theorem getLsbD_armed (armed : BitVec 16) (k : Nibble) {b : Nat} (hb : b < 16) :
    (armed ||| BitVec.twoPow 16 k.toNat).getLsbD b = (armed.getLsbD b || decide (b = k.toNat)) := by
  simp [hb]

/-- Settles O45: the key is written in every state; its part in the wait is one equation for a press, one for a release and
one for the states with no key awaited. -/
theorem keyEventsArmAndLatch : Obligations.KeyEventsArmAndLatch := by
  unfold Obligations.KeyEventsArmAndLatch
  rintro s _ k pressed rfl
  refine ⟨s.setKeyState_frame k pressed, fun j => ?_, ?_, ?_, fun h => ?_⟩
  · simp only [State.setKeyState_key, Fin.getElem_fin, Vector.getElem_set, eq_comm]
  · rintro h rfl
    rw [State.setKeyState_press k h]
    exact ⟨h.2, fun b => getLsbD_armed s.kwArmed k⟩
  · rintro h rfl
    rw [State.setKeyState_release k h]
    exact ⟨rfl, rfl⟩
  · rw [State.setKeyState_of_not_awaitsKey k h]
    exact ⟨rfl, rfl⟩

/-! ### A whole wait -/

/-- A host event and then a step, which answers `u`, at the head of a run (R296). -/
theorem runTransitions_event_step {s u : State} (e : HostEvent) (ts : List Transition)
    (h : step (s.applyEvent e) = .next u) :
    runTransitions (.event e :: .step :: ts) s = runTransitions ts u :=
  (runTransitions_cons_of_next rfl).trans (runTransitions_cons_of_next (t := .step) h)

section Wait
variable {s : State} (h : s.AwaitsKey)
include h

/-- Without a key event the wait goes on unchanged (R200). -/
theorem runTransitions_steps_of_awaitsKey (n : Nat) : runTransitions (List.replicate n .step) s = .next s := by
  induction n with
  | zero => rfl
  | succ n ih => exact (runTransitions_cons_of_next (t := .step) (step_of_awaitsKey h)).trans ih

/-- A press does not end the wait (R203). -/
theorem State.AwaitsKey.press (k : Nibble) : (s.setKeyState k true).AwaitsKey := by
  rw [State.setKeyState_press k h]
  exact h

/-- The release of a key not armed does not end the wait (R203). -/
theorem State.AwaitsKey.release_unarmed {k : Nibble} (hk : s.kwArmed.getLsbD k.toNat = false) :
    (s.setKeyState k false).AwaitsKey := by
  rw [State.setKeyState_release k h]
  exact ⟨h.1, by simp [hk]⟩

/-- The press and then the release of a key latch it (R203). -/
theorem State.setKeyState_press_release (k : Nibble) : (s.setKeyState k true).setKeyState k false =
    { s with
      key := (s.key.set k.toNat true k.isLt).set k.toNat false k.isLt
      kwArmed := s.kwArmed ||| BitVec.twoPow 16 k.toNat
      kwLatch := some k } := by
  have harmed : (s.kwArmed ||| BitVec.twoPow 16 k.toNat).getLsbD k.toNat = true := by
    rw [getLsbD_armed s.kwArmed k k.isLt, decide_eq_true rfl, Bool.or_true]
  rw [State.setKeyState_release k (h.press k), State.setKeyState_press k h]
  simp only [harmed, if_true]

/-- The press and the release of a key, with a step after each, end the wait with that key in the register that FX0A noted
(R200, R203): the first step finds no latch, the second is a step of O11. -/
theorem runTransitions_press_release (k : Nibble) :
    ∃ u, runTransitions [.event (.setKeyState k true), .step, .event (.setKeyState k false), .step] s = .next u ∧
      u.status = .run ∧ u.pc = s.pc + 2 ∧ ∀ r, (u.getV r).toNat = if r = s.kwX then k.toNat else (s.getV r).toNat := by
  have hlatched := State.setKeyState_press_release h k
  obtain ⟨u, hstep, -, hu, hregs⟩ := (keyWaitStepPollsTheLatch ((s.setKeyState k true).setKeyState k false)
    (by rw [hlatched]; exact h.1)).1 k (by rw [hlatched])
  have hpc := congrArg State.pc hu
  rw [hlatched] at hpc hregs
  refine ⟨u, ?_, congrArg State.status hu, hpc, hregs⟩
  rw [runTransitions_event_step (.setKeyState k true) _ (step_of_awaitsKey (h.press k))]
  exact runTransitions_event_step (.setKeyState k false) [] hstep

end Wait

/-- Settles O46: FX0A leaves a wait with no key armed, in which a step and the release of a key change no part of the wait;
the press and release of a key end it, at the address 2 past the one the wait began at. -/
theorem pressThenReleaseEndsTheKeyWait : Obligations.PressThenReleaseEndsTheKeyWait := by
  unfold Obligations.PressThenReleaseEndsTheKeyWait
  intro s t x k n ht
  obtain rfl := Host.Outcome.next.inj ((exec_ldVxK x s).symm.trans ht)
  have hwait : State.AwaitsKey
      { s with kwX := x, kwArmed := 0, kwLatch := none, pc := s.instrAddr, status := .keyWait } := ⟨rfl, rfl⟩
  obtain ⟨u, hrun, hstatus, hpc, hregs⟩ := runTransitions_press_release hwait k
  exact ⟨runTransitions_steps_of_awaitsKey hwait n,
    runTransitions_event_step (.setKeyState k false) [] (step_of_awaitsKey (hwait.release_unarmed BitVec.getLsbD_zero)),
    u, hrun, hstatus, hpc.trans s.instrAddr_add_two, hregs⟩

end Sys2Proof.Machine

namespace Sys2Proof.Machine
/-! The timers and the decimal digits: FX07, FX15, FX18 and the tick (R205–R207, R216–R218), FX33 (R210). -/

/-! ### The decimal digits -/

/-- Byte `k` of the three that FX33 stores is the digit of VX at 10 to the power 2 - `k` (R210). -/
theorem Memory.toNat_read_writeBytes_bcdDigits (m : Memory) (a : Nat) (b : Byte) {k : Nat} (hk : k < 3) :
    ((m.writeBytes a (bcdDigits b)).read (a + k)).toNat = b.toNat / 10 ^ (2 - k) % 10 := by
  rw [Memory.read_writeBytes_inside _ _ _ _ hk]
  have hb := b.isLt
  interval_cases k <;>
    simp only [bcdDigits, List.getElem_cons_zero, List.getElem_cons_succ, BitVec.toNat_ofNat] <;> omega

/-- Settles O31: the bytes are the digits, under the bounds check of three bytes; a number below 256 is the sum of its three
digits by their places. -/
theorem bcdDigitsOfRegister : Obligations.BcdDigitsOfRegister := by
  unfold Obligations.BcdDigitsOfRegister
  refine fun x => ⟨fun c w => decodeWords_of_short (i := .ldB x) rfl rfl w, fun s => ⟨fun hfit => ?_, fun hout => ?_⟩⟩
  · have hdigit {k : Nat} (hk : k < 3) := s.mem.toNat_read_writeBytes_bcdDigits s.i.toNat (s.getV x) hk
    have hhundreds := hdigit (k := 0) (by decide)
    have htens := hdigit (k := 1) (by decide)
    have hunits := hdigit (k := 2) (by decide)
    rw [Nat.add_zero] at hhundreds
    have hbyte := (s.getV x).isLt
    refine ⟨_, congrArg Host.Outcome.next (State.guardRange_of_last_lt hfit _), rfl, ?_, ?_, ?_, fun a ha => ?_⟩
    · rw [hhundreds, htens, hunits]; omega
    · rw [htens]; omega
    · rw [hunits]; omega
    · exact Memory.read_writeBytes_outside _ (by rw [length_bcdDigits]; omega)
  · exact congrArg Host.Outcome.next (State.guardRange_of_le_last hout _)

/-! ### The timer instructions -/

/-- The sound is on while ST is at least 1 (R217). -/
theorem State.soundActive_iff (s : State) : s.soundActive = true ↔ 1 ≤ s.st.toNat := decide_eq_true_iff

/-- Settles O47: three rows without a gate, each one write of a register. -/
theorem timerInstructions : Obligations.TimerInstructions := by
  unfold Obligations.TimerInstructions
  exact ⟨fun x c w => ⟨decodeWords_of_short (i := .ldVxDt x) rfl rfl w, decodeWords_of_short (i := .ldDtVx x) rfl rfl w,
      decodeWords_of_short (i := .ldStVx x) rfl rfl w⟩,
    fun s x => ⟨⟨_, rfl, rfl, (s.getV_setV x · s.dt)⟩, rfl, _, rfl, rfl, State.soundActive_iff _⟩⟩

/-! ### The tick -/

/-- A tick takes 1 from a timer, down to 0 (R216). -/
theorem toNat_decTimer (t : Byte) : (decTimer t).toNat = t.toNat - 1 := by
  unfold decTimer
  split
  next hzero => rw [hzero]; rfl
  next hpos => bv_omega

theorem toNat_iterate_decTimer (n : Nat) (t : Byte) : (decTimer^[n] t).toNat = t.toNat - n := by
  induction n generalizing t with
  | zero => rfl
  | succ n ih => rw [Function.iterate_succ_apply, ih, toNat_decTimer]; omega

/-- Ticks change the two timers alone, each by itself (R216). -/
theorem State.iterate_tick (n : Nat) (s : State) :
    State.tick^[n] s = { s with dt := decTimer^[n] s.dt, st := decTimer^[n] s.st } := by
  induction n generalizing s with
  | zero => rfl
  | succ n ih => exact ih s.tick

/-- A run of ticks answers in every STATUS (R216). -/
theorem runTransitions_ticks (n : Nat) (s : State) :
    runTransitions (List.replicate n (.event .tick)) s = .next (State.tick^[n] s) := by
  induction n generalizing s with
  | zero => rfl
  | succ n ih => exact (runTransitions_cons_of_next rfl).trans (ih s.tick)

/-- Settles O48: the run is the iterated tick, which counts each timer down by itself. -/
theorem ticksCountTimersDownToZero : Obligations.TicksCountTimersDownToZero := by
  unfold Obligations.TicksCountTimersDownToZero
  intro n s t hrun
  obtain rfl := Host.Outcome.next.inj ((runTransitions_ticks n s).symm.trans hrun)
  rw [State.iterate_tick]
  exact ⟨rfl, toNat_iterate_decTimer n s.dt, toNat_iterate_decTimer n s.st⟩

end Sys2Proof.Machine

namespace Sys2Proof.Machine
/-! The SuperChip snapshot and the exit (R224, R225, R230). -/

/-! ### The snapshot of the registers -/

/-- The snapshot after LD R, VX, slot by slot (R224). -/
theorem exec_saveRpl (x : Nibble) (s : State) : ∃ t, exec (.saveRpl x) s = .next t ∧ t = { s with rpl := t.rpl } ∧
    ∀ r : Nibble, t.rpl[r.toNat]'r.isLt = if r.toNat ≤ x.toNat then s.getV r else s.rpl[r.toNat]'r.isLt :=
  ⟨_, rfl, rfl, fun r => Vector.getElem_ofFn r.isLt⟩

/-- The registers after LD VX, R, one by one (R225). -/
theorem exec_loadRpl (x : Nibble) (s : State) : ∃ t, exec (.loadRpl x) s = .next t ∧ t = { s with v := t.v } ∧
    ∀ r : Nibble, t.getV r = if r.toNat ≤ x.toNat then s.rpl[r.toNat]'r.isLt else s.getV r :=
  ⟨_, rfl, rfl, s.getV_ofFn _⟩

/-- Settles O50: the restore reads the slots that the save wrote, since no register is part of the snapshot. -/
theorem snapshotSavesAndRestores : Obligations.SnapshotSavesAndRestores := by
  unfold Obligations.SnapshotSavesAndRestores
  refine fun s x => ⟨?_, exec_loadRpl x s⟩
  obtain ⟨t, hsave, hframe, hslots⟩ := exec_saveRpl x s
  refine ⟨t, hsave, hframe, hslots, fun v => ?_⟩
  obtain ⟨u, hload, -, hregs⟩ := exec_loadRpl x { t with v := v }
  refine ⟨u, hload, fun r hr => ?_⟩
  calc u.getV r
    _ = t.rpl[r.toNat]'r.isLt := (hregs r).trans (if_pos hr)
    _ = s.getV r := (hslots r).trans (if_pos hr)

/-! ### The exit -/

/-- `resume()` takes back no halt but InvalidOpcode (R270). -/
theorem State.resume_raise (s : State) {reason : HaltReason} (info : HaltInfo) (h : reason ≠ .invalidOpcode) :
    (s.raise reason info).resume = s.raise reason info :=
  if_neg fun ⟨_, hinvalid⟩ => h hinvalid

/-- Settles O51: the word is a gated row, and the halt is one entry with a reason that `resume()` does not take back. -/
theorem exitHaltsForGood : Obligations.ExitHaltsForGood := by
  unfold Obligations.ExitHaltsForGood
  refine ⟨fun c w => decodeWords_gated (i := .exit) rfl Config.schipExtras_iff, fun s => ?_⟩
  exact ⟨s.raise .exit (.value s.instrAddr.toNat), rfl, s.resume_raise _ (by decide),
    step_of_halted (State.raise_status ..), rfl⟩

end Sys2Proof.Machine

namespace Sys2Proof.Machine
/-! The XO-Chip loads and stores (R240, R244–R247): a register range by its `k`-th register, the plane mask and the audio
registers. -/

/-! ### The sequence VX to VY -/

/-- Every register between VX and VY has a place in the sequence (R246). -/
theorem exists_rangeReg_eq {x y r : Nibble} (hlow : min x.toNat y.toNat ≤ r.toNat) (hhigh : r.toNat ≤ max x.toNat y.toNat) :
    ∃ k < rangeLength x y, rangeReg x y k = r := by
  have hplace : ∃ k, rangeOffset x y r.toNat = some k := by
    unfold rangeOffset
    split_ifs
    · exact ⟨_, rfl⟩
    · exact ⟨_, rfl⟩
    · omega
  obtain ⟨k, hk⟩ := hplace
  exact ⟨k, rangeReg_of_offset hk⟩

theorem rangeLength_comm (x y : Nibble) : rangeLength x y = rangeLength y x := by
  rw [rangeLength_eq_max_sub_min, rangeLength_eq_max_sub_min, max_comm, min_comm]

/-- The sequences VX to VY and VY to VX run against each other (R246, R247). -/
theorem rangeReg_add_rangeReg_swap {x y : Nibble} {k : Nat} (hk : k < rangeLength x y) :
    rangeReg x y k + rangeReg y x k = x + y := by
  rw [rangeLength_eq] at hk
  rw [rangeReg_eq, rangeReg_eq]
  rcases Nat.lt_trichotomy x.toNat y.toNat with hlt | heq | hgt
  · rw [if_pos hlt.le] at hk ⊢
    rw [if_neg (by omega)]
    bv_omega
  · rw [if_pos heq.le] at hk ⊢
    rw [if_pos heq.ge]
    bv_omega
  · rw [if_neg (by omega)] at hk ⊢
    rw [if_pos hgt.le]
    bv_omega

/-! ### SAVE and LOAD -/

/-- SAVE with its bytes in memory stores the sequence at I (R246). -/
theorem exec_saveRange_of_fits {s : State} {x y : Nibble} (hfit : ∀ k < rangeLength x y, s.i.toNat + k < s.cfg.memSize) :
    exec (.saveRange x y) s = .next { s with mem := s.mem.writeBytes s.i.toNat (s.regsBetween x y) } :=
  congrArg Host.Outcome.next (State.guardRange_of_fits hfit)

/-- LOAD with its bytes in memory loads the sequence from I (R247). -/
theorem exec_loadRange_of_fits {s : State} {x y : Nibble} (hfit : ∀ k < rangeLength x y, s.i.toNat + k < s.cfg.memSize) :
    exec (.loadRange x y) s = .next { s with v := s.loadBetween s.i.toNat x y } :=
  congrArg Host.Outcome.next (State.guardRange_of_fits hfit)

/-- The byte where the `k`-th register of the sequence is stored (R246). -/
theorem State.read_writeBytes_regsBetween (s : State) (m : Memory) (base : Nat) {x y : Nibble} {k : Nat}
    (hk : k < rangeLength x y) :
    (m.writeBytes base (s.regsBetween x y)).read (base + k) = s.getV (rangeReg x y k) := by
  rw [Memory.read_writeBytes_inside _ _ _ _ (by rwa [State.length_regsBetween]), State.getElem_regsBetween]

/-- The `k`-th register of the sequence after it is loaded (R247). -/
theorem State.getV_loadBetween_rangeReg (s : State) (base : Nat) {x y : Nibble} {k : Nat} (hk : k < rangeLength x y) :
    ({ s with v := s.loadBetween base x y } : State).getV (rangeReg x y k) = s.mem.read (base + k) :=
  (s.getV_loadBetween base x y _).trans (by rw [rangeOffset_rangeReg hk])

/-- A register outside the sequence is not loaded (R247). -/
theorem State.getV_loadBetween_outside (s : State) (base : Nat) {x y r : Nibble}
    (hr : ¬ (min x.toNat y.toNat ≤ r.toNat ∧ r.toNat ≤ max x.toNat y.toNat)) :
    ({ s with v := s.loadBetween base x y } : State).getV r = s.getV r :=
  (s.getV_loadBetween base x y r).trans (by rw [rangeOffset_eq_none hr])

/-- Settles O32: the bytes stored are the registers of the sequence, in order. -/
theorem saveRegisterRange : Obligations.SaveRegisterRange := by
  unfold Obligations.SaveRegisterRange
  intro s x y n hn hfit
  have hlen : rangeLength x y = n + 1 := by rw [rangeLength_eq, hn]
  refine ⟨_, exec_saveRange_of_fits fun k hk => by omega, rfl, fun k hk => ?_, fun a ha => ?_⟩
  · rw [← rangeReg_eq]
    exact s.read_writeBytes_regsBetween s.mem _ (by omega)
  · exact Memory.read_writeBytes_outside _ (by rw [State.length_regsBetween]; omega)

/-- Settles O33: the `k`-th register of the sequence has place `k` in it, and a register outside it has none. -/
theorem loadRegisterSpan : Obligations.LoadRegisterSpan := by
  unfold Obligations.LoadRegisterSpan
  intro s x y n hn hfit
  have hlen : rangeLength x y = n + 1 := by rw [rangeLength_eq, hn]
  refine ⟨_, exec_loadRange_of_fits fun k hk => by omega, rfl, fun k hk => ?_, fun r hr => ?_⟩
  · rw [← rangeReg_eq]
    exact s.getV_loadBetween_rangeReg _ (by omega)
  · exact s.getV_loadBetween_outside _ (by omega)

/-- Settles O36: byte `k` is the `k`-th register from VX; the load from VY puts it into the `k`-th register from VY, which is
the mirror image of that one. -/
theorem savedRangeLoadsBack : Obligations.SavedRangeLoadsBack := by
  unfold Obligations.SavedRangeLoadsBack
  intro s t u w x y v hfit hsave hload hswap r hlow hhigh
  have hbytes : ∀ k < rangeLength x y, s.i.toNat + k < s.cfg.memSize := fun k hk => by
    rw [rangeLength_eq_max_sub_min] at hk
    omega
  obtain rfl := Host.Outcome.next.inj (hsave.symm.trans (exec_saveRange_of_fits hbytes))
  obtain rfl := Host.Outcome.next.inj (hload.symm.trans (exec_loadRange_of_fits hbytes))
  obtain rfl := Host.Outcome.next.inj (hswap.symm.trans (exec_loadRange_of_fits (rangeLength_comm x y ▸ hbytes)))
  constructor
  · obtain ⟨k, hk, rfl⟩ := exists_rangeReg_eq hlow hhigh
    exact (State.getV_loadBetween_rangeReg _ _ hk).trans (s.read_writeBytes_regsBetween _ _ hk)
  · obtain ⟨k, hk, rfl⟩ := exists_rangeReg_eq (min_comm x.toNat y.toNat ▸ hlow) (max_comm x.toNat y.toNat ▸ hhigh)
    have hk' : k < rangeLength x y := rangeLength_comm x y ▸ hk
    rw [← rangeReg_add_rangeReg_swap hk', BitVec.add_sub_cancel]
    exact (State.getV_loadBetween_rangeReg _ _ hk).trans (s.read_writeBytes_regsBetween _ _ hk')

/-! ### PLANE, AUDIO and PITCH -/

/-- Settles O49: AUDIO runs its effect under the bounds check of the 16 bytes; the other two check nothing. -/
theorem planeAudioAndPitchLoads : Obligations.PlaneAudioAndPitchLoads := by
  unfold Obligations.PlaneAudioAndPitchLoads
  exact fun s x n => ⟨rfl, rfl, fun hfit => ⟨_, congrArg Host.Outcome.next (State.guardRange_of_last_lt hfit _), rfl,
    fun k => Vector.getElem_ofFn k.isLt⟩⟩

end Sys2Proof.Machine

namespace Sys2Proof
/-! The instructions that can halt (R261). -/

/-- An instruction whose rule can raise a halt is one word long (R92). -/
theorem Instr.length_of_canHalt {i : Instr} (h : i.CanHalt) : i.length = 2 := by
  rcases h with rfl | rfl | rfl | ⟨nnn, rfl⟩ | ⟨x, rfl | rfl | rfl⟩ | ⟨x, y, rfl | rfl⟩ | ⟨x, y, n, rfl⟩ <;> rfl

end Sys2Proof

namespace Sys2Proof.Machine
/-! Halts and the return from them (R262, R263, R269, R270). -/

/-! ### Halt entry -/

/-- An instruction that ends halted raised a halt, and is one whose rule can (R261). -/
theorem exec_halts {i : Instr} {s t : State} (h : exec i s = .next t) (hs : s.status ≠ .halted) (ht : t.status = .halted) :
    i.CanHalt ∧ s.Halts t := by
  have hhalts : s.Halts t := by
    rcases exec_cases h with hhalts | ⟨-, -, -, hst | ⟨hst, -⟩ | hst⟩
    · exact hhalts
    · exact absurd (hst.symm.trans ht) hs
    · cases hst.symm.trans ht
    · cases hst.symm.trans ht
  have hlog : t.faultLog ≠ s.faultLog := by
    obtain ⟨reason, info, -, rfl⟩ := hhalts
    simp
  obtain ⟨-, -, -, -, -, -, -, -, -, -, -, -, -, -, -, -, -, hwriters, -⟩ := onlyTheListedInstructionsWrite i s t h
  obtain ⟨-, hi⟩ := hwriters (.inr (.inr hlog))
  exact ⟨hi, hhalts⟩

/-- Everything a halt of a running engine can be: a reason of a step, raised in the state before it but for PC, which is past
the first word if that word was read (R262, R263, R269). -/
theorem step_halts {s t : State} (hs : s.status = .run) (h : step s = .next t) (ht : t.status = .halted) :
    ∃ reason info, reason ≠ .none ∧ reason ≠ .romTooLarge ∧
      t = ({ s with pc := if s.pc.toNat + 1 < s.cfg.memSize then s.pc + 2 else s.pc } : State).raise reason info := by
  rcases s.fetch_cases with ⟨reason, info, hreason, hf⟩ | ⟨i, -, hpc, hf⟩
  · obtain rfl := Host.Outcome.next.inj (h.symm.trans (step_of_halt hs hf))
    refine ⟨reason, info, ?_, ?_, rfl⟩ <;> rcases hreason with rfl | rfl <;> decide
  · rw [step_of_run hs hf] at h
    obtain ⟨hi, reason, info, hreason, rfl⟩ := exec_halts h (by simp [hs]) ht
    rw [Instr.length_of_canHalt hi, if_pos hpc]
    refine ⟨reason, info, ?_, ?_, rfl⟩ <;> rcases hreason with rfl | rfl | rfl | rfl <;> decide

/-- Settles O12, from what a halt can be. -/
theorem haltsArePrecise : Obligations.HaltsArePrecise := by
  unfold Obligations.HaltsArePrecise
  intro s t hs h ht
  obtain ⟨reason, info, hnone, hrom, rfl⟩ := step_halts hs h ht
  exact ⟨rfl, hnone, hrom, rfl⟩

/-! ### The return from a halt -/

/-- Settles O14: the two clauses are the two branches of `resume()`. -/
theorem resumeOnlyAfterInvalidOpcode : Obligations.ResumeOnlyAfterInvalidOpcode := by
  unfold Obligations.ResumeOnlyAfterInvalidOpcode
  exact fun s => ⟨fun hs hr => if_pos ⟨hs, hr⟩, fun hno => if_neg hno⟩

/-- A halt with InvalidOpcode has read the first word (R268). -/
theorem opcode_in_memory_of_invalidOpcode {s t : State} (hs : s.status = .run) (h : step s = .next t)
    (hr : t.haltReason = .invalidOpcode) : s.pc.toNat + 1 < s.cfg.memSize := by
  by_contra hout
  obtain rfl := Host.Outcome.next.inj (h.symm.trans (step_of_halt hs (State.fetch_out (not_lt.1 hout))))
  cases hr

/-- Settles O15: `resume()` clears the halt registers, which were clear before the step. -/
theorem resumedInvalidOpcodeIsSkipped : Obligations.ResumedInvalidOpcodeIsSkipped := by
  unfold Obligations.ResumedInvalidOpcodeIsSkipped
  intro s t hinv hs h ht hr
  have hpc := opcode_in_memory_of_invalidOpcode hs h hr
  obtain ⟨hreason, hinfo⟩ := hinv.not_halted (by simp [hs])
  obtain ⟨resumes, -⟩ := resumeOnlyAfterInvalidOpcode t
  rw [resumes ht hr, ← hs, ← hreason, ← hinfo]
  obtain ⟨reason, info, -, -, rfl⟩ := step_halts hs h ht
  cases hr
  rw [if_pos hpc]
  rfl

end Sys2Proof.Machine

namespace Sys2Proof.Machine
/-! The start of a session and the load of a ROM (R290, R292). -/

/-- Settles O54: the values are those the session starts with, and the default session is the reset state. -/
theorem resetValues : Obligations.ResetValues := by
  unfold Obligations.ResetValues
  refine ⟨?_, State.initial_default⟩
  rintro c s rfl
  exact ⟨rfl, fun x => Vector.getElem_replicate x.isLt, rfl, rfl, rfl, fun k => Vector.getElem_replicate k.isLt,
    rfl, rfl, rfl, rfl, rfl, rfl, FrameBuffer.pixel_blank, rfl, fun k => Vector.getElem_replicate k.isLt,
    rfl, rfl, rfl, rfl, rfl, rfl, rfl, rfl⟩

/-- A ROM that fits is stored from 0x200 up (R292). -/
theorem State.loadProgram_of_le {s : State} {rom : List Byte} (h : rom.length ≤ s.cfg.memSize - 0x200) :
    s.loadProgram rom = .loaded { s with mem := s.mem.writeBytes 0x200 rom } :=
  if_neg (not_lt.2 h)

/-- A longer ROM is refused (R272). -/
theorem State.loadProgram_of_gt {s : State} {rom : List Byte} (h : s.cfg.memSize - 0x200 < rom.length) :
    s.loadProgram rom = .romTooLarge rom.length :=
  if_pos h

/-- Settles O56: the load is one store, or none. -/
theorem loadProgramCopiesOrRefuses : Obligations.LoadProgramCopiesOrRefuses := by
  unfold Obligations.LoadProgramCopiesOrRefuses
  refine fun s rom => ⟨fun hfit => ⟨_, State.loadProgram_of_le hfit, rfl, fun k => ?_, fun a ha => ?_⟩, State.loadProgram_of_gt⟩
  · exact Memory.read_writeBytes_inside _ _ _ _ k.isLt
  · exact Memory.read_writeBytes_outside _ ha

/-- A ROM that was loaded keeps the state legal: it lies in memory (R292). -/
theorem State.Inv.loadProgram {s t : State} (h : s.Inv) {rom : List Byte} (hload : s.loadProgram rom = .loaded t) : t.Inv := by
  rcases Nat.lt_or_ge (s.cfg.memSize - 0x200) rom.length with hlong | hfit
  · cases (State.loadProgram_of_gt hlong).symm.trans hload
  · cases (State.loadProgram_of_le hfit).symm.trans hload
    have hsize := s.cfg.memSize_ge
    exact h.writeBytes fun k hk => by omega

/-- Settles O58: the start of the session is legal, and a load keeps it so. -/
theorem sessionsStartLegal : Obligations.SessionsStartLegal := by
  unfold Obligations.SessionsStartLegal
  exact fun c hc => ⟨State.inv_initial hc, fun _ _ => (State.inv_initial hc).loadProgram⟩

end Sys2Proof.Machine
